-- ==== Sys2Proof/Word.lean ====
section
/-! DEFINITION. The words of the FPALU interface and the data they carry: the 64-bit word, the bit pair, the
three precisions, the four integer widths and the abstract value domain. Types only. -/

namespace Sys2Proof

/-- A word of the interface: 64 bits, bit 0 the least significant (R10, R41). -/
abbrev Word := BitVec 64

/-- A type-code field of the command word or of an element tag word: 8 bits (R9 `TAGW`, R22). It holds a precision
ordinal or an integer width code, and any other value too: illegal codes stay representable and are checked (R59). -/
abbrev TypeCode := BitVec 8

/-- A bit pair `(mantissa, expSign)`, the form in which a datum crosses the boundary (R21, R22). -/
structure Pair where
  /-- The `mantissa` half. -/
  m : Word
  /-- The `expSign` half. -/
  es : Word
  deriving DecidableEq, Repr, Inhabited

/-- The precisions, in the order `SINGLE < DOUBLE < EXTENDED` of their ordinals (R57). -/
inductive Precision where
  | single
  | double
  | extended
  deriving DecidableEq, Repr, Inhabited

/-- The signed integer widths 8, 16, 32 and 64, a second enumeration apart from the precisions (R58, R59). -/
inductive Width where
  | w8
  | w16
  | w32
  | w64
  deriving DecidableEq, Repr, Inhabited

/-- The abstract value of a decoded datum (R98). A sign bit is a `Bool`, `true` for 1. The fifth form of R98,
`NonCanon`, is no value: decoding answers `none` there (R104). -/
inductive Value where
  /-- The zeros `+0` and `-0`. -/
  | zero (s : Bool)
  /-- A finite non-zero number. -/
  | fin (x : ℚ)
  /-- The infinities. -/
  | inf (s : Bool)
  /-- A NaN with its sign bit, its quiet bit and all its fraction bits. -/
  | nan (s q : Bool) (pl : Nat)
  deriving DecidableEq, Repr, Inhabited

/-- An operand as the hardware sees it: a floating datum as its precision and the bits that precision uses, every
other bit cleared, or a whole integer word. It is what the open parameter `NANGEN` may depend on (R118, R33). -/
inductive Operand where
  | float (p : Precision) (bits : Pair)
  | int (n : Word)
  deriving DecidableEq, Repr, Inhabited

end Sys2Proof
end

