-- ==== Sys2Proof/Syntax.lean ====
section
/-! DEFINITION. The 27 operations of FPALU as syntax: one constructor of `Instr` for every row of the operation map
(R60), carrying exactly the request fields that its format reads (R24, R61). -/

namespace Sys2Proof

/-- The names of the 27 operations (R60). -/
inductive Op where
  | add | sub | mul | div | add3 | addmany | mulmany
  | powi | pow | log | exp | sqrt
  | round | trunc | ceil | floor | abs | copysign
  | iszero | isone | isnan | isinf | isneg | isgt
  | cvtff | cvtif | cvtfi
  deriving DecidableEq, Repr, Inhabited

/-- The nine operand formats (R61). -/
inductive Format where
  /-- Unary float. -/
  | u
  /-- Binary float, promoted. -/
  | b
  /-- Binary float at one precision. -/
  | bs
  /-- Ternary float, promoted. -/
  | t
  /-- Variadic fold. -/
  | v
  /-- Float and integer. -/
  | pi
  /-- Float to float. -/
  | cff
  /-- Integer to float. -/
  | cif
  /-- Float to integer. -/
  | cfi
  deriving DecidableEq, Repr, Inhabited

/-- A variadic element `E[i]`: its precision tag, the low byte of its tag word, and its bit pair (R22, R55). -/
structure Elem where
  t : TypeCode
  v : Pair
  deriving DecidableEq, Repr, Inhabited

/-- One request, as the operation it names and the fields that operation reads. The type codes are the raw fields:
whether they name a precision or a width is checked when the request is executed (R59, R62). -/
inductive Instr where
  /-- `A + B` (R143). -/
  | add (ta tb : TypeCode) (a b : Pair)
  /-- `A - B` (R145). -/
  | sub (ta tb : TypeCode) (a b : Pair)
  /-- `A * B` (R147). -/
  | mul (ta tb : TypeCode) (a b : Pair)
  /-- `A / B` (R149). -/
  | div (ta tb : TypeCode) (a b : Pair)
  /-- `(A + B) + C` (R153). -/
  | add3 (ta tb tc : TypeCode) (a b c : Pair)
  /-- The left-to-right sum of `A` and the elements (R159). -/
  | addmany (ta : TypeCode) (a : Pair) (es : List Elem)
  /-- The left-to-right product of `A` and the elements (R161). -/
  | mulmany (ta : TypeCode) (a : Pair) (es : List Elem)
  /-- `A` to the power of the integer `N`, by squaring (R172). -/
  | powi (ta : TypeCode) (a : Pair) (n : Word)
  /-- `A` to the power `B` (R178). -/
  | pow (ta tb : TypeCode) (a b : Pair)
  /-- Natural logarithm (R181). -/
  | log (ta : TypeCode) (a : Pair)
  /-- `e` to the power `A` (R183). -/
  | exp (ta : TypeCode) (a : Pair)
  /-- Square root (R186). -/
  | sqrt (ta : TypeCode) (a : Pair)
  /-- Nearest integral value, halfway cases away from zero (R203). -/
  | round (ta : TypeCode) (a : Pair)
  /-- Integral value toward zero (R204). -/
  | trunc (ta : TypeCode) (a : Pair)
  /-- Least integral value not below (R205). -/
  | ceil (ta : TypeCode) (a : Pair)
  /-- Greatest integral value not above (R206). -/
  | floor (ta : TypeCode) (a : Pair)
  /-- Sign bit cleared (R208). -/
  | abs (ta : TypeCode) (a : Pair)
  /-- Magnitude of `A`, sign of `B`, both read at the precision `ta` (R210). -/
  | copysign (ta : TypeCode) (a b : Pair)
  /-- Is it a zero (R222). -/
  | iszero (ta : TypeCode) (a : Pair)
  /-- Is it one or minus one (R223). -/
  | isone (ta : TypeCode) (a : Pair)
  /-- Is it a NaN (R224). -/
  | isnan (ta : TypeCode) (a : Pair)
  /-- Is it an infinity (R225). -/
  | isinf (ta : TypeCode) (a : Pair)
  /-- Is its sign bit set (R226). -/
  | isneg (ta : TypeCode) (a : Pair)
  /-- Is `A` greater than `B` (R228). -/
  | isgt (ta tb : TypeCode) (a b : Pair)
  /-- Float to float, `ta` to `tc` (R238). -/
  | cvtff (ta tc : TypeCode) (a : Pair)
  /-- Integer of width `ta` to float of precision `tc` (R244). -/
  | cvtif (ta tc : TypeCode) (n : Word)
  /-- Float of precision `ta` to integer of width `tc` (R248). -/
  | cvtfi (ta tc : TypeCode) (a : Pair)
  deriving DecidableEq, Repr

end Sys2Proof
end

