-- ==== Sys2Proof/Config.lean ====
section
/-! DEFINITION. What one FPALU fixes for its life and the spec leaves open (R9): the parameters marked OPEN as
constants without a body. Nothing can be proved of their values beyond what the operations that consult them
build in. `EXT_NONCANON` is no function: a request that meets it is refused (R104). `TRANSPORT_BYTE_ORDER` is a
matter of the platform that no rule depends on (R42), so it has no constant here. -/

namespace Sys2Proof

/-- `MAXCNT`, the largest element count of a variadic request: the width of the `cnt` field allows no more (R9). -/
def Config.maxCnt : Nat := 65535

/-- `NANGEN` (R118): the free bits of a NaN result, as a function of the operation, the result precision and the
operand encodings. Only the sign and the fraction bits below the quiet bit are taken from it
(`Machine.qNaN`, log entry 3). -/
opaque Config.nangen : Op → Precision → List Operand → Word

/-- `TRANS.log` (R177): raw bits of the result of LOG outside its decided cases (log entry 4). -/
opaque Config.transLog : Precision → Value → Pair

/-- `TRANS.exp` (R177): raw bits of the result of EXP outside its decided cases (log entry 4). -/
opaque Config.transExp : Precision → Value → Pair

/-- `TRANS.pow` (R177): raw bits of the result of POW outside its decided cases (log entry 4). -/
opaque Config.transPow : Precision → Value → Value → Pair

/-- The choice that R179 case 3 leaves to `TRANS`: whether POW with a signalling NaN, beside an operand that would
have given one, is `1` or a quiet NaN (log entry 5). -/
opaque Config.powSignalling : Precision → Value → Value → Bool

/-- `FTOI_OOR` (R250): the integer that CVTFI returns where the truncated value does not fit, or the operand is
infinite or a NaN. Only the low bits of the width are taken from it (log entry 6). -/
opaque Config.ftoiOor : Precision → Width → Pair → Word

end Sys2Proof
end

