-- ==== Sys2Proof/WellFormed.lean ====
section
/-! DEFINITION. The checks on a request as syntax. `Instr.countFits` says that the packet can be written down: the
element count fits its 16-bit field. `Instr.typesLegal` says that no type code it reads is outside its enumeration
(R267). `Instr.wf` is what the encoder needs; a well-formed request with an illegal type code is still answered. -/

namespace Sys2Proof

/-- The code names a precision (R57). -/
def TypeCode.isPrecision (t : TypeCode) : Bool := t.toNat ≤ 2

/-- The code names an integer width (R58). -/
def TypeCode.isWidth (t : TypeCode) : Bool := t == 8#8 || t == 16#8 || t == 32#8 || t == 64#8

/-- The number of variadic elements fits the `cnt` field (R55, R56). -/
def Instr.countFits : Instr → Bool
  | .addmany _ _ es | .mulmany _ _ es => es.length ≤ Config.maxCnt
  | .add .. | .sub .. | .mul .. | .div .. | .add3 .. | .powi .. | .pow .. | .log .. | .exp .. | .sqrt ..
  | .round .. | .trunc .. | .ceil .. | .floor .. | .abs .. | .copysign ..
  | .iszero .. | .isone .. | .isnan .. | .isinf .. | .isneg .. | .isgt .. | .cvtff .. | .cvtif .. | .cvtfi .. => true

/-- Every type code the format reads is legal in its enumeration (R267). -/
def Instr.typesLegal : Instr → Bool
  | .add ta tb _ _ | .sub ta tb _ _ | .mul ta tb _ _ | .div ta tb _ _ | .pow ta tb _ _ | .isgt ta tb _ _ =>
    ta.isPrecision && tb.isPrecision
  | .add3 ta tb tc _ _ _ => ta.isPrecision && tb.isPrecision && tc.isPrecision
  | .addmany ta _ es | .mulmany ta _ es => ta.isPrecision && es.all fun e => e.t.isPrecision
  | .powi ta _ _ | .log ta _ | .exp ta _ | .sqrt ta _ | .round ta _ | .trunc ta _ | .ceil ta _ | .floor ta _
  | .abs ta _ | .copysign ta _ _ | .iszero ta _ | .isone ta _ | .isnan ta _ | .isinf ta _ | .isneg ta _ =>
    ta.isPrecision
  | .cvtff ta tc _ => ta.isPrecision && tc.isPrecision
  | .cvtif ta tc _ => ta.isWidth && tc.isPrecision
  | .cvtfi ta tc _ => ta.isPrecision && tc.isWidth

/-- A request that the encoding can carry: what `encode` is the inverse of `decode` on. -/
def Instr.wf (i : Instr) : Bool := i.countFits

end Sys2Proof
end

