-- ==== Sys2Proof/Decode.lean ====
section
/-! DEFINITION. The request packet (R55, R56): the operation map, the decoder, total on any list of words and rejecting
by name (R62 steps 1 to 3), and the encoder. Every field is cut out of a word here and nowhere else. -/

namespace Sys2Proof

/-- Why a packet names no operation (R62 steps 1 to 3, R269). Each is answered with ILLEGAL_COMMAND. -/
inductive Reject where
  /-- The words are not one packet: there is no `W0`, or their number is not the one `W0` announces. -/
  | notOnePacket
  /-- `CMD.rsv` is not zero. -/
  | reservedBits
  /-- `CMD.opc` is one of the 229 reserved codes. -/
  | reservedOpcode
  /-- `CMD.cnt` is not zero and the operation is not variadic. -/
  | countNotZero
  deriving DecidableEq, Repr

/-- The operation codes (R60). -/
def Op.code : Op → BitVec 8
  | .add => 0x10#8
  | .sub => 0x11#8
  | .mul => 0x12#8
  | .div => 0x13#8
  | .add3 => 0x14#8
  | .addmany => 0x15#8
  | .mulmany => 0x16#8
  | .powi => 0x20#8
  | .pow => 0x21#8
  | .log => 0x22#8
  | .exp => 0x23#8
  | .sqrt => 0x24#8
  | .round => 0x30#8
  | .trunc => 0x31#8
  | .ceil => 0x32#8
  | .floor => 0x33#8
  | .abs => 0x34#8
  | .copysign => 0x35#8
  | .iszero => 0x40#8
  | .isone => 0x41#8
  | .isnan => 0x42#8
  | .isinf => 0x43#8
  | .isneg => 0x44#8
  | .isgt => 0x45#8
  | .cvtff => 0x50#8
  | .cvtif => 0x51#8
  | .cvtfi => 0x52#8

/-- The operations, each once. -/
def Op.all : List Op :=
  [.add, .sub, .mul, .div, .add3, .addmany, .mulmany, .powi, .pow, .log, .exp, .sqrt,
   .round, .trunc, .ceil, .floor, .abs, .copysign,
   .iszero, .isone, .isnan, .isinf, .isneg, .isgt, .cvtff, .cvtif, .cvtfi]

/-- The operation a code names; the 229 reserved codes name none (R63). -/
def Op.ofCode? (c : BitVec 8) : Option Op := Op.all.find? fun o => o.code == c

/-- The operand format of an operation (R60, R61). -/
def Op.format : Op → Format
  | .add | .sub | .mul | .div | .pow | .isgt => .b
  | .add3 => .t
  | .addmany | .mulmany => .v
  | .powi => .pi
  | .log | .exp | .sqrt | .round | .trunc | .ceil | .floor | .abs
  | .iszero | .isone | .isnan | .isinf | .isneg => .u
  | .copysign => .bs
  | .cvtff => .cff
  | .cvtif => .cif
  | .cvtfi => .cfi

/-- `CMD.opc` (R56). -/
def cmdOpc (w : Word) : BitVec 8 := w.extractLsb' 0 8

/-- `CMD.ta` (R56). -/
def cmdTa (w : Word) : TypeCode := w.extractLsb' 8 8

/-- `CMD.tb` (R56). -/
def cmdTb (w : Word) : TypeCode := w.extractLsb' 16 8

/-- `CMD.tc` (R56). -/
def cmdTc (w : Word) : TypeCode := w.extractLsb' 24 8

/-- `CMD.cnt` (R56). -/
def cmdCnt (w : Word) : BitVec 16 := w.extractLsb' 32 16

/-- `CMD.rsv` (R56). -/
def cmdRsv (w : Word) : BitVec 16 := w.extractLsb' 48 16

/-- The number of words of the packet that begins with the command word `w` (R55): known from `W0` alone, whatever
the operation (R64, R67). -/
def packetLength (w : Word) : Nat := 8 + 3 * (cmdCnt w).toNat

/-- The element words after `W7`, three by three (R55); bits 63:8 of a tag word are ignored (R64). -/
def elements : List Word → List Elem
  | t :: m :: es :: rest => ⟨t.extractLsb' 0 8, ⟨m, es⟩⟩ :: elements rest
  | _ => []

/-- The request an operation reads from its command word, its eight base words and its elements: each constructor
takes the fields its format reads and ignores the others (R24, R61, R65). -/
def Op.request (o : Op) (w : Word) (a b c : Pair) (n : Word) (es : List Elem) : Instr :=
  match o with
  | .add => .add (cmdTa w) (cmdTb w) a b
  | .sub => .sub (cmdTa w) (cmdTb w) a b
  | .mul => .mul (cmdTa w) (cmdTb w) a b
  | .div => .div (cmdTa w) (cmdTb w) a b
  | .add3 => .add3 (cmdTa w) (cmdTb w) (cmdTc w) a b c
  | .addmany => .addmany (cmdTa w) a es
  | .mulmany => .mulmany (cmdTa w) a es
  | .powi => .powi (cmdTa w) a n
  | .pow => .pow (cmdTa w) (cmdTb w) a b
  | .log => .log (cmdTa w) a
  | .exp => .exp (cmdTa w) a
  | .sqrt => .sqrt (cmdTa w) a
  | .round => .round (cmdTa w) a
  | .trunc => .trunc (cmdTa w) a
  | .ceil => .ceil (cmdTa w) a
  | .floor => .floor (cmdTa w) a
  | .abs => .abs (cmdTa w) a
  | .copysign => .copysign (cmdTa w) a b
  | .iszero => .iszero (cmdTa w) a
  | .isone => .isone (cmdTa w) a
  | .isnan => .isnan (cmdTa w) a
  | .isinf => .isinf (cmdTa w) a
  | .isneg => .isneg (cmdTa w) a
  | .isgt => .isgt (cmdTa w) (cmdTb w) a b
  | .cvtff => .cvtff (cmdTa w) (cmdTc w) a
  | .cvtif => .cvtif (cmdTa w) (cmdTc w) n
  | .cvtfi => .cvtfi (cmdTa w) (cmdTc w) a

/-- Decodes one packet. The checks stand in the order of R62 steps 1 to 3; the type codes are not looked at (R269). -/
def decode : List Word → Except Reject Instr
  | w :: am :: aes :: bm :: bes :: cm :: ces :: n :: rest =>
    if rest.length ≠ 3 * (cmdCnt w).toNat then .error .notOnePacket
    else if cmdRsv w ≠ 0#16 then .error .reservedBits
    else
      match Op.ofCode? (cmdOpc w) with
      | none => .error .reservedOpcode
      | some o =>
        if o.format ≠ .v ∧ cmdCnt w ≠ 0#16 then .error .countNotZero
        else .ok (o.request w ⟨am, aes⟩ ⟨bm, bes⟩ ⟨cm, ces⟩ n (elements rest))
  | _ => .error .notOnePacket

/-- The operation a request names. -/
def Instr.op : Instr → Op
  | .add .. => .add
  | .sub .. => .sub
  | .mul .. => .mul
  | .div .. => .div
  | .add3 .. => .add3
  | .addmany .. => .addmany
  | .mulmany .. => .mulmany
  | .powi .. => .powi
  | .pow .. => .pow
  | .log .. => .log
  | .exp .. => .exp
  | .sqrt .. => .sqrt
  | .round .. => .round
  | .trunc .. => .trunc
  | .ceil .. => .ceil
  | .floor .. => .floor
  | .abs .. => .abs
  | .copysign .. => .copysign
  | .iszero .. => .iszero
  | .isone .. => .isone
  | .isnan .. => .isnan
  | .isinf .. => .isinf
  | .isneg .. => .isneg
  | .isgt .. => .isgt
  | .cvtff .. => .cvtff
  | .cvtif .. => .cvtif
  | .cvtfi .. => .cvtfi

/-- The command word of R56 with `rsv = 0`. -/
def cmdWord (o : Op) (ta tb tc : TypeCode) (cnt : BitVec 16) : Word :=
  0#16 ++ cnt ++ tc ++ tb ++ ta ++ o.code

/-- The three words of a variadic element (R55). -/
def Elem.words (e : Elem) : List Word := [e.t.setWidth 64, e.v.m, e.v.es]

/-- The eight base words of a packet and its element words (R55). -/
def packet (w : Word) (a b c : Pair) (n : Word) (es : List Elem) : List Word :=
  w :: a.m :: a.es :: b.m :: b.es :: c.m :: c.es :: n :: es.flatMap Elem.words

/-- The packet of a request, zero in every field the operation ignores (R55, R56, R61; R65: a host should write zero
there). -/
def encode (i : Instr) : List Word :=
  let z : Pair := ⟨0#64, 0#64⟩
  match i with
  | .add ta tb a b | .sub ta tb a b | .mul ta tb a b | .div ta tb a b | .pow ta tb a b | .isgt ta tb a b =>
    packet (cmdWord i.op ta tb 0#8 0#16) a b z 0#64 []
  | .add3 ta tb tc a b c => packet (cmdWord i.op ta tb tc 0#16) a b c 0#64 []
  | .addmany ta a es | .mulmany ta a es =>
    packet (cmdWord i.op ta 0#8 0#8 (BitVec.ofNat 16 es.length)) a z z 0#64 es
  | .powi ta a n => packet (cmdWord i.op ta 0#8 0#8 0#16) a z z n []
  | .log ta a | .exp ta a | .sqrt ta a | .round ta a | .trunc ta a | .ceil ta a | .floor ta a | .abs ta a
  | .iszero ta a | .isone ta a | .isnan ta a | .isinf ta a | .isneg ta a =>
    packet (cmdWord i.op ta 0#8 0#8 0#16) a z z 0#64 []
  | .copysign ta a b => packet (cmdWord i.op ta 0#8 0#8 0#16) a b z 0#64 []
  | .cvtff ta tc a | .cvtfi ta tc a => packet (cmdWord i.op ta 0#8 tc 0#16) a z z 0#64 []
  | .cvtif ta tc n => packet (cmdWord i.op ta 0#8 tc 0#16) z z z n []

/-- The first `k` words of the number `v`, the least significant first. -/
def wordsOf : Nat → Nat → List Word
  | 0, _ => []
  | k + 1, v => BitVec.ofNat 64 v :: wordsOf k (v / 2 ^ 64)

/-- The packet whose first `nbits` bits are `w`, bit 0 the least significant bit of `W0`, and whose other bits are
zero, as long as its command word says. -/
def tableWords (nbits w : Nat) : List Word :=
  wordsOf (packetLength (BitVec.ofNat 64 (w % 2 ^ nbits))) (w % 2 ^ nbits)

/-- What the decoder reads from the operation map's numbering of a request. -/
def decodeTableWord (nbits w : Nat) : Option Instr :=
  match decode (tableWords nbits w) with
  | .ok i => some i
  | .error _ => none

end Sys2Proof
end

