-- ==== Sys2Proof/Machine/Exact.lean ====
section
/-! DEFINITION. Exact arithmetic on rationals (R12), written so that it evaluates by unfolding. Each operation is the one
of the rationals that its name says; `Laws/Exact.lean` proves it, once for each. -/

namespace Sys2Proof.Machine.Exact

/-- `2 ^ k`, in two powers small enough to evaluate wherever a power is evaluated. -/
def twoPow (k : Nat) : Nat := (2 ^ 128) ^ (k / 128) * 2 ^ (k % 128)

/-- `2 ^ q` for an integer `q`. -/
def pow2 : Int → ℚ
  | .ofNat n => mkRat (twoPow n) 1
  | .negSucc n => mkRat 1 (twoPow (n + 1))

/-- The natural number `n`. -/
def ofNat (n : Nat) : ℚ := mkRat n 1

/-- The integer `i`. -/
def ofInt (i : Int) : ℚ := mkRat i 1

/-- `x + y`. -/
def add (x y : ℚ) : ℚ := mkRat (x.num * y.den + y.num * x.den) (x.den * y.den)

/-- `x * y`. -/
def mul (x y : ℚ) : ℚ := mkRat (x.num * y.num) (x.den * y.den)

/-- `x / y`. -/
def div (x y : ℚ) : ℚ := Rat.divInt (x.num * y.den) (x.den * y.num)

/-- `|x|`. -/
def abs (x : ℚ) : ℚ := mkRat x.num.natAbs x.den

/-- `x` with its sign turned if `s`. -/
def signed (s : Bool) (x : ℚ) : ℚ := if s then -x else x

/-- `floor(x)`, the greatest integer not above `x` (R12). -/
def floor (x : ℚ) : Int := x.num / x.den

/-- `ceil(x)`, the least integer not below `x` (R12). -/
def ceil (x : ℚ) : Int := -((-x.num) / x.den)

/-- `truncate(x)`: `floor(x)` for `x >= 0`, `ceil(x)` for `x < 0` (R12). -/
def truncate (x : ℚ) : Int := if x < 0 then ceil x else floor x

/-- `floor(log2 a)` for `a > 0`: the integer `k` with `2^k <= a < 2^(k+1)`. -/
def floorLog2 (a : ℚ) : Int :=
  if pow2 (Nat.log2 a.num.natAbs - Nat.log2 a.den) ≤ a then Nat.log2 a.num.natAbs - Nat.log2 a.den
  else Nat.log2 a.num.natAbs - Nat.log2 a.den - 1

/-- `RNE(t)` for `t >= 0`: the nearest integer, on a tie the even one (R113). -/
def rne (t : ℚ) : Nat :=
  if add t (-ofInt (floor t)) < mkRat 1 2 then (floor t).toNat
  else if mkRat 1 2 < add t (-ofInt (floor t)) then (floor t).toNat + 1
  else if (floor t).toNat % 2 = 0 then (floor t).toNat
  else (floor t).toNat + 1

/-- Helper of `isqrt`: the root of `n` digit by digit, `r` found so far and `k` digits to come. -/
def isqrtFrom (n : Nat) : Nat → Nat → Nat
  | 0, r => r
  | k + 1, r => if (r + twoPow k) ^ 2 ≤ n then isqrtFrom n k (r + twoPow k) else isqrtFrom n k r

/-- The integer square root: the `r` with `r^2 <= n < (r+1)^2` (R187). -/
def isqrt (n : Nat) : Nat := isqrtFrom n (Nat.log2 n / 2 + 1) 0

end Sys2Proof.Machine.Exact
end

