-- ==== Sys2Proof/Machine/BitCodec.lean ====
section
/-! DEFINITION. The number formats, decode and encode (the source's BitCodec), the one rounding function and the NaN of
an invalid result: `40_formats_bitcodec.md`. -/

namespace Sys2Proof

/-- The ordinal of a precision (R57), also its type code. -/
def Precision.ordinal : Precision → Nat
  | .single => 0
  | .double => 1
  | .extended => 2

/-- `E_p`, the width of the exponent field (R90). -/
def Precision.expBits : Precision → Nat
  | .single => 8
  | .double => 11
  | .extended => 15

/-- `F_p`, the width of the fraction field (R90). -/
def Precision.fracBits : Precision → Nat
  | .single => 23
  | .double => 52
  | .extended => 63

/-- `P_p`, the precision in bits (R90). -/
def Precision.prec : Precision → Nat
  | .single => 24
  | .double => 53
  | .extended => 64

/-- `bias_p`, the exponent bias (R90). -/
def Precision.bias : Precision → Nat
  | .single => 127
  | .double => 1023
  | .extended => 16383

/-- `emax_p = bias_p` (R90). -/
def Precision.emax (p : Precision) : Int := p.bias

/-- `emin_p = 1 - bias_p` (R90). -/
def Precision.emin (p : Precision) : Int := 1 - p.bias

/-- `2^E_p - 1`, the exponent field of infinities and NaNs (R101, R102). -/
def Precision.maxExp (p : Precision) : Nat := 2 ^ p.expBits - 1

/-- The width in bits (R58), also the width's type code. -/
def Width.bits : Width → Nat
  | .w8 => 8
  | .w16 => 16
  | .w32 => 32
  | .w64 => 64

/-- `sign(v)`, the sign bit of a value (R98). -/
def Value.sign : Value → Bool
  | .zero s | .inf s | .nan s _ _ => s
  | .fin x => decide (x < 0)

/-- `val(v)`, the real value of a zero or a finite number (R99); infinities and NaNs have none and this is not asked
of them. -/
def Value.val : Value → ℚ
  | .fin x => x
  | .zero _ | .inf _ | .nan .. => 0

namespace Machine

/-- The fields of an encoding: the sign bit, the exponent field, and the fraction (SINGLE, DOUBLE; R91, R93) or the whole
64-bit significand (EXTENDED; R94). -/
structure Fields where
  sign : Bool
  exp : Nat
  sig : Nat
  deriving DecidableEq, Repr

/-- The fields of a bit pair at a precision (R91, R93, R94): the only bits that are read (R100). -/
def fields : Precision → Pair → Fields
  | .single, b => ⟨b.m.getLsbD 31, (b.m.extractLsb' 23 8).toNat, (b.m.extractLsb' 0 23).toNat⟩
  | .double, b => ⟨b.m.getLsbD 63, (b.m.extractLsb' 52 11).toNat, (b.m.extractLsb' 0 52).toNat⟩
  | .extended, b => ⟨b.es.getLsbD 15, (b.es.extractLsb' 0 15).toNat, b.m.toNat⟩

/-- Decode of SINGLE and DOUBLE (R101). -/
def decodeInterchange (p : Precision) (f : Fields) : Value :=
  if f.exp = 0 then
    if f.sig = 0 then .zero f.sign
    else .fin (Exact.signed f.sign (Exact.mul (Exact.ofNat f.sig) (Exact.pow2 (1 - p.bias - p.fracBits))))
  else if f.exp < p.maxExp then
    .fin (Exact.signed f.sign
      (Exact.mul (Exact.ofNat (2 ^ p.fracBits + f.sig)) (Exact.pow2 (f.exp - p.bias - p.fracBits))))
  else if f.sig = 0 then .inf f.sign
  else .nan f.sign (f.sig.testBit (p.fracBits - 1)) f.sig

/-- Decode of EXTENDED (R102); the encodings of R104 decode to no value. `J` is bit 63 of the significand. -/
def decodeExtended (f : Fields) : Option Value :=
  if f.exp = 0 then
    if f.sig = 0 then some (.zero f.sign)
    else if f.sig.testBit 63 then none
    else some (.fin (Exact.signed f.sign (Exact.mul (Exact.ofNat f.sig) (Exact.pow2 (-16445)))))
  else if f.exp < 0x7FFF then
    if f.sig.testBit 63 then
      some (.fin (Exact.signed f.sign (Exact.mul (Exact.ofNat f.sig) (Exact.pow2 (f.exp - 16383 - 63)))))
    else none
  else if f.sig.testBit 63 then
    if f.sig % 2 ^ 63 = 0 then some (.inf f.sign)
    else some (.nan f.sign (f.sig.testBit 62) (f.sig % 2 ^ 63))
  else none

/-- `decode_p(m, es)`: the value a bit pair denotes, or `none` for `NonCanon` (R100 to R104). -/
def decodeValue (p : Precision) (b : Pair) : Option Value :=
  match p with
  | .single | .double => some (decodeInterchange p (fields p b))
  | .extended => decodeExtended (fields p b)

/-- The bits of a pair that the precision reads, every other bit cleared (R100, R107). -/
def canonPair : Precision → Pair → Pair
  | .single, b => ⟨(b.m.setWidth 32).setWidth 64, 0#64⟩
  | .double, b => ⟨b.m, 0#64⟩
  | .extended, b => ⟨b.m, (b.es.setWidth 16).setWidth 64⟩

/-- The fields that `encode_p` writes for SINGLE and DOUBLE (R108). -/
def encodeInterchange (p : Precision) : Value → Fields
  | .zero s => ⟨s, 0, 0⟩
  | .inf s => ⟨s, p.maxExp, 0⟩
  | .nan s _ pl => ⟨s, p.maxExp, pl⟩
  | .fin x =>
    if Exact.pow2 p.emin ≤ Exact.abs x then
      ⟨decide (x < 0), (Exact.floorLog2 (Exact.abs x) + p.bias).toNat,
        (Exact.floor (Exact.mul (Exact.abs x) (Exact.pow2 (p.fracBits - Exact.floorLog2 (Exact.abs x))))).toNat
          - 2 ^ p.fracBits⟩
    else
      ⟨decide (x < 0), 0, (Exact.floor (Exact.mul (Exact.abs x) (Exact.pow2 (p.fracBits - p.emin)))).toNat⟩

/-- The fields that `encode_p` writes for EXTENDED (R109). -/
def encodeExtended : Value → Fields
  | .zero s => ⟨s, 0, 0⟩
  | .inf s => ⟨s, 0x7FFF, 2 ^ 63⟩
  | .nan s _ pl => ⟨s, 0x7FFF, 2 ^ 63 ||| pl⟩
  | .fin x =>
    if Exact.pow2 (-16382) ≤ Exact.abs x then
      ⟨decide (x < 0), (Exact.floorLog2 (Exact.abs x) + 16383).toNat,
        (Exact.floor (Exact.mul (Exact.abs x) (Exact.pow2 (63 - Exact.floorLog2 (Exact.abs x))))).toNat⟩
    else
      ⟨decide (x < 0), 0, (Exact.floor (Exact.mul (Exact.abs x) (Exact.pow2 16445))).toNat⟩

/-- The bit pair with the given fields, every other bit of both halves zero (R107). -/
def packFields : Precision → Fields → Pair
  | .single, f => ⟨(BitVec.ofBool f.sign ++ BitVec.ofNat 8 f.exp ++ BitVec.ofNat 23 f.sig).setWidth 64, 0#64⟩
  | .double, f => ⟨(BitVec.ofBool f.sign ++ BitVec.ofNat 11 f.exp ++ BitVec.ofNat 52 f.sig).setWidth 64, 0#64⟩
  | .extended, f => ⟨BitVec.ofNat 64 f.sig, (BitVec.ofBool f.sign ++ BitVec.ofNat 15 f.exp).setWidth 64⟩

/-- `encode_p(v)`, the canonical pair of a value (R107 to R109). It is meant for values representable at `p`
(`Representable`); of other values nothing is claimed. -/
def encodeValue (p : Precision) (v : Value) : Pair :=
  match p with
  | .single | .double => packFields p (encodeInterchange p v)
  | .extended => packFields p (encodeExtended v)

/-- `q` of R113, the exponent of the quantum: the weight of the last bit kept of a magnitude `a`. -/
def quantum (p : Precision) (a : ℚ) : Int := max (Exact.floorLog2 a) p.emin - (p.prec - 1)

/-- `n` of R113, the multiple of the quantum that a magnitude rounds to. -/
def roundedMultiple (p : Precision) (a : ℚ) : Nat := Exact.rne (Exact.mul a (Exact.pow2 (-quantum p a)))

/-- `y` of R113, the rounded magnitude. -/
def roundedMagnitude (p : Precision) (a : ℚ) : ℚ :=
  Exact.mul (Exact.ofNat (roundedMultiple p a)) (Exact.pow2 (quantum p a))

/-- `round_p(x, s0)`, to nearest, ties to even, with overflow to infinity and gradual underflow (R113). -/
def roundTo (p : Precision) (x : ℚ) (s0 : Bool) : Value :=
  if x = 0 then .zero s0
  else if Exact.pow2 (p.emax + 1) ≤ roundedMagnitude p (Exact.abs x) then .inf (decide (x < 0))
  else if roundedMagnitude p (Exact.abs x) = 0 then .zero (decide (x < 0))
  else .fin (Exact.signed (decide (x < 0)) (roundedMagnitude p (Exact.abs x)))

/-- An operand's encoding as `NANGEN` and `FTOI_OOR` may see it: its used bits only (R33, R250). -/
def datum (p : Precision) (b : Pair) : Operand := .float p (canonPair p b)

/-- The quiet NaN of precision `p` with the sign and the free fraction bits of the word `r`. Every quiet NaN of `p` is
one of these. -/
def quietNaN (p : Precision) (r : Word) : Value :=
  .nan (r.getLsbD 63) true (2 ^ (p.fracBits - 1) + r.toNat % 2 ^ (p.fracBits - 1))

/-- `qNaN_p` of an operation on its operands: a quiet NaN whose sign and remaining fraction bits `NANGEN` gives (R118). -/
def qNaN (o : Op) (p : Precision) (operands : List Operand) : Value := quietNaN p (Config.nangen o p operands)

/-- The pair with the integer bit of an EXTENDED encoding set as its exponent field asks, so that it is canonical. -/
def forceCanonical : Precision → Pair → Pair
  | .single, b => b
  | .double, b => b
  | .extended, b => ⟨(BitVec.ofBool (b.es.extractLsb' 0 15 != 0#15) ++ b.m.extractLsb' 0 63), b.es⟩

/-- The value with the quiet bit of a NaN set. -/
def quieten (p : Precision) : Value → Value
  | .nan s _ pl => .nan s true (pl ||| 2 ^ (p.fracBits - 1))
  | v => v

/-- A result of `TRANS` from its raw bits: any value on which `encode_p` is defined, a NaN being quiet, and every such
value comes from some bits (R177). The default is never taken: a forced pair is canonical. -/
def transValue (p : Precision) (raw : Pair) : Value :=
  quieten p ((decodeValue p (forceCanonical p raw)).getD (.zero false))

end Machine
end Sys2Proof
end

