-- ==== Sys2Proof/Machine/State.lean ====
section
/-! DEFINITION. The state of the machine, the reasons it can stop, and the state after reset. FPALU itself keeps nothing
between two requests (R20): the state holds only the two ends of its request channel (R48). -/

namespace Sys2Proof.Machine

/-- The status of a response (R81). The codes 4 to 255 are never produced, so they have no name. -/
inductive Status where
  | ok
  | unsupportedType
  | domain
  | illegalCommand
  deriving DecidableEq, Repr

/-- The kind of a result (R23). -/
inductive RKind where
  | none
  | float
  | int
  | bool
  deriving DecidableEq, Repr

/-- A response record (R23). -/
structure Response where
  status : Status
  rkind : RKind
  /-- The precision ordinal of a FLOAT, the width code of an INT, zero otherwise. -/
  rtag : BitVec 8
  /-- `R.m`. -/
  m : Word
  /-- `R.es`. -/
  es : Word
  deriving DecidableEq, Repr

/-- The state: the request channel and the responses delivered on it. No register, flag, mode, program counter or
memory stands beside them, because the hardware has none (R20, R25 to R28, R34). -/
structure State where
  /-- The words the host has put on the request channel and FPALU has not yet consumed, oldest first. -/
  inbox : List Word
  /-- The responses delivered, oldest first: one for each request answered, in the order of the requests (R48). -/
  outbox : List Response
  deriving DecidableEq, Repr

/-- The faults that stop the machine. There is none: every request, however malformed, gets a response (R62, R273),
and an error response is a next state. Nobody raises one; safe, for the spec has no stuck state (`93` section 1). -/
inductive Fault where
  deriving DecidableEq, Repr

/-- The requests the model gives no meaning. -/
inductive Refusal where
  /-- Raised by an arm of `exec` that has no meaning yet; safe. No arm raises it. -/
  | notModelled (mnemonic : String)
  /-- Raised by every operation that reads a floating operand at EXTENDED whose encoding is non-canonical, after all
  other checks: the open parameter `EXT_NONCANON`, which the spec tells a model to refuse (R104, R62 step 7, R271).
  Safe: the hardware answers something of which nothing is claimed. -/
  | extNonCanonical
  deriving DecidableEq, Repr

/-- The outcome of one step of this machine. -/
abbrev Result := Host.Outcome State Fault Refusal

/-- The machine right after reset: no request outstanding and no response delivered (R35, R290). -/
def State.reset : State where
  inbox := []
  outbox := []

end Sys2Proof.Machine
end

