-- ==== Sys2Proof/Machine/Ops.lean ====
section
/-! DEFINITION. The operations over the state: taking the next request from the channel, building and delivering a
response, and the error response, which is FPALU's only form of taking an exception (R276). There is no return from
one (R277). After them, what the host and the reset signal do to the state (R283, R291). -/

namespace Sys2Proof.Machine

/-- The code of a status (R81). -/
def Status.code : Status → BitVec 8
  | .ok => 0#8
  | .unsupportedType => 1#8
  | .domain => 2#8
  | .illegalCommand => 3#8

/-- The code of a result kind (R23). -/
def RKind.code : RKind → BitVec 2
  | .none => 0#2
  | .float => 1#2
  | .int => 2#2
  | .bool => 3#2

/-- The response packet `Q0, Q1, Q2` (R80). -/
def Response.words (r : Response) : List Word :=
  [(r.rkind.code ++ r.rtag ++ r.status.code).setWidth 64, r.m, r.es]

/-- `respond_float(p, v)` (R76). -/
def respondFloat (p : Precision) (v : Value) : Response where
  status := .ok
  rkind := .float
  rtag := BitVec.ofNat 8 p.ordinal
  m := (encodeValue p v).m
  es := (encodeValue p v).es

/-- `respond_int(w, i)` (R77). -/
def respondInt (w : Width) (i : Int) : Response where
  status := .ok
  rkind := .int
  rtag := BitVec.ofNat 8 w.bits
  m := BitVec.ofInt 64 i
  es := 0#64

/-- `respond_bool(b)` (R78). -/
def respondBool (b : Bool) : Response where
  status := .ok
  rkind := .bool
  rtag := 0#8
  m := if b then 1#64 else 0#64
  es := 0#64

/-- `respond_error(s)` (R79): the status and nothing else. -/
def respondError (e : Status) : Response where
  status := e
  rkind := .none
  rtag := 0#8
  m := 0#64
  es := 0#64

/-- Delivers a response: it stands after all those delivered before (R48). Nothing else changes (R20). -/
def State.deliver (s : State) (r : Response) : State := { s with outbox := s.outbox ++ [r] }

/-- `raise <Status>` (R13): the request ends with an error response, which saves nothing, changes no mode and moves
control nowhere (R276). -/
def raise (e : Status) (s : State) : Result := .next (s.deliver (respondError e))

/-- Takes the oldest request off the channel: its packet and the state without it, or `none` while the channel does not
hold all `8 + 3*cnt` words of one, for then no request has been issued yet (R55, R303). -/
def nextRequest (s : State) : Option (List Word × State) :=
  match s.inbox with
  | [] => none
  | w :: _ =>
    if s.inbox.length < packetLength w then none
    else some (s.inbox.take (packetLength w), { s with inbox := s.inbox.drop (packetLength w) })

/-- The answer to a packet that names no operation (R62 steps 1 to 3, R269): ILLEGAL_COMMAND whatever the reason. -/
def rejectPacket (_ : Reject) (s : State) : Result := raise .illegalCommand s

/-- The state with the words of a request put before all that waits on the channel, so that it is the next to be
fetched. -/
def State.withPacket (s : State) (ws : List Word) : State := { s with inbox := ws ++ s.inbox }

/-- The host issues words, at any time and in any number (R283): they stand after all that wait. -/
def State.hostIssue (s : State) (ws : List Word) : State := { s with inbox := s.inbox ++ ws }

/-- The host takes the oldest response, if there is one (R283). -/
def State.hostCollect (s : State) : State := { s with outbox := s.outbox.tail }

/-- The reset signal: every request outstanding is discarded and gets no response (R291); the responses delivered
before are the host's. No request causes it (R292). -/
def State.resetSignal (s : State) : State := { s with inbox := [] }

end Sys2Proof.Machine
end

