-- ==== Sys2Proof/Machine/Operands.lean ====
section
/-! DEFINITION. Reading the operands of a request, every form the formats give (R61), in the order of the checks of R62
steps 4 to 7: all precision tags, then width codes, then the values, a non-canonical one being refused. -/

namespace Sys2Proof

/-- The precision a type code names (R57). -/
def Precision.ofCode? (t : TypeCode) : Option Precision :=
  if t = 0#8 then some .single
  else if t = 1#8 then some .double
  else if t = 2#8 then some .extended
  else none

/-- The integer width a type code names (R58). -/
def Width.ofCode? (t : TypeCode) : Option Width :=
  if t = 8#8 then some .w8
  else if t = 16#8 then some .w16
  else if t = 32#8 then some .w32
  else if t = 64#8 then some .w64
  else none

namespace Machine

/-- `promote(p1, p2)`, the wider of two precisions (R130). -/
def promote (p q : Precision) : Precision := if p.ordinal ≤ q.ordinal then q else p

/-- Reads a type code as a precision, or ends the request with UNSUPPORTED_TYPE (R62 step 4). -/
def withPrecision (t : TypeCode) (s : State) (k : Precision → Result) : Result :=
  match Precision.ofCode? t with
  | some p => k p
  | none => raise .unsupportedType s

/-- Reads a type code as a width, or ends the request with UNSUPPORTED_TYPE (R62 step 5). -/
def withWidth (t : TypeCode) (s : State) (k : Width → Result) : Result :=
  match Width.ofCode? t with
  | some w => k w
  | none => raise .unsupportedType s

/-- Reads a bit pair at a precision; a non-canonical EXTENDED encoding is refused (R62 step 7, R104). -/
def withValue (p : Precision) (b : Pair) (k : Value → Result) : Result :=
  match decodeValue p b with
  | some v => k v
  | none => .refused .extNonCanonical

/-- The precisions of variadic elements beside their bit pairs, or `none` if a tag names no precision: one illegal tag
anywhere fails the request (R162). -/
def typedElems : List Elem → Option (List (Precision × Pair))
  | [] => some []
  | e :: es =>
    match Precision.ofCode? e.t, typedElems es with
    | some p, some ps => some ((p, e.v) :: ps)
    | _, _ => none

/-- The values of a sequence of data, or `none` if one is non-canonical (R162). -/
def decodeAll : List (Precision × Pair) → Option (List Value)
  | [] => some []
  | (p, b) :: ds =>
    match decodeValue p b, decodeAll ds with
    | some v, some vs => some (v :: vs)
    | _, _ => none

/-- The maximum of the precisions of a sequence that begins at `p` (R158 pass 1). -/
def maxPrecision (p : Precision) : List (Precision × Pair) → Precision
  | [] => p
  | (q, _) :: ds => maxPrecision (promote p q) ds

/-- Reads the elements of format V: every tag, or UNSUPPORTED_TYPE (R162). -/
def withElems (es : List Elem) (s : State) (k : List (Precision × Pair) → Result) : Result :=
  match typedElems es with
  | some ds => k ds
  | none => raise .unsupportedType s

/-- Reads the values of the elements, or refuses (R162). -/
def withValues (ds : List (Precision × Pair)) (k : List Value → Result) : Result :=
  match decodeAll ds with
  | some vs => k vs
  | none => .refused .extNonCanonical

/-- Answers a request: its response is delivered and the machine goes on. -/
def answer (s : State) (r : Response) : Result := .next (s.deliver r)

/-- Format U with a FLOAT result at the operand's own precision (R137). `f` is given the precision, the NaN of this
request and the value. -/
def unaryFloat (o : Op) (f : Precision → Value → Value → Value) (ta : TypeCode) (a : Pair) (s : State) : Result :=
  withPrecision ta s fun p =>
  withValue p a fun x =>
  answer s (respondFloat p (f p (qNaN o p [datum p a]) x))

/-- Format U with a BOOL result (R220). -/
def unaryBool (f : Value → Bool) (ta : TypeCode) (a : Pair) (s : State) : Result :=
  withPrecision ta s fun p =>
  withValue p a fun x =>
  answer s (respondBool (f x))

/-- Format B with a FLOAT result: both operands decoded, the working precision the wider of the two, the result at that
precision (R133). Widening changes no abstract value (R132). -/
def binaryFloat (o : Op) (f : Precision → Value → Value → Value → Value) (ta tb : TypeCode) (a b : Pair) (s : State) :
    Result :=
  withPrecision ta s fun pa =>
  withPrecision tb s fun pb =>
  withValue pa a fun x =>
  withValue pb b fun y =>
  answer s (respondFloat (promote pa pb) (f (promote pa pb) (qNaN o (promote pa pb) [datum pa a, datum pb b]) x y))

/-- Format B with a BOOL result (R228). -/
def binaryBool (f : Value → Value → Bool) (ta tb : TypeCode) (a b : Pair) (s : State) : Result :=
  withPrecision ta s fun pa =>
  withPrecision tb s fun pb =>
  withValue pa a fun x =>
  withValue pb b fun y =>
  answer s (respondBool (f x y))

/-- The operands of a variadic request in order, as `NANGEN` may see them. -/
def variadicOperands (p : Precision) (a : Pair) (ds : List (Precision × Pair)) : List Operand :=
  datum p a :: ds.map fun d => datum d.1 d.2

/-- Format V: all tags first, the working precision the maximum over the whole sequence, then the fold from left to right
with `step` at that precision (R158). With no element no step is taken and the accumulator comes back (R160). -/
def variadicFold (o : Op) (step : Precision → Value → Value → Value → Value) (ta : TypeCode) (a : Pair)
    (es : List Elem) (s : State) : Result :=
  withPrecision ta s fun pa =>
  withElems es s fun ds =>
  withValue pa a fun x =>
  withValues ds fun ys =>
  answer s (respondFloat (maxPrecision pa ds)
    (ys.foldl (step (maxPrecision pa ds) (qNaN o (maxPrecision pa ds) (variadicOperands pa a ds))) x))

end Machine
end Sys2Proof
end

