-- ==== Sys2Proof/Machine/Arithmetic.lean ====
section
/-! DEFINITION. ADD, SUB, MUL, DIV, ADD3, ADDMANY, MULMANY: `42_arithmetic.md`. The step functions are given the NaN
that this request returns where a rule says `qNaN_p`. -/

namespace Sys2Proof.Machine

/-- `neg(v)`, the value with its sign turned (R140). -/
def neg : Value → Value
  | .zero s => .zero (!s)
  | .fin x => .fin (-x)
  | .inf s => .inf (!s)
  | .nan s q pl => .nan (!s) q pl

/-- The sum of two finite values, not both zero: exact cancellation gives `+0` (R141, last case). -/
def addFinite (p : Precision) (a b : Value) : Value :=
  if Exact.add a.val b.val = 0 then .zero false else roundTo p (Exact.add a.val b.val) false

/-- `fadd_p(a, b)` (R141). -/
def fadd (p : Precision) (nan : Value) : Value → Value → Value
  | .nan .., _ => nan
  | _, .nan .. => nan
  | .inf s, .inf t => if s = t then .inf s else nan
  | .inf s, _ => .inf s
  | _, .inf t => .inf t
  | .zero s, .zero t => if s = t then .zero s else .zero false
  | a, b => addFinite p a b

/-- `fsub_p(a, b) = fadd_p(a, neg(b))` (R141). -/
def fsub (p : Precision) (nan : Value) (a b : Value) : Value := fadd p nan a (neg b)

/-- `fmul_p(a, b)`; a non-zero product is rounded once and carries the sign `r` (R142). -/
def fmul (p : Precision) (nan : Value) : Value → Value → Value
  | .nan .., _ => nan
  | _, .nan .. => nan
  | .inf _, .zero _ => nan
  | .zero _, .inf _ => nan
  | .inf s, b => .inf (s != b.sign)
  | a, .inf t => .inf (a.sign != t)
  | .zero s, b => .zero (s != b.sign)
  | a, .zero t => .zero (a.sign != t)
  | .fin x, .fin y => roundTo p (Exact.mul x y) (decide (x < 0) != decide (y < 0))

/-- `fdiv_p(a, b)`; division by zero gives a signed infinity and no error (R142, R150). -/
def fdiv (p : Precision) (nan : Value) : Value → Value → Value
  | .nan .., _ => nan
  | _, .nan .. => nan
  | .inf _, .inf _ => nan
  | .zero _, .zero _ => nan
  | .inf s, b => .inf (s != b.sign)
  | a, .inf t => .zero (a.sign != t)
  | a, .zero t => .inf (a.sign != t)
  | .zero s, b => .zero (s != b.sign)
  | .fin x, .fin y => roundTo p (Exact.div x y) (decide (x < 0) != decide (y < 0))

/-- ADD (R143). -/
def execAdd (ta tb : TypeCode) (a b : Pair) (s : State) : Result := binaryFloat .add fadd ta tb a b s

/-- SUB (R145). -/
def execSub (ta tb : TypeCode) (a b : Pair) (s : State) : Result := binaryFloat .sub fsub ta tb a b s

/-- MUL (R147). -/
def execMul (ta tb : TypeCode) (a b : Pair) (s : State) : Result := binaryFloat .mul fmul ta tb a b s

/-- DIV (R149). -/
def execDiv (ta tb : TypeCode) (a b : Pair) (s : State) : Result := binaryFloat .div fdiv ta tb a b s

/-- ADD3: `(a + b) + c`, two roundings at the widest of the three precisions (R153). -/
def execAdd3 (ta tb tc : TypeCode) (a b c : Pair) (s : State) : Result :=
  withPrecision ta s fun pa =>
  withPrecision tb s fun pb =>
  withPrecision tc s fun pc =>
  withValue pa a fun x =>
  withValue pb b fun y =>
  withValue pc c fun z =>
  let p := promote (promote pa pb) pc
  let nan := qNaN .add3 p [datum pa a, datum pb b, datum pc c]
  answer s (respondFloat p (fadd p nan (fadd p nan x y) z))

/-- ADDMANY (R159). -/
def execAddmany (ta : TypeCode) (a : Pair) (es : List Elem) (s : State) : Result :=
  variadicFold .addmany fadd ta a es s

/-- MULMANY (R161). -/
def execMulmany (ta : TypeCode) (a : Pair) (es : List Elem) (s : State) : Result :=
  variadicFold .mulmany fmul ta a es s

end Sys2Proof.Machine
end

