-- ==== Sys2Proof/Machine/Casts.lean ====
section
/-! DEFINITION. CVTFF, CVTIF, CVTFI: `46_casts.md`. -/

namespace Sys2Proof.Machine

/-- The value CVTFF returns, from precision `p` to precision `q` (R238). -/
def convert (p q : Precision) (nan : Value) (x : Value) : Value :=
  if p = q then x
  else
    match x with
    | .zero s => .zero s
    | .inf s => .inf s
    | .nan .. => nan
    | .fin u => roundTo q u false

/-- CVTFF (R238). -/
def execCvtff (ta tc : TypeCode) (a : Pair) (s : State) : Result :=
  withPrecision ta s fun p =>
  withPrecision tc s fun q =>
  withValue p a fun x =>
  answer s (respondFloat q (convert p q (qNaN .cvtff q [datum p a]) x))

/-- `sext_w(N)`: the low bits of the width, read as two's complement (R243). -/
def signedPart (w : Width) (n : Word) : Int := (n.setWidth w.bits).toInt

/-- CVTIF (R244): integer zero gives `+0`. -/
def execCvtif (ta tc : TypeCode) (n : Word) (s : State) : Result :=
  withPrecision tc s fun q =>
  withWidth ta s fun w =>
  answer s (respondFloat q (roundTo q (Exact.ofInt (signedPart w n)) false))

/-- `FTOI_OOR`: some integer of the width, the same for the same operand (R250). -/
def outOfRange (p : Precision) (w : Width) (a : Pair) : Int := signedPart w (Config.ftoiOor p w (canonPair p a))

/-- The integer CVTFI returns; the range test is made on the truncated value (R248, R249). -/
def floatToInt (p : Precision) (w : Width) (a : Pair) : Value → Int
  | .zero _ => 0
  | .fin u =>
    if -2 ^ (w.bits - 1) ≤ Exact.truncate u ∧ Exact.truncate u ≤ 2 ^ (w.bits - 1) - 1 then Exact.truncate u
    else outOfRange p w a
  | .inf _ => outOfRange p w a
  | .nan .. => outOfRange p w a

/-- CVTFI (R248). -/
def execCvtfi (ta tc : TypeCode) (a : Pair) (s : State) : Result :=
  withPrecision ta s fun p =>
  withWidth tc s fun w =>
  withValue p a fun x =>
  answer s (respondInt w (floatToInt p w a x))

end Sys2Proof.Machine
end

