-- ==== Sys2Proof/Machine/Flags.lean ====
section
/-! DEFINITION. FPALU has no condition codes and no status flags (R27). The only Booleans it computes are the answers of
the predicates, which stand here as functions of the operand values (R222 to R228), with the classes the power
function tests. Nothing keeps them. -/

namespace Sys2Proof

/-- `x = Zero(s)`, either sign (R222). -/
def Value.isZero : Value → Bool
  | .zero _ => true
  | .fin _ | .inf _ | .nan .. => false

/-- `x = Fin(1)` or `x = Fin(-1)` (R223). -/
def Value.isOne : Value → Bool
  | .fin x => decide (x = 1) || decide (x = -1)
  | .zero _ | .inf _ | .nan .. => false

/-- `x = NaN(s, q, pl)`, quiet or signalling (R224). -/
def Value.isNaN : Value → Bool
  | .nan .. => true
  | .zero _ | .fin _ | .inf _ => false

/-- A NaN whose quiet bit is 0 (R103). -/
def Value.isSignalling : Value → Bool
  | .nan _ q _ => !q
  | .zero _ | .fin _ | .inf _ => false

/-- `x = Inf(s)`, either sign (R225). -/
def Value.isInf : Value → Bool
  | .inf _ => true
  | .zero _ | .fin _ | .nan .. => false

/-- `y < 0` of a finite non-zero number or an infinity, as R179 compares it. -/
def Value.isBelowZero : Value → Bool
  | .fin x => decide (x < 0)
  | .inf s => s
  | .zero _ | .nan .. => false

/-- `y = Fin(v)` with `v` an integer (R179). -/
def Value.isInteger : Value → Bool
  | .fin x => x.den == 1
  | .zero _ | .inf _ | .nan .. => false

/-- `y = Fin(v)` with `v` an odd integer (R179). -/
def Value.isOddInteger : Value → Bool
  | .fin x => x.den == 1 && x.num % 2 == 1
  | .zero _ | .inf _ | .nan .. => false

/-- `|x| < 1` of a finite number, zero included (R179). -/
def Value.isBelowOne : Value → Bool
  | .fin x => decide (Machine.Exact.abs x < 1)
  | .zero _ => true
  | .inf _ | .nan .. => false

/-- `fgt(a, b)`: the order comparison of standard floating comparison (R228). -/
def Value.gt : Value → Value → Bool
  | .nan .., _ => false
  | _, .nan .. => false
  | .inf false, b => decide (b ≠ .inf false)
  | .inf true, _ => false
  | _, .inf false => false
  | _, .inf true => true
  | a, b => decide (b.val < a.val)

end Sys2Proof
end

