-- ==== Sys2Proof/Machine/Power.lean ====
section
/-! DEFINITION. POWI, POW, LOG, EXP, SQRT: `43_power_transcendental.md`. -/

namespace Sys2Proof.Machine

/-- The loop of R172, the bits of `n` consumed from the least significant end: `b` runs through the repeated squares of
the base and `r` collects those whose bit is set. The first argument bounds the number of rounds. -/
def powiLoop (p : Precision) (nan : Value) : Nat → Nat → Value → Value → Value
  | 0, _, _, r => r
  | k + 1, n, b, r =>
    if n = 0 then r
    else
      powiLoop p nan k (n / 2) (if n / 2 = 0 then b else fmul p nan b b)
        (if n % 2 = 1 then fmul p nan r b else r)

/-- POWI of a value to a natural exponent (R172); an exponent below `2^63` takes at most 63 rounds. -/
def fpowi (p : Precision) (nan : Value) (b : Value) (n : Nat) : Value := powiLoop p nan 64 n b (.fin 1)

/-- POWI (R172): the exponent is the whole word `N`, signed (R170), and a negative one ends with DOMAIN whatever the
base (R174), after the type check and before the base is read (R62 steps 6 and 7). -/
def execPowi (ta : TypeCode) (a : Pair) (n : Word) (s : State) : Result :=
  withPrecision ta s fun p =>
  if n.toInt < 0 then raise .domain s
  else
    withValue p a fun x =>
    answer s (respondFloat p (fpowi p (qNaN .powi p [datum p a, .int n]) x n.toInt.toNat))

/-- `fpow_p(x, y)` (R179), the cases in the order and with the numbers of the rule. -/
def fpow (p : Precision) (nan : Value) (x y : Value) : Value :=
  if y.isZero ∧ ¬x.isSignalling then .fin 1                                              -- 1
  else if x = .fin 1 ∧ ¬y.isSignalling then .fin 1                                       -- 2
  else if (y.isZero ∧ x.isSignalling) ∨ (x = .fin 1 ∧ y.isSignalling) then
    if Config.powSignalling p x y then .fin 1 else nan                                   -- 3
  else if x.isNaN ∨ y.isNaN then nan                                                     -- 4
  else if x.isZero ∧ y = .inf true then .inf false                                       -- 5
  else if x.isZero ∧ y.isBelowZero ∧ y.isOddInteger then .inf x.sign                     -- 6
  else if x.isZero ∧ y.isBelowZero then .inf false                                       -- 7
  else if x.isZero ∧ y.isOddInteger then .zero x.sign                                    -- 8
  else if x.isZero then .zero false                                                      -- 9
  else if x = .fin (-1) ∧ y.isInf then .fin 1                                            -- 10
  else if y = .inf true ∧ x.isBelowOne then .inf false                                   -- 11
  else if y = .inf true then .zero false                                                 -- 12
  else if y = .inf false ∧ x.isBelowOne then .zero false                                 -- 13
  else if y = .inf false then .inf false                                                 -- 14
  else if x = .inf true ∧ y.isBelowZero ∧ y.isOddInteger then .zero true                 -- 15
  else if x = .inf true ∧ y.isBelowZero then .zero false                                 -- 16
  else if x = .inf true ∧ y.isOddInteger then .inf true                                  -- 17
  else if x = .inf true then .inf false                                                  -- 18
  else if x = .inf false ∧ y.isBelowZero then .zero false                                -- 19
  else if x = .inf false then .inf false                                                 -- 20
  else if x.isBelowZero ∧ ¬y.isInteger then nan                                          -- 21
  else transValue p (Config.transPow p x y)                                              -- 22

/-- POW (R178). -/
def execPow (ta tb : TypeCode) (a b : Pair) (s : State) : Result := binaryFloat .pow fpow ta tb a b s

/-- `flog_p(x)` (R181). -/
def flog (p : Precision) (nan : Value) : Value → Value
  | .nan .. => nan
  | .zero _ => .inf true
  | .fin u =>
    if u = 1 then .zero false
    else if u < 0 then nan
    else transValue p (Config.transLog p (.fin u))
  | .inf true => nan
  | .inf false => .inf false

/-- LOG (R181). -/
def execLog (ta : TypeCode) (a : Pair) (s : State) : Result := unaryFloat .log flog ta a s

/-- `fexp_p(x)` (R183). -/
def fexp (p : Precision) (nan : Value) : Value → Value
  | .nan .. => nan
  | .zero _ => .fin 1
  | .inf true => .zero false
  | .inf false => .inf false
  | .fin u => transValue p (Config.transExp p (.fin u))

/-- EXP (R183). -/
def execExp (ta : TypeCode) (a : Pair) (s : State) : Result := unaryFloat .exp fexp ta a s

/-- `k` of R187: half the binary exponent of `u`, rounded down. -/
def sqrtExponent (u : ℚ) : Int := Exact.floorLog2 u / 2

/-- `t` of R187: `u` scaled by a power of four so that its root has `P_p` bits before the point. -/
def sqrtScaled (p : Precision) (u : ℚ) : ℚ :=
  Exact.mul u (Exact.pow2 (-2 * (sqrtExponent u - (p.prec - 1))))

/-- `n` of R187: the integer nearest to the root of `t`. -/
def sqrtDigits (p : Precision) (u : ℚ) : Nat :=
  let n0 := Exact.isqrt (Exact.floor (sqrtScaled p u)).toNat
  if sqrtScaled p u < mkRat (4 * n0 ^ 2 + 4 * n0 + 1) 4 then n0 else n0 + 1

/-- `fsqrt_p(x)`, correctly rounded (R186, R187). -/
def fsqrt (p : Precision) (nan : Value) : Value → Value
  | .nan .. => nan
  | .zero s => .zero s
  | .inf true => nan
  | .inf false => .inf false
  | .fin u =>
    if u < 0 then nan
    else .fin (Exact.mul (Exact.ofNat (sqrtDigits p u)) (Exact.pow2 (sqrtExponent u - (p.prec - 1))))

/-- SQRT (R186). -/
def execSqrt (ta : TypeCode) (a : Pair) (s : State) : Result := unaryFloat .sqrt fsqrt ta a s

end Sys2Proof.Machine
end

