-- ==== Sys2Proof/Machine/Predicates.lean ====
section
/-! DEFINITION. ISZERO, ISONE, ISNAN, ISINF, ISNEG, ISGT: `45_predicates.md`. -/

namespace Sys2Proof.Machine

/-- ISZERO (R222). -/
def execIszero (ta : TypeCode) (a : Pair) (s : State) : Result := unaryBool Value.isZero ta a s

/-- ISONE (R223). -/
def execIsone (ta : TypeCode) (a : Pair) (s : State) : Result := unaryBool Value.isOne ta a s

/-- ISNAN (R224). -/
def execIsnan (ta : TypeCode) (a : Pair) (s : State) : Result := unaryBool Value.isNaN ta a s

/-- ISINF (R225). -/
def execIsinf (ta : TypeCode) (a : Pair) (s : State) : Result := unaryBool Value.isInf ta a s

/-- ISNEG: the sign bit (R226). -/
def execIsneg (ta : TypeCode) (a : Pair) (s : State) : Result := unaryBool Value.sign ta a s

/-- ISGT (R228). -/
def execIsgt (ta tb : TypeCode) (a b : Pair) (s : State) : Result := binaryBool Value.gt ta tb a b s

end Sys2Proof.Machine
end

