-- ==== Sys2Proof/Machine/Rounding.lean ====
section
/-! DEFINITION. ROUND, TRUNC, CEIL, FLOOR, ABS, COPYSIGN: `44_unary_rounding_sign.md`. -/

namespace Sys2Proof.Machine

/-- The frame of the four roundings to an integral value, `I` the operation's integer function (R200). -/
def integral (I : ℚ → Int) (_ : Precision) (nan : Value) : Value → Value
  | .nan .. => nan
  | .zero s => .zero s
  | .inf s => .inf s
  | .fin u => if I u = 0 then .zero (decide (u < 0)) else .fin (Exact.ofInt (I u))

/-- `sgn(u) * floor(|u| + 1/2)`: halfway cases away from zero (R203). -/
def roundAway (u : ℚ) : Int :=
  if u < 0 then -Exact.floor (Exact.add (Exact.abs u) (mkRat 1 2)) else Exact.floor (Exact.add u (mkRat 1 2))

/-- ROUND (R203). -/
def execRound (ta : TypeCode) (a : Pair) (s : State) : Result := unaryFloat .round (integral roundAway) ta a s

/-- TRUNC (R204). -/
def execTrunc (ta : TypeCode) (a : Pair) (s : State) : Result := unaryFloat .trunc (integral Exact.truncate) ta a s

/-- CEIL (R205). -/
def execCeil (ta : TypeCode) (a : Pair) (s : State) : Result := unaryFloat .ceil (integral Exact.ceil) ta a s

/-- FLOOR (R206). -/
def execFloor (ta : TypeCode) (a : Pair) (s : State) : Result := unaryFloat .floor (integral Exact.floor) ta a s

/-- The value with the sign bit `t`; a NaN keeps its quiet bit and its fraction (R210). -/
def withSign (t : Bool) : Value → Value
  | .zero _ => .zero t
  | .fin u => .fin (Exact.signed t (Exact.abs u))
  | .inf _ => .inf t
  | .nan _ q pl => .nan t q pl

/-- ABS: the sign bit cleared, no arithmetic (R208). -/
def execAbs (ta : TypeCode) (a : Pair) (s : State) : Result :=
  unaryFloat .abs (fun _ _ x => withSign false x) ta a s

/-- COPYSIGN: both operands read at the one precision `ta` (R210). -/
def execCopysign (ta : TypeCode) (a b : Pair) (s : State) : Result :=
  withPrecision ta s fun p =>
  withValue p a fun x =>
  withValue p b fun y =>
  answer s (respondFloat p (withSign y.sign x))

end Sys2Proof.Machine
end

