-- ==== Sys2Proof/Machine/Dispatch.lean ====
section
/-! DEFINITION. The dispatch of R62 step 8: one arm for each of the 27 operations. -/

namespace Sys2Proof.Machine

def exec (i : Instr) (s : State) : Host.Outcome State Fault Refusal :=
  match i with
  | .add ta tb a b => Sys2Proof.Machine.execAdd ta tb a b s
  | .sub ta tb a b => Sys2Proof.Machine.execSub ta tb a b s
  | .mul ta tb a b => Sys2Proof.Machine.execMul ta tb a b s
  | .div ta tb a b => Sys2Proof.Machine.execDiv ta tb a b s
  | .add3 ta tb tc a b c => Sys2Proof.Machine.execAdd3 ta tb tc a b c s
  | .addmany ta a es => Sys2Proof.Machine.execAddmany ta a es s
  | .mulmany ta a es => Sys2Proof.Machine.execMulmany ta a es s
  | .powi ta a n => Sys2Proof.Machine.execPowi ta a n s
  | .pow ta tb a b => Sys2Proof.Machine.execPow ta tb a b s
  | .log ta a => Sys2Proof.Machine.execLog ta a s
  | .exp ta a => Sys2Proof.Machine.execExp ta a s
  | .sqrt ta a => Sys2Proof.Machine.execSqrt ta a s
  | .round ta a => Sys2Proof.Machine.execRound ta a s
  | .trunc ta a => Sys2Proof.Machine.execTrunc ta a s
  | .ceil ta a => Sys2Proof.Machine.execCeil ta a s
  | .floor ta a => Sys2Proof.Machine.execFloor ta a s
  | .abs ta a => Sys2Proof.Machine.execAbs ta a s
  | .copysign ta a b => Sys2Proof.Machine.execCopysign ta a b s
  | .iszero ta a => Sys2Proof.Machine.execIszero ta a s
  | .isone ta a => Sys2Proof.Machine.execIsone ta a s
  | .isnan ta a => Sys2Proof.Machine.execIsnan ta a s
  | .isinf ta a => Sys2Proof.Machine.execIsinf ta a s
  | .isneg ta a => Sys2Proof.Machine.execIsneg ta a s
  | .isgt ta tb a b => Sys2Proof.Machine.execIsgt ta tb a b s
  | .cvtff ta tc a => Sys2Proof.Machine.execCvtff ta tc a s
  | .cvtif ta tc n => Sys2Proof.Machine.execCvtif ta tc n s
  | .cvtfi ta tc a => Sys2Proof.Machine.execCvtfi ta tc a s

end Sys2Proof.Machine
end

