-- ==== Sys2Proof/Machine/Step.lean ====
section
/-! DEFINITION. One step of the machine: one transaction (R19, R21). -/

namespace Sys2Proof.Machine

/-- Answers the oldest request on the channel; a packet that names no operation gets its error response, and with no
whole packet on the channel FPALU is idle (R284). -/
def step (s : State) : Host.Outcome State Fault Refusal :=
  match nextRequest s with
  | none => .next s
  | some (ws, s') =>
    match decode ws with
    | .error r => rejectPacket r s'
    | .ok i => exec i s'

/-- The state with the request of the operation map's numbering put first on the channel, so that the next step
answers it: the only way a request comes to FPALU is that its host issues it (log entry 2). -/
def State.withFetchWord (s : State) (nbits w : Nat) : State := s.withPacket (tableWords nbits w)

end Sys2Proof.Machine
end

