-- ==== Sys2Proof/Safety.lean ====
section
/-! DEFINITION. The terms in which claims about the machine are made: representable numbers and encodable values, the
bit patterns the spec names, which requests are answered and with what, lawful responses, and the invariant of the
state. Each is written from the spec's own words, apart from the functions of the machine. -/

namespace Sys2Proof

/-- `Rep_p`, the finite non-zero numbers representable at `p`: normal, or subnormal (R106). -/
def Representable (p : Precision) (x : ℚ) : Prop :=
  ∃ (s : Bool) (n : Nat) (q : Int),
    x = (if s then -1 else 1) * n * 2 ^ q ∧
    ((2 ^ (p.prec - 1) ≤ n ∧ n < 2 ^ p.prec ∧ p.emin - (p.prec - 1) ≤ q ∧ q ≤ p.emax - (p.prec - 1)) ∨
      (0 < n ∧ n < 2 ^ (p.prec - 1) ∧ q = p.emin - (p.prec - 1)))

/-- The values on which `encode_p` is defined (R107): of a NaN, the fraction is not zero, fits its field and holds the
quiet bit (R101, R102, R108). -/
def Value.Encodable (p : Precision) : Value → Prop
  | .zero _ | .inf _ => True
  | .fin x => Representable p x
  | .nan _ q pl => 0 < pl ∧ pl < 2 ^ p.fracBits ∧ q = pl.testBit (p.fracBits - 1)

/-- A pair that, read at EXTENDED, is one of the encodings of R104: pseudo-denormal, unnormal, pseudo-infinity or
pseudo-NaN. -/
def Pair.nonCanonical (b : Pair) : Bool :=
  let e := (b.es.extractLsb' 0 15).toNat
  let j := b.m.getLsbD 63
  (e == 0 && j) || (decide (0 < e ∧ e < 0x7FFF) && !j) || (e == 0x7FFF && !j)

/-- The bits that the precision does not use are zero (R107). -/
def Pair.unusedZero (b : Pair) : Precision → Bool
  | .single => decide (b.m.toNat < 2 ^ 32) && b.es == 0#64
  | .double => b.es == 0#64
  | .extended => decide (b.es.toNat < 2 ^ 16)

/-- The bit pattern that R118 asks of a NaN result, unused bits included. -/
def Pair.isQuietNaN (b : Pair) : Precision → Bool
  | .single => b.m.extractLsb' 22 9 == 0x1FF#9 && b.m.extractLsb' 32 32 == 0#32 && b.es == 0#64
  | .double => b.m.extractLsb' 51 12 == 0xFFF#12 && b.es == 0#64
  | .extended =>
    b.es.extractLsb' 0 15 == 0x7FFF#15 && b.m.extractLsb' 62 2 == 0b11#2 && b.es.extractLsb' 16 48 == 0#48

/-- The greater of two type codes as unsigned numbers. -/
def TypeCode.wider (s t : TypeCode) : TypeCode := if s.toNat ≤ t.toNat then t else s

/-- The floating operands a request reads, each with the type code it is read by (R24, R61). -/
def Instr.data : Instr → List (TypeCode × Pair)
  | .add ta tb a b | .sub ta tb a b | .mul ta tb a b | .div ta tb a b | .pow ta tb a b | .isgt ta tb a b =>
    [(ta, a), (tb, b)]
  | .add3 ta tb tc a b c => [(ta, a), (tb, b), (tc, c)]
  | .addmany ta a es | .mulmany ta a es => (ta, a) :: es.map fun e => (e.t, e.v)
  | .powi ta a _ | .log ta a | .exp ta a | .sqrt ta a | .round ta a | .trunc ta a | .ceil ta a | .floor ta a
  | .abs ta a | .iszero ta a | .isone ta a | .isnan ta a | .isinf ta a | .isneg ta a => [(ta, a)]
  | .copysign ta a b => [(ta, a), (ta, b)]
  | .cvtff ta _ a | .cvtfi ta _ a => [(ta, a)]
  | .cvtif .. => []

/-- The request reads an EXTENDED operand whose encoding is non-canonical (R62 step 7). -/
def Instr.readsNonCanonical (i : Instr) : Bool := i.data.any fun d => d.1 == 2#8 && d.2.nonCanonical

/-- The request is a POWI whose exponent is negative (R62 step 6). -/
def Instr.negativeExponent : Instr → Bool
  | .powi _ _ n => n.getLsbD 63
  | .add .. | .sub .. | .mul .. | .div .. | .add3 .. | .addmany .. | .mulmany .. | .pow .. | .log .. | .exp ..
  | .sqrt .. | .round .. | .trunc .. | .ceil .. | .floor .. | .abs .. | .copysign .. | .iszero .. | .isone ..
  | .isnan .. | .isinf .. | .isneg .. | .isgt .. | .cvtff .. | .cvtif .. | .cvtfi .. => false

/-- The request passes every check of R62, so that its operation's rule is executed. -/
def Instr.executes (i : Instr) : Bool := i.typesLegal && !i.negativeExponent && !i.readsNonCanonical

/-- The kind of result of each operation (R24, last column). -/
def Instr.resultKind : Instr → Machine.RKind
  | .add .. | .sub .. | .mul .. | .div .. | .add3 .. | .addmany .. | .mulmany .. | .powi .. | .pow .. | .log ..
  | .exp .. | .sqrt .. | .round .. | .trunc .. | .ceil .. | .floor .. | .abs .. | .copysign .. | .cvtff ..
  | .cvtif .. => .float
  | .iszero .. | .isone .. | .isnan .. | .isinf .. | .isneg .. | .isgt .. => .bool
  | .cvtfi .. => .int

/-- The result tag of each operation (R24, last column; R23): the precision or the width of the result, 0 for a
Boolean. -/
def Instr.resultTag : Instr → TypeCode
  | .add ta tb _ _ | .sub ta tb _ _ | .mul ta tb _ _ | .div ta tb _ _ | .pow ta tb _ _ => ta.wider tb
  | .add3 ta tb tc _ _ _ => (ta.wider tb).wider tc
  | .addmany ta _ es | .mulmany ta _ es => es.foldl (fun t e => TypeCode.wider t e.t) ta
  | .powi ta _ _ | .log ta _ | .exp ta _ | .sqrt ta _ | .round ta _ | .trunc ta _ | .ceil ta _ | .floor ta _
  | .abs ta _ | .copysign ta _ _ => ta
  | .iszero .. | .isone .. | .isnan .. | .isinf .. | .isneg .. | .isgt .. => 0#8
  | .cvtff _ tc _ | .cvtif _ tc _ | .cvtfi _ tc _ => tc

/-- The value with the sign bit turned, for the second operand of a subtraction (R140). -/
def Value.Negates : Value → Value → Prop
  | .zero s, w => w = .zero (!s)
  | .fin x, w => w = .fin (-x)
  | .inf s, w => w = .inf (!s)
  | .nan s q pl, w => w = .nan (!s) q pl

/-- `y` is an odd integer (R179). -/
def Value.OddInteger (y : Value) : Prop := ∃ k : ℤ, y = .fin (2 * k + 1)

/-- `y < 0`, of a finite number or an infinity (R179). -/
def Value.Below (y : Value) : Prop := y = .inf true ∨ ∃ v : ℚ, y = .fin v ∧ v < 0

/-- A signalling NaN (R103). -/
def Value.Signalling (x : Value) : Prop := ∃ s pl, x = .nan s false pl

/-- `|x| < 1` (R179). -/
def Value.InsideUnit (x : Value) : Prop := x.isZero ∨ ∃ u : ℚ, x = .fin u ∧ |u| < 1

/-- The bit pair with the bits that its precision does not use cleared; as it is if the code names no precision
(R65, R100). -/
def Pair.usedOnly (t : TypeCode) (b : Pair) : Pair :=
  if t = 0#8 then ⟨b.m &&& 0xFFFFFFFF#64, 0#64⟩
  else if t = 1#8 then ⟨b.m, 0#64⟩
  else if t = 2#8 then ⟨b.m, b.es &&& 0xFFFF#64⟩
  else b

/-- The integer operand with the bits above its width cleared; as it is if the code names no width (R243). -/
def integerUsedOnly (t : TypeCode) (n : Word) : Word :=
  if t = 8#8 then n &&& 0xFF#64
  else if t = 16#8 then n &&& 0xFFFF#64
  else if t = 32#8 then n &&& 0xFFFFFFFF#64
  else n

/-- The request with every unused bit of the slots it reads cleared (R33, R65). -/
def Instr.usedOnly : Instr → Instr
  | .add ta tb a b => .add ta tb (a.usedOnly ta) (b.usedOnly tb)
  | .sub ta tb a b => .sub ta tb (a.usedOnly ta) (b.usedOnly tb)
  | .mul ta tb a b => .mul ta tb (a.usedOnly ta) (b.usedOnly tb)
  | .div ta tb a b => .div ta tb (a.usedOnly ta) (b.usedOnly tb)
  | .add3 ta tb tc a b c => .add3 ta tb tc (a.usedOnly ta) (b.usedOnly tb) (c.usedOnly tc)
  | .addmany ta a es => .addmany ta (a.usedOnly ta) (es.map fun e => ⟨e.t, e.v.usedOnly e.t⟩)
  | .mulmany ta a es => .mulmany ta (a.usedOnly ta) (es.map fun e => ⟨e.t, e.v.usedOnly e.t⟩)
  | .powi ta a n => .powi ta (a.usedOnly ta) n
  | .pow ta tb a b => .pow ta tb (a.usedOnly ta) (b.usedOnly tb)
  | .log ta a => .log ta (a.usedOnly ta)
  | .exp ta a => .exp ta (a.usedOnly ta)
  | .sqrt ta a => .sqrt ta (a.usedOnly ta)
  | .round ta a => .round ta (a.usedOnly ta)
  | .trunc ta a => .trunc ta (a.usedOnly ta)
  | .ceil ta a => .ceil ta (a.usedOnly ta)
  | .floor ta a => .floor ta (a.usedOnly ta)
  | .abs ta a => .abs ta (a.usedOnly ta)
  | .copysign ta a b => .copysign ta (a.usedOnly ta) (b.usedOnly ta)
  | .iszero ta a => .iszero ta (a.usedOnly ta)
  | .isone ta a => .isone ta (a.usedOnly ta)
  | .isnan ta a => .isnan ta (a.usedOnly ta)
  | .isinf ta a => .isinf ta (a.usedOnly ta)
  | .isneg ta a => .isneg ta (a.usedOnly ta)
  | .isgt ta tb a b => .isgt ta tb (a.usedOnly ta) (b.usedOnly tb)
  | .cvtff ta tc a => .cvtff ta tc (a.usedOnly ta)
  | .cvtif ta tc n => .cvtif ta tc (integerUsedOnly ta n)
  | .cvtfi ta tc a => .cvtfi ta tc (a.usedOnly ta)

/-- The bits of the command word that a format reads (R56, R61); `rsv`, which must be zero, is not among them. -/
def Format.commandMask : Format → Word
  | .u | .bs | .v | .pi => 0x0000FFFF0000FFFF#64
  | .b => 0x0000FFFF00FFFFFF#64
  | .t => 0x0000FFFFFFFFFFFF#64
  | .cff | .cif | .cfi => 0x0000FFFFFF00FFFF#64

/-- The tag words of the elements with their bits 63:8 cleared (R64). -/
def clearTags : List Word → List Word
  | t :: m :: es :: rest => (t &&& 0xFF#64) :: m :: es :: clearTags rest
  | ws => ws

/-- A packet with every field zero that the format does not read (R61, R65). -/
def Format.clearUnread (f : Format) : List Word → List Word
  | w :: am :: aes :: bm :: bes :: cm :: ces :: n :: rest =>
    let readsA := f ≠ .cif
    let readsB := f = .b ∨ f = .bs ∨ f = .t
    let readsC := f = .t
    let readsN := f = .pi ∨ f = .cif
    (w &&& f.commandMask) ::
      (if readsA then am else 0#64) :: (if readsA then aes else 0#64) ::
      (if readsB then bm else 0#64) :: (if readsB then bes else 0#64) ::
      (if readsC then cm else 0#64) :: (if readsC then ces else 0#64) ::
      (if readsN then n else 0#64) :: clearTags rest
  | ws => ws

/-- The 27 operation codes, as the operation map lists them (R60). -/
def operationCodes : List (BitVec 8) :=
  [0x10#8, 0x11#8, 0x12#8, 0x13#8, 0x14#8, 0x15#8, 0x16#8, 0x20#8, 0x21#8, 0x22#8, 0x23#8, 0x24#8,
   0x30#8, 0x31#8, 0x32#8, 0x33#8, 0x34#8, 0x35#8, 0x40#8, 0x41#8, 0x42#8, 0x43#8, 0x44#8, 0x45#8,
   0x50#8, 0x51#8, 0x52#8]

/-- The command word is malformed (R269). -/
def commandIllegal (w : Word) : Bool :=
  w.extractLsb' 48 16 != 0#16 || !operationCodes.contains (w.extractLsb' 0 8) ||
    (w.extractLsb' 32 16 != 0#16 && w.extractLsb' 0 8 != 0x15#8 && w.extractLsb' 0 8 != 0x16#8)

/-- The words are one packet (R55). -/
def IsPacket (ws : List Word) : Prop := ∃ w rest, ws = w :: rest ∧ ws.length = 8 + 3 * (w.extractLsb' 32 16).toNat

namespace Machine

/-- A response that has the form of R76 to R79: an error carries nothing; a FLOAT is a canonical encoding at the
precision its tag names; an INT is sign-extended from its width; a BOOL is 0 or 1. -/
def Response.Lawful (r : Response) : Prop :=
  match r.status, r.rkind with
  | .ok, .float =>
    ∃ p : Precision, r.rtag = BitVec.ofNat 8 p.ordinal ∧ Pair.unusedZero ⟨r.m, r.es⟩ p = true ∧
      (p = .extended → Pair.nonCanonical ⟨r.m, r.es⟩ = false)
  | .ok, .int =>
    ∃ w : Width, r.rtag = BitVec.ofNat 8 w.bits ∧ -2 ^ (w.bits - 1) ≤ r.m.toInt ∧ r.m.toInt < 2 ^ (w.bits - 1) ∧
      r.es = 0#64
  | .ok, .bool => r.rtag = 0#8 ∧ (r.m = 0#64 ∨ r.m = 1#64) ∧ r.es = 0#64
  | .ok, .none => False
  | .unsupportedType, k | .domain, k | .illegalCommand, k => k = .none ∧ r.rtag = 0#8 ∧ r.m = 0#64 ∧ r.es = 0#64

/-- The invariant of the state: every response delivered is lawful. The request channel may hold any words. -/
def State.Inv (s : State) : Prop := ∀ r ∈ s.outbox, r.Lawful

/-- Two responses that are equal but for the free bits of a NaN result (R118, R144). -/
def Response.sameButNaN (r r' : Response) : Prop :=
  r = r' ∨
    (r.status = .ok ∧ r'.status = .ok ∧ r.rkind = .float ∧ r'.rkind = .float ∧ r.rtag = r'.rtag ∧
      ∃ p : Precision, r.rtag = BitVec.ofNat 8 p.ordinal ∧
        Pair.isQuietNaN ⟨r.m, r.es⟩ p = true ∧ Pair.isQuietNaN ⟨r'.m, r'.es⟩ p = true)

/-- The slot with type code `t` and bit pair `b` holds the value `x` at precision `p`: the code is the ordinal of `p`, and
the bits, read at `p`, denote `x` (R57, R100). No slot holds a non-canonical encoding. -/
def Reads (t : TypeCode) (b : Pair) (p : Precision) (x : Value) : Prop :=
  t.toNat = p.ordinal ∧ decodeValue p b = some x

/-- A table whose cases are tried from top to bottom (R140, R179): the result is right for the first case whose condition
holds, and some condition does hold. -/
def FirstMatch : List (Prop × Prop) → Prop
  | [] => False
  | (condition, result) :: rest => condition ∧ result ∨ ¬condition ∧ FirstMatch rest

/-- `v` is one of the values that `qNaN_p` may be: a NaN of `p` whose quiet bit is set (R118). -/
def QuietNaN (p : Precision) (v : Value) : Prop :=
  ∃ s pl, v = .nan s true pl ∧ 2 ^ (p.fracBits - 1) ≤ pl ∧ pl < 2 ^ p.fracBits

/-- `v` is a sum of `x` and `y` at `p`: the table of `fadd_p` (R141). -/
def SumRule (p : Precision) (x y v : Value) : Prop :=
  FirstMatch [
    (x.isNaN ∨ y.isNaN, QuietNaN p v),
    (x.isInf ∧ y.isInf, x = y ∧ v = x ∨ x ≠ y ∧ QuietNaN p v),
    (x.isInf, v = x),
    (y.isInf, v = y),
    (x.isZero ∧ y.isZero, x = y ∧ v = x ∨ x ≠ y ∧ v = .zero false),
    (x.val + y.val = 0, v = .zero false),
    (True, v = roundTo p (x.val + y.val) false)]

/-- `v` is a product of `x` and `y` at `p`: the table of `fmul_p` (R142). -/
def ProductRule (p : Precision) (x y v : Value) : Prop :=
  FirstMatch [
    (x.isNaN ∨ y.isNaN, QuietNaN p v),
    (x.isInf ∧ y.isZero ∨ x.isZero ∧ y.isInf, QuietNaN p v),
    (x.isInf ∨ y.isInf, v = .inf (x.sign ^^ y.sign)),
    (x.isZero ∨ y.isZero, v = .zero (x.sign ^^ y.sign)),
    (True, v = roundTo p (x.val * y.val) (x.sign ^^ y.sign))]

/-- `v` is a quotient of `x` by `y` at `p`: the table of `fdiv_p` (R142). -/
def QuotientRule (p : Precision) (x y v : Value) : Prop :=
  FirstMatch [
    (x.isNaN ∨ y.isNaN, QuietNaN p v),
    (x.isInf ∧ y.isInf, QuietNaN p v),
    (x.isZero ∧ y.isZero, QuietNaN p v),
    (x.isInf, v = .inf (x.sign ^^ y.sign)),
    (y.isInf, v = .zero (x.sign ^^ y.sign)),
    (y.isZero, v = .inf (x.sign ^^ y.sign)),
    (x.isZero, v = .zero (x.sign ^^ y.sign)),
    (True, v = roundTo p (x.val / y.val) (x.sign ^^ y.sign))]

/-- `v` comes from the accumulator `x` by the steps of a fold over the values, from left to right (R158 pass 2). -/
def FoldRule (stepRule : Value → Value → Value → Prop) : Value → List Value → Value → Prop
  | x, [], v => v = x
  | x, y :: ys, v => ∃ u, stepRule x y u ∧ FoldRule stepRule u ys v

/-- The while loop of R172: with the count `n`, the running square `b` and the collected product `r`, the result is `v`.
The first argument is a bound on the number of rounds. -/
def SquaringRule (p : Precision) : Nat → Nat → Value → Value → Value → Prop
  | 0, n, _, r, v => n = 0 ∧ v = r
  | k + 1, n, b, r, v =>
    n = 0 ∧ v = r ∨
    n ≠ 0 ∧ ∃ r' b', (n % 2 = 1 ∧ ProductRule p r b r' ∨ n % 2 = 0 ∧ r' = r) ∧
      (n / 2 = 0 ∨ ProductRule p b b b') ∧ SquaringRule p k (n / 2) b' r' v

/-- `v` is `x` to the power `y` at `p`: the table of `fpow_p` (R179), case by case. Where it stands after a case on a NaN
or a zero, `y > 0` is said by the failure of `y < 0`. -/
def PowerRule (p : Precision) (x y v : Value) : Prop :=
  FirstMatch [
    (y.isZero ∧ ¬x.Signalling, v = .fin 1),
    (x = .fin 1 ∧ ¬y.Signalling, v = .fin 1),
    (x.Signalling ∧ y.isZero ∨ y.Signalling ∧ x = .fin 1, v = .fin 1 ∨ QuietNaN p v),
    (x.isNaN ∨ y.isNaN, QuietNaN p v),
    (x.isZero ∧ y = .inf true, v = .inf false),
    (x.isZero ∧ y.Below ∧ y.OddInteger, v = .inf x.sign),
    (x.isZero ∧ y.Below, v = .inf false),
    (x.isZero ∧ y.OddInteger, v = .zero x.sign),
    (x.isZero, v = .zero false),
    (x = .fin (-1) ∧ y.isInf, v = .fin 1),
    (y = .inf true ∧ x.InsideUnit, v = .inf false),
    (y = .inf true, v = .zero false),
    (y = .inf false ∧ x.InsideUnit, v = .zero false),
    (y = .inf false, v = .inf false),
    (x = .inf true ∧ y.Below ∧ y.OddInteger, v = .zero true),
    (x = .inf true ∧ y.Below, v = .zero false),
    (x = .inf true ∧ y.OddInteger, v = .inf true),
    (x = .inf true, v = .inf false),
    (x = .inf false ∧ y.Below, v = .zero false),
    (x = .inf false, v = .inf false),
    (x.val < 0 ∧ ¬∃ k : ℤ, y = .fin k, QuietNaN p v),
    (True, v = transValue p (Config.transPow p x y))]

/-- `v` is the integral value that the integer function `I` gives for `x` at `p`: the table of R200. -/
def IntegralRule (I : ℚ → ℤ) (p : Precision) (x v : Value) : Prop :=
  FirstMatch [
    (x.isNaN, QuietNaN p v),
    (x.isZero ∨ x.isInf, v = x),
    (I x.val = 0, v = .zero x.sign),
    (True, v = .fin (I x.val))]

/-- The decoding of SINGLE and DOUBLE (R101), in a format with `F` fraction bits, the bias `bias` and the greatest
exponent field `emax`: sign bit `s`, exponent field `e` and fraction field `f` denote `v`. -/
def InterchangeRule (F bias emax : ℕ) (s : Bool) (e f : ℕ) (v : Value) : Prop :=
  FirstMatch [
    (e = 0 ∧ f = 0, v = .zero s),
    (e = 0, v = .fin ((-1) ^ s.toNat * f * 2 ^ (1 - bias - F : ℤ))),
    (e < emax, v = .fin ((-1) ^ s.toNat * (2 ^ F + f) * 2 ^ (e - bias - F : ℤ))),
    (f = 0, v = .inf s),
    (True, v = .nan s (f.testBit (F - 1)) f)]

/-- The decoding of EXTENDED (R102, R104): sign bit `s`, exponent field `e` and the 64 bits of the significand, the
integer bit `j` and the fraction `f`, denote `v`, or no value. -/
def ExtendedRule (s : Bool) (e : ℕ) (j : Bool) (f : ℕ) (v : Option Value) : Prop :=
  FirstMatch [
    (e = 0 ∧ j = true, v = none),
    (e = 0 ∧ f = 0, v = some (.zero s)),
    (e = 0, v = some (.fin ((-1) ^ s.toNat * f * 2 ^ (-16445 : ℤ)))),
    (j = false, v = none),
    (e < 0x7FFF, v = some (.fin ((-1) ^ s.toNat * (2 ^ 63 + f) * 2 ^ (e - 16383 - 63 : ℤ)))),
    (f = 0, v = some (.inf s)),
    (True, v = some (.nan s (f.testBit 62) f))]

/-- Halfway cases away from zero: the integer function of ROUND (R203). -/
def roundHalfAway (u : ℚ) : ℤ := if u < 0 then -⌊|u| + 1 / 2⌋ else ⌊|u| + 1 / 2⌋

/-- Toward zero: the integer function of TRUNC (R204), and the truncation of CVTFI (R248). -/
def towardZero (u : ℚ) : ℤ := if u < 0 then -⌊|u|⌋ else ⌊|u|⌋

/-- `n` is an integer nearest to `t`, and the even one of the two on a tie (R113). -/
def NearestEven (t : ℚ) (n : ℤ) : Prop := |t - n| < 1 / 2 ∨ |t - n| = 1 / 2 ∧ n % 2 = 0

/-- A response that is a quiet NaN of precision `p` (R76, R118). -/
def Response.IsQuietNaN (r : Response) (p : Precision) : Prop :=
  r.status = .ok ∧ r.rkind = .float ∧ r.rtag = BitVec.ofNat 8 p.ordinal ∧ Pair.isQuietNaN ⟨r.m, r.es⟩ p = true

/-- The state after `n` steps, if every step goes on. -/
def runSteps : Nat → State → Option State
  | 0, s => some s
  | n + 1, s =>
    match step s with
    | .next t => runSteps n t
    | .fault _ => none
    | .refused _ => none

/-- A safe request: the machine answers it, so the run goes on. A host that keeps the duty of R283, never to send a
non-canonical EXTENDED operand, issues only safe requests. -/
def SafeRequest (i : Instr) : Prop := ∀ s, ∃ r, exec i s = .next (s.deliver r)

/-- A safe step: the machine goes on. -/
def SafeStep (s : State) : Prop := ∃ t, step s = .next t

end Machine
end Sys2Proof
end

