-- ==== Sys2Proof/Certificates/Slice0/Obligations.lean ====
section
/-! DEFINITION. The statements about the machine, in the order of the spec's files: the channel and its state, the
packet, the checks, the codec and the rounding, then the operations family by family. -/

section
open Sys2Proof Sys2Proof.Machine

/-! ## The state and the channel -/

/-- After reset nothing waits on the channel, nothing has been delivered, and the invariant holds. That the channel is
empty is the model's choice (log entry 1): the spec gives FPALU no state (R20, R35). -/
def Obligations.ResetHoldsNothing : Prop :=
  State.reset.inbox = [] ∧ State.reset.outbox = [] ∧ State.reset.Inv

/-- R76 to R79, R107: whatever stands on the channel, a step delivers only lawful responses, so that the invariant is
kept from every state that has it. -/
def Obligations.EveryStepKeepsTheInvariant : Prop :=
  ∀ s t, s.Inv → step s = .next t → t.Inv

/-- R62 step 8, R21: with the words of a request at the head of the channel, a step executes the request that they decode
to, in the state from which those words are gone. -/
def Obligations.StepRunsTheDecodedRequest : Prop :=
  ∀ (s : State) (ws rest : List Word) (i : Instr),
    IsPacket ws → s.inbox = ws ++ rest → decode ws = .ok i → step s = exec i { s with inbox := rest }

/-- R284, R303: while the channel does not hold all the words of a packet, no request has been issued, and a step changes
nothing. That such a step is a step is the model's choice (log entry 2). -/
def Obligations.StepIdlesWithoutAWholePacket : Prop :=
  ∀ s : State, (∀ ws rest : List Word, s.inbox = ws ++ rest → ¬IsPacket ws) → step s = .next s

/-- R20, R33, R47, R273: what a request is answered with depends on nothing but the request: an outcome in one state is
the outcome in every state. The answer stands after the responses delivered before, and nothing else changes. -/
def Obligations.OutcomeDependsOnTheRequestAlone : Prop :=
  ∀ (i : Instr) (s : State),
    (∃ r, ∀ s', exec i s' = .next { s' with outbox := s'.outbox ++ [r] }) ∨
      (exec i s = .refused .extNonCanonical ∧ ∀ s', exec i s' = .refused .extNonCanonical)

/-- R33, R65, R100: the bits of a slot that its precision or its width does not use never reach the outcome, a NaN's free
bits and an out-of-range integer included (log entries 3 and 6). -/
def Obligations.UnusedBitsDoNotReachTheOutcome : Prop :=
  ∀ (i : Instr) (s : State), exec i.usedOnly s = exec i s

/-- R48: responses are returned in the order of their requests, one response per request, however many requests are
outstanding and whatever words follow them. -/
def Obligations.ResponsesComeInRequestOrder : Prop :=
  ∀ (is : List Instr) (rs : List Response) (later : List Word) (delivered : List Response),
    List.Forall₂ (fun i r => i.wf = true ∧ ∀ s, exec i s = .next (s.deliver r)) is rs →
      runSteps is.length ⟨is.flatMap encode ++ later, delivered⟩ = some ⟨later, delivered ++ rs⟩

/-- R47, R283: what the host does meanwhile does not change how the oldest request is answered: words issued later wait
behind it, and collecting an earlier response takes nothing from it. -/
def Obligations.HostActionsDoNotChangeAnAnswer : Prop :=
  ∀ (s t : State) (ws rest later : List Word),
    IsPacket ws → s.inbox = ws ++ rest → step s = .next t →
      step (s.hostIssue later) = .next (t.hostIssue later) ∧
        (s.outbox ≠ [] → step s.hostCollect = .next t.hostCollect)

/-- R291: the reset signal discards every outstanding request without a response; a request issued after it is executed
as at any other time. That the responses delivered before stay with the host is the model's choice (log entry 8). -/
def Obligations.ResetSignalDiscardsRequests : Prop :=
  ∀ s : State,
    s.resetSignal.inbox = [] ∧ s.resetSignal.outbox = s.outbox ∧ step s.resetSignal = .next s.resetSignal ∧
      ∀ i : Instr, i.wf = true → step (s.resetSignal.hostIssue (encode i)) = exec i s.resetSignal

/-! ## The packet -/

/-- R55, R56, R60, R61: for every request that a packet can carry, decoding its words gives it back, every operand at every
value its field admits. -/
def Obligations.DecodeInvertsEncode : Prop :=
  ∀ i : Instr, i.wf = true → decode (encode i) = .ok i

/-- R61, R64, R65: a packet that decodes is, but for the fields its format does not read, the packet of the request it
decodes to; the fields not read are dropped. -/
def Obligations.DecodeDropsOnlyUnreadFields : Prop :=
  ∀ (ws : List Word) (i : Instr),
    decode ws = .ok i → i.wf = true ∧ encode i = i.op.format.clearUnread ws

/-- Command words that the spec writes out, one at least for each format, and what their packets decode to (R84, and the
examples of R153, R159, R172, R210, R226, R238, R244 and R248). -/
def Obligations.WordsOfTheSpecDecode : Prop :=
  decode [0x10010, 0x3FC00000, 0, 0x4002000000000000, 0, 0, 0, 0]
      = .ok (.add 0 1 ⟨0x3FC00000, 0⟩ ⟨0x4002000000000000, 0⟩) ∧
    decode [0x1000014, 0x3DCCCCCD, 0, 0x3E4CCCCD, 0, 0x3FD3333333333333, 0, 0]
      = .ok (.add3 0 0 1 ⟨0x3DCCCCCD, 0⟩ ⟨0x3E4CCCCD, 0⟩ ⟨0x3FD3333333333333, 0⟩) ∧
    decode [0x200000015, 0x3FC00000, 0, 0, 0, 0, 0, 0, 2, 0x9000000000000000, 0x4000, 2, 0xCCCCCCCCCCCCCCCD, 0x3FFB]
      = .ok (.addmany 0 ⟨0x3FC00000, 0⟩ [⟨2, ⟨0x9000000000000000, 0x4000⟩⟩, ⟨2, ⟨0xCCCCCCCCCCCCCCCD, 0x3FFB⟩⟩]) ∧
    decode [0x20, 0x40000000, 0, 0, 0, 0, 0, 10] = .ok (.powi 0 ⟨0x40000000, 0⟩ 10) ∧
    decode [0x35, 0x3FC00000, 0, 0x80000000, 0, 0, 0, 0] = .ok (.copysign 0 ⟨0x3FC00000, 0⟩ ⟨0x80000000, 0⟩) ∧
    decode [0x44, 0x80000000, 0, 0, 0, 0, 0, 0] = .ok (.isneg 0 ⟨0x80000000, 0⟩) ∧
    decode [0x150, 0x3FB999999999999A, 0, 0, 0, 0, 0, 0] = .ok (.cvtff 1 0 ⟨0x3FB999999999999A, 0⟩) ∧
    decode [0x1000851, 0, 0, 0, 0, 0, 0, 0xFF] = .ok (.cvtif 8 1 0xFF) ∧
    decode [0x20000152, 0x400F333333333333, 0, 0, 0, 0, 0, 0] = .ok (.cvtfi 1 32 ⟨0x400F333333333333, 0⟩)

/-- R84, the worked encoding: after reset the eight words of ADD SINGLE 1.5, DOUBLE 2.25 are answered with the three words
of DOUBLE 3.75. -/
def Obligations.WorkedEncoding : Prop :=
  ∃ r : Response,
    step (State.reset.hostIssue [0x0000000000010010, 0x000000003FC00000, 0, 0x4002000000000000, 0, 0, 0, 0])
        = .next ⟨[], [r]⟩ ∧
      r.words = [0x0000000000010100, 0x400E000000000000, 0]

/-- R76 to R80: the three words of every response: those of a FLOAT, of an INT, of a BOOL and of an error. -/
def Obligations.ResponseWordsCarryTheRecord : Prop :=
  (∀ r : Response, ∃ q, r.words = [q, r.m, r.es] ∧
    q.extractLsb' 0 8 = r.status.code ∧ q.extractLsb' 8 8 = r.rtag ∧ q.extractLsb' 16 2 = r.rkind.code ∧
      q.extractLsb' 18 46 = 0#46) ∧
    (∀ (p : Precision) (v : Value), (respondFloat p v).words =
      [0x10000#64 ||| (BitVec.ofNat 64 p.ordinal <<< 8), (encodeValue p v).m, (encodeValue p v).es]) ∧
    (∀ (w : Width) (i : ℤ), (respondInt w i).words =
      [0x20000#64 ||| (BitVec.ofNat 64 w.bits <<< 8), BitVec.ofInt 64 i, 0#64]) ∧
    (∀ b : Bool, (respondBool b).words = [0x30000#64, if b then 1#64 else 0#64, 0#64]) ∧
    (respondError .unsupportedType).words = [1#64, 0#64, 0#64] ∧
    (respondError .domain).words = [2#64, 0#64, 0#64] ∧
    (respondError .illegalCommand).words = [3#64, 0#64, 0#64]

/-! ## The checks -/

/-- R269: a malformed command word is answered with ILLEGAL_COMMAND, whatever the type codes and the operands; every other
packet names an operation, and a step executes it. -/
def Obligations.MalformedCommandsAreIllegal : Prop :=
  ∀ (s : State) (w : Word) (rest : List Word), IsPacket (w :: rest) →
    (commandIllegal w = true →
      step (s.withPacket (w :: rest)) = .next (s.deliver (respondError .illegalCommand))) ∧
    (commandIllegal w = false →
      ∃ i, decode (w :: rest) = .ok i ∧ step (s.withPacket (w :: rest)) = exec i s)

/-- R272, R62: the first cause in the order of the checks decides the response, and a packet that passes them all is
answered with OK. -/
def Obligations.ChecksComeInOrder : Prop :=
  ∀ (s : State) (w : Word) (rest : List Word), IsPacket (w :: rest) →
    FirstMatch [
      (commandIllegal w = true,
        step (s.withPacket (w :: rest)) = .next (s.deliver (respondError .illegalCommand))),
      (∃ i, decode (w :: rest) = .ok i ∧ i.typesLegal = false,
        step (s.withPacket (w :: rest)) = .next (s.deliver (respondError .unsupportedType))),
      (∃ i, decode (w :: rest) = .ok i ∧ i.negativeExponent = true,
        step (s.withPacket (w :: rest)) = .next (s.deliver (respondError .domain))),
      (∃ i, decode (w :: rest) = .ok i ∧ i.readsNonCanonical = true,
        step (s.withPacket (w :: rest)) = .refused .extNonCanonical),
      (True,
        ∃ r : Response, r.status = .ok ∧ step (s.withPacket (w :: rest)) = .next (s.deliver r))]

/-- R267: a request is answered with UNSUPPORTED_TYPE exactly when a type code that its format reads is outside its
enumeration; fields the format does not read are no part of the request. -/
def Obligations.UnsupportedTypeExactly : Prop :=
  ∀ (i : Instr) (s : State),
    exec i s = .next (s.deliver (respondError .unsupportedType)) ↔ i.typesLegal = false

/-- R268, R174: DOMAIN is raised by POWI, and only by POWI, when the exponent is negative and the type code is legal,
whatever the base. -/
def Obligations.DomainExactly : Prop :=
  ∀ (i : Instr) (s : State),
    exec i s = .next (s.deliver (respondError .domain)) ↔
      ∃ ta a n, i = .powi ta a n ∧ ta.toNat ≤ 2 ∧ n.toInt < 0

/-- R104, R271: the model refuses exactly the requests that pass every check and read a non-canonical EXTENDED operand.
Nothing else stops it. -/
def Obligations.RefusedExactly : Prop :=
  ∀ (i : Instr) (s : State),
    (∀ f, exec i s ≠ .fault f) ∧
      ∀ e, exec i s = .refused e ↔
        e = .extNonCanonical ∧ i.typesLegal = true ∧ i.negativeExponent = false ∧ i.readsNonCanonical = true

/-- R24: every request that passes the checks completes: it is answered with OK, and its result has the kind and the tag
that its operation's row gives. This is said of all 27 operations. -/
def Obligations.ExecutingRequestsComplete : Prop :=
  ∀ (i : Instr) (s : State), i.executes = true →
    ∃ r : Response, exec i s = .next (s.deliver r) ∧ r.status = .ok ∧ r.rkind = i.resultKind ∧ r.rtag = i.resultTag

/-- R79, R273: an error response carries its status and nothing else, and a response without an error carries a result: a
step never delivers both or neither. -/
def Obligations.ErrorsCarryNoResult : Prop :=
  ∀ s t : State, step s = .next t →
    t = s ∨ ∃ r : Response, t.outbox = s.outbox ++ [r] ∧
      (r.status ≠ .ok → r.rkind = .none ∧ r.rtag = 0#8 ∧ r.m = 0#64 ∧ r.es = 0#64) ∧
      (r.status = .ok → r.rkind ≠ .none)

/-! ## The codec -/

/-- R101: what every bit pattern of SINGLE and of DOUBLE denotes. -/
def Obligations.InterchangeFormatsDecode : Prop :=
  ∀ b : Pair,
    (∃ v, decodeValue .single b = some v ∧
      InterchangeRule 23 127 255 (b.m.getLsbD 31) (b.m.extractLsb' 23 8).toNat (b.m.extractLsb' 0 23).toNat v) ∧
    (∃ v, decodeValue .double b = some v ∧
      InterchangeRule 52 1023 2047 (b.m.getLsbD 63) (b.m.extractLsb' 52 11).toNat (b.m.extractLsb' 0 52).toNat v)

/-- R102 and R104: what every bit pattern of EXTENDED denotes, the non-canonical ones denoting no value. -/
def Obligations.ExtendedFormatDecodes : Prop :=
  ∀ b : Pair,
    ExtendedRule (b.es.getLsbD 15) (b.es.extractLsb' 0 15).toNat (b.m.getLsbD 63) (b.m.extractLsb' 0 63).toNat
      (decodeValue .extended b)

/-- R110, both directions: decoding an encoding gives the value back, and encoding a decoded value gives the pair back
with its ignored bits cleared, NaN included. -/
def Obligations.CodecRoundTrips : Prop :=
  (∀ (p : Precision) (v : Value), v.Encodable p → decodeValue p (encodeValue p v) = some v) ∧
    (∀ (t : TypeCode) (p : Precision) (b : Pair) (v : Value), Reads t b p v → encodeValue p v = b.usedOnly t)

/-- R98, R106: what an encoding denotes is a value on which `encode_p` is defined: a finite number is representable, a NaN's
fraction is not zero and holds its quiet bit. -/
def Obligations.DecodedValuesAreEncodable : Prop :=
  ∀ (p : Precision) (b : Pair) (v : Value), decodeValue p b = some v → v.Encodable p

/-! ## Promotion and rounding -/

/-- R130, R131: the working precision is the maximum in the order of the ordinals; it is commutative, idempotent and
associative, and SINGLE is neutral. -/
def Obligations.PromotionIsTheMaximum : Prop :=
  ∀ p q r : Precision,
    (promote p q).ordinal = max p.ordinal q.ordinal ∧ promote p q = promote q p ∧ promote p p = p ∧
      promote (promote p q) r = promote p (promote q r) ∧ promote .single p = p

/-- R113, the formula: quantum, nearest multiple with ties to even, overflow, total underflow, and a representable number
otherwise. -/
def Obligations.RoundingFollowsTheFormula : Prop :=
  ∀ (p : Precision) (x : ℚ) (s0 : Bool),
    (x = 0 → roundTo p x s0 = .zero s0) ∧
    (x ≠ 0 → ∀ q : ℤ, q = max (Int.log 2 |x|) p.emin - (p.prec - 1) →
      ∃ n : ℤ, NearestEven (|x| / 2 ^ q) n ∧
        FirstMatch [
          ((2 : ℚ) ^ (p.emax + 1) ≤ n * 2 ^ q, roundTo p x s0 = .inf (decide (x < 0))),
          ((n : ℚ) * 2 ^ q = 0, roundTo p x s0 = .zero (decide (x < 0))),
          (True, ∃ y : ℚ, y = (if x < 0 then -1 else 1) * (n * 2 ^ q) ∧ roundTo p x s0 = .fin y ∧
            Representable p y)])

/-- R113, R116, said without the formula: below the overflow threshold the rounded value is a representable number or zero,
no representable number and no zero is nearer to the exact one, and if another is as near, the encoding chosen is even. -/
def Obligations.RoundingIsToNearestEven : Prop :=
  ∀ (p : Precision) (x : ℚ) (s0 : Bool), x ≠ 0 → |x| < (2 - 2 ^ (-(p.prec : ℤ))) * 2 ^ p.emax →
    ∃ y : ℚ,
      (roundTo p x s0 = .fin y ∧ Representable p y ∨ roundTo p x s0 = .zero (decide (x < 0)) ∧ y = 0) ∧
      ∀ z : ℚ, z = 0 ∨ Representable p z →
        |x - y| ≤ |x - z| ∧
          (z ≠ y → |x - y| = |x - z| → (encodeValue p (roundTo p x s0)).m.getLsbD 0 = false)

/-- R114: at the overflow threshold and above, the infinity of the sign; below it a finite number, of magnitude at most the
greatest representable one. -/
def Obligations.OverflowBeginsAtTheThreshold : Prop :=
  ∀ (p : Precision) (x : ℚ) (s0 : Bool), x ≠ 0 →
    ((2 - 2 ^ (-(p.prec : ℤ))) * 2 ^ p.emax ≤ |x| → roundTo p x s0 = .inf (decide (x < 0))) ∧
    (|x| < (2 - 2 ^ (-(p.prec : ℤ))) * 2 ^ p.emax →
      (roundTo p x s0).isInf = false ∧ (roundTo p x s0).isNaN = false ∧
        |(roundTo p x s0).val| ≤ (2 - 2 ^ (1 - (p.prec : ℤ))) * 2 ^ p.emax) ∧
    Representable p ((2 - 2 ^ (1 - (p.prec : ℤ))) * 2 ^ p.emax)

/-- R115: below the least normal magnitude a result is rounded to a multiple of the least subnormal one, ties to even, and
a result that rounds to zero keeps its sign; nothing is flushed. -/
def Obligations.UnderflowIsGradual : Prop :=
  ∀ (p : Precision) (x : ℚ) (s0 : Bool), x ≠ 0 → |x| < 2 ^ p.emin →
    ∃ k : ℤ, NearestEven (x / 2 ^ (p.emin - p.prec + 1)) k ∧ |(k : ℚ) * 2 ^ (p.emin - p.prec + 1)| ≤ 2 ^ p.emin ∧
      roundTo p x s0 = if k = 0 then .zero (decide (x < 0)) else .fin (k * 2 ^ (p.emin - p.prec + 1))

/-- R118: every NaN that an operation generates has the bits the spec asks of it; its sign and its other fraction bits are
free, for every such bit pattern is one that `NANGEN` could give (log entry 3). -/
def Obligations.GeneratedNaNsAreQuiet : Prop :=
  (∀ (o : Op) (p : Precision) (operands : List Operand),
    QuietNaN p (qNaN o p operands) ∧ (encodeValue p (qNaN o p operands)).isQuietNaN p = true ∧
      decodeValue p (encodeValue p (qNaN o p operands)) = some (qNaN o p operands)) ∧
    (∀ (p : Precision) (b : Pair), b.isQuietNaN p = true → ∃ r : Word, encodeValue p (quietNaN p r) = b)

/-- R177: a result of `TRANS` is a value on which `encode_p` is defined, a NaN being quiet, and it may be any such value
(log entry 4). -/
def Obligations.TransResultsAreEncodable : Prop :=
  (∀ (p : Precision) (raw : Pair), (transValue p raw).Encodable p ∧ ¬(transValue p raw).Signalling) ∧
    (∀ (p : Precision) (v : Value), v.Encodable p → ¬v.Signalling → ∃ raw : Pair, transValue p raw = v)

/-! ## Arithmetic -/

/-- R141, with R143 and R145: ADD and SUB complete on all operands they can read, at the wider precision, and their result
follows the table of `fadd_p`, of a difference with the sign of the subtrahend turned. -/
def Obligations.AddAndSubFollowTheTable : Prop :=
  ∀ (s : State) (ta tb : TypeCode) (a b : Pair) (p q : Precision) (x y : Value),
    Reads ta a p x → Reads tb b q y →
      (∃ v, exec (.add ta tb a b) s = .next (s.deliver (respondFloat (promote p q) v)) ∧
        SumRule (promote p q) x y v) ∧
      (∃ v w, exec (.sub ta tb a b) s = .next (s.deliver (respondFloat (promote p q) v)) ∧
        y.Negates w ∧ SumRule (promote p q) x w v)

/-- R142, with R147 and R149: MUL and DIV complete on all operands they can read, division by zero included, and their
results follow the tables of `fmul_p` and `fdiv_p`. -/
def Obligations.MulAndDivFollowTheTables : Prop :=
  ∀ (s : State) (ta tb : TypeCode) (a b : Pair) (p q : Precision) (x y : Value),
    Reads ta a p x → Reads tb b q y →
      (∃ v, exec (.mul ta tb a b) s = .next (s.deliver (respondFloat (promote p q) v)) ∧
        ProductRule (promote p q) x y v) ∧
      (∃ v, exec (.div ta tb a b) s = .next (s.deliver (respondFloat (promote p q) v)) ∧
        QuotientRule (promote p q) x y v)

/-- R144: ADD with its operands exchanged gives the same response, except possibly in the free bits of a NaN. -/
def Obligations.AddCommutesButForNaN : Prop :=
  ∀ (s : State) (ta tb : TypeCode) (a b : Pair) (p q : Precision) (x y : Value),
    Reads ta a p x → Reads tb b q y →
      ∃ r r' : Response, exec (.add ta tb a b) s = .next (s.deliver r) ∧
        exec (.add tb ta b a) s = .next (s.deliver r') ∧ r.sameButNaN r'

/-- R153: ADD3 is two additions, the first already at the widest of the three precisions, each rounded. -/
def Obligations.AddThreeIsTwoAdditions : Prop :=
  ∀ (s : State) (ta tb tc : TypeCode) (a b c : Pair) (p q r : Precision) (x y z : Value),
    Reads ta a p x → Reads tb b q y → Reads tc c r z →
      ∃ P u v, P.ordinal = max p.ordinal (max q.ordinal r.ordinal) ∧
        exec (.add3 ta tb tc a b c) s = .next (s.deliver (respondFloat P v)) ∧
        SumRule P x y u ∧ SumRule P u z v

/-- R158, with R159 and R161: ADDMANY and MULMANY fold from left to right, starting from the accumulator, every step at the
greatest precision of the whole sequence. -/
def Obligations.VariadicRequestsFold : Prop :=
  ∀ (s : State) (ta : TypeCode) (a : Pair) (es : List Elem) (p : Precision) (x : Value) (ds : List (Precision × Value)),
    Reads ta a p x → List.Forall₂ (fun e d => Reads e.t e.v d.1 d.2) es ds →
      ∃ P : Precision, P.ordinal = ds.foldl (fun k d => max k d.1.ordinal) p.ordinal ∧
        (∃ v, exec (.addmany ta a es) s = .next (s.deliver (respondFloat P v)) ∧
          FoldRule (SumRule P) x (ds.map (·.2)) v) ∧
        (∃ v, exec (.mulmany ta a es) s = .next (s.deliver (respondFloat P v)) ∧
          FoldRule (ProductRule P) x (ds.map (·.2)) v)

/-- R160: without elements the accumulator comes back with its ignored bits cleared, a NaN with its own bits; with one
element ADDMANY agrees with ADD, and with two with ADD3, but for the free bits of a NaN, where `NANGEN` sees another
operation (R118). -/
def Obligations.ShortVariadicRequests : Prop :=
  ∀ (s : State) (ta : TypeCode) (a : Pair) (e f : Elem) (p q r : Precision) (x y z : Value),
    Reads ta a p x → Reads e.t e.v q y → Reads f.t f.v r z →
      exec (.addmany ta a []) s = .next (s.deliver ⟨.ok, .float, ta, (a.usedOnly ta).m, (a.usedOnly ta).es⟩) ∧
      exec (.mulmany ta a []) s = .next (s.deliver ⟨.ok, .float, ta, (a.usedOnly ta).m, (a.usedOnly ta).es⟩) ∧
      (∃ v v' : Response, exec (.addmany ta a [e]) s = .next (s.deliver v) ∧
        exec (.add ta e.t a e.v) s = .next (s.deliver v') ∧ v.sameButNaN v') ∧
      (∃ v v' : Response, exec (.addmany ta a [e, f]) s = .next (s.deliver v) ∧
        exec (.add3 ta e.t f.t a e.v f.v) s = .next (s.deliver v') ∧ v.sameButNaN v')

/-! ## Power, logarithm, exponential, square root -/

/-- R172: for an exponent that is not negative POWI completes, and its result is what the loop of the rule collects, each
product rounded, within 63 rounds. -/
def Obligations.PowiSquaresAndCollects : Prop :=
  ∀ (s : State) (ta : TypeCode) (a : Pair) (n : Word) (p : Precision) (x : Value),
    Reads ta a p x → 0 ≤ n.toInt →
      ∃ v, exec (.powi ta a n) s = .next (s.deliver (respondFloat p v)) ∧
        SquaringRule p 63 n.toInt.toNat x (.fin 1) v

/-- R173: exponent 0 gives 1 for every base, NaN and infinity included; exponent 1 gives the base; a NaN stays a NaN from
exponent 1 on; a negative base gives a negative result exactly when the exponent is odd, also for `-0` and `-inf`. -/
def Obligations.PowiConsequences : Prop :=
  ∀ (s : State) (ta : TypeCode) (a : Pair) (n : Word) (p : Precision) (x : Value),
    Reads ta a p x → 0 ≤ n.toInt →
      ∃ v, exec (.powi ta a n) s = .next (s.deliver (respondFloat p v)) ∧
        (n.toInt = 0 → v = .fin 1) ∧
        (n.toInt = 1 → x.isNaN = false → v = x) ∧
        (1 ≤ n.toInt → x.isNaN = true → QuietNaN p v) ∧
        (1 ≤ n.toInt → x.isNaN = false → v.isNaN = false ∧ (v.sign = true ↔ x.sign = true ∧ n.toInt % 2 = 1))

/-- R179, with R178: POW completes on all operands it can read, and its result follows the 22 cases, tried from top to
bottom. The choice in case 3 is open, and so is the value in case 22 (log entries 4 and 5). -/
def Obligations.PowFollowsItsCases : Prop :=
  ∀ (s : State) (ta tb : TypeCode) (a b : Pair) (p q : Precision) (x y : Value),
    Reads ta a p x → Reads tb b q y →
      ∃ v, exec (.pow ta tb a b) s = .next (s.deliver (respondFloat (promote p q) v)) ∧
        PowerRule (promote p q) x y v

/-- R181 and R183: LOG and EXP complete on all operands they can read and give the listed results on the decided operands;
on the others the value is the open one of `TRANS` (log entry 4). -/
def Obligations.LogAndExpFollowTheirCases : Prop :=
  ∀ (s : State) (ta : TypeCode) (a : Pair) (p : Precision) (x : Value), Reads ta a p x →
    (∃ v, exec (.log ta a) s = .next (s.deliver (respondFloat p v)) ∧
      FirstMatch [
        (x.isNaN, QuietNaN p v),
        (x.isZero, v = .inf true),
        (x = .fin 1, v = .zero false),
        (x.val < 0, QuietNaN p v),
        (x = .inf true, QuietNaN p v),
        (x = .inf false, v = .inf false),
        (True, v = transValue p (Config.transLog p x))]) ∧
    (∃ v, exec (.exp ta a) s = .next (s.deliver (respondFloat p v)) ∧
      FirstMatch [
        (x.isNaN, QuietNaN p v),
        (x.isZero, v = .fin 1),
        (x = .inf true, v = .zero false),
        (x = .inf false, v = .inf false),
        (True, v = transValue p (Config.transExp p x))])

/-- R186, R187: SQRT completes on all operands it can read; the root of a positive number is the representable number
nearest to the real square root, and no other is as near. -/
def Obligations.SqrtIsCorrectlyRounded : Prop :=
  ∀ (s : State) (ta : TypeCode) (a : Pair) (p : Precision) (x : Value), Reads ta a p x →
    ∃ v, exec (.sqrt ta a) s = .next (s.deliver (respondFloat p v)) ∧
      FirstMatch [
        (x.isNaN, QuietNaN p v),
        (x.isZero, v = x),
        (x.val < 0, QuietNaN p v),
        (x = .inf true, QuietNaN p v),
        (x = .inf false, v = .inf false),
        (True, ∃ y : ℚ, v = .fin y ∧ Representable p y ∧
          ∀ z : ℚ, Representable p z → z ≠ y → |Real.sqrt x.val - y| < |Real.sqrt x.val - z|)]

/-! ## Rounding to integral values, and signs -/

/-- R200, with R203 to R206: ROUND, TRUNC, CEIL and FLOOR complete on all operands they can read, and give the integral
value of their own integer function, a zero with the operand's sign. -/
def Obligations.IntegralRoundings : Prop :=
  ∀ (s : State) (ta : TypeCode) (a : Pair) (p : Precision) (x : Value), Reads ta a p x →
    (∃ v, exec (.round ta a) s = .next (s.deliver (respondFloat p v)) ∧ IntegralRule roundHalfAway p x v) ∧
    (∃ v, exec (.trunc ta a) s = .next (s.deliver (respondFloat p v)) ∧ IntegralRule towardZero p x v) ∧
    (∃ v, exec (.ceil ta a) s = .next (s.deliver (respondFloat p v)) ∧ IntegralRule Int.ceil p x v) ∧
    (∃ v, exec (.floor ta a) s = .next (s.deliver (respondFloat p v)) ∧ IntegralRule Int.floor p x v)

/-- R201: why the results of the four operations need no rounding. -/
def Obligations.IntegralValuesAreRepresentable : Prop :=
  (∀ (p : Precision) (u : ℚ) (I : ℚ → ℤ), Representable p u →
    (I = roundHalfAway ∨ I = towardZero ∨ I = Int.ceil ∨ I = Int.floor) →
      (2 ^ (p.prec - 1) ≤ |u| → (I u : ℚ) = u) ∧
      (|u| < 2 ^ (p.prec - 1) → |I u| ≤ 2 ^ (p.prec - 1)) ∧
      (I u ≠ 0 → Representable p (I u))) ∧
    (∀ (p : Precision) (i : ℤ), i ≠ 0 → |i| ≤ 2 ^ p.prec → Representable p i)

/-- R208 in bits: ABS clears the sign bit and the unused bits, and keeps every other bit, of a NaN too. -/
def Obligations.AbsClearsTheSignBit : Prop :=
  ∀ (s : State) (a : Pair),
    exec (.abs 0 a) s = .next (s.deliver ⟨.ok, .float, 0, a.m &&& 0x7FFFFFFF, 0⟩) ∧
    exec (.abs 1 a) s = .next (s.deliver ⟨.ok, .float, 1, a.m &&& 0x7FFFFFFFFFFFFFFF, 0⟩) ∧
    (a.nonCanonical = false →
      exec (.abs 2 a) s = .next (s.deliver ⟨.ok, .float, 2, a.m, a.es &&& 0x7FFF⟩))

/-- R210 in bits: COPYSIGN gives the encoding of the first operand with the sign bit of the second, both read at the one
precision. -/
def Obligations.CopysignTakesTheSignBit : Prop :=
  ∀ (s : State) (a b : Pair),
    exec (.copysign 0 a b) s
        = .next (s.deliver ⟨.ok, .float, 0, (a.m &&& 0x7FFFFFFF) ||| (b.m &&& 0x80000000), 0⟩) ∧
    exec (.copysign 1 a b) s
        = .next (s.deliver ⟨.ok, .float, 1, (a.m &&& 0x7FFFFFFFFFFFFFFF) ||| (b.m &&& 0x8000000000000000), 0⟩) ∧
    (a.nonCanonical = false → b.nonCanonical = false →
      exec (.copysign 2 a b) s
        = .next (s.deliver ⟨.ok, .float, 2, a.m, (a.es &&& 0x7FFF) ||| (b.es &&& 0x8000)⟩))

/-- R211: ABS is COPYSIGN with `+0`; COPYSIGN of an operand with itself returns it; ISNEG of a COPYSIGN is ISNEG of the
sign source; and no NaN comes from an operand that is none. -/
def Obligations.SignOperationsAgree : Prop :=
  ∀ (s : State) (ta : TypeCode) (a b : Pair) (p : Precision) (x y : Value), Reads ta a p x → Reads ta b p y →
    exec (.abs ta a) s = exec (.copysign ta a ⟨0, 0⟩) s ∧
    exec (.copysign ta a a) s = .next (s.deliver ⟨.ok, .float, ta, (a.usedOnly ta).m, (a.usedOnly ta).es⟩) ∧
    ∃ (r : Response) (v : Value), exec (.copysign ta a b) s = .next (s.deliver r) ∧ Reads ta ⟨r.m, r.es⟩ p v ∧
      v.isNaN = x.isNaN ∧ exec (.isneg ta ⟨r.m, r.es⟩) s = exec (.isneg ta b) s

/-! ## Predicates -/

/-- R222 to R226 in bits: what ISZERO, ISONE, ISNAN, ISINF and ISNEG answer at each precision. -/
def Obligations.ClassPredicatesReadTheBits : Prop :=
  ∀ (s : State) (a : Pair),
    (exec (.iszero 0 a) s = .next (s.deliver (respondBool (a.m.extractLsb' 0 31 == 0))) ∧
      exec (.isone 0 a) s = .next (s.deliver (respondBool (a.m.extractLsb' 0 31 == 0x3F800000))) ∧
      exec (.isnan 0 a) s = .next (s.deliver (respondBool (decide (0x7F800000 < (a.m.extractLsb' 0 31).toNat)))) ∧
      exec (.isinf 0 a) s = .next (s.deliver (respondBool (a.m.extractLsb' 0 31 == 0x7F800000))) ∧
      exec (.isneg 0 a) s = .next (s.deliver (respondBool (a.m.getLsbD 31)))) ∧
    (exec (.iszero 1 a) s = .next (s.deliver (respondBool (a.m.extractLsb' 0 63 == 0))) ∧
      exec (.isone 1 a) s = .next (s.deliver (respondBool (a.m.extractLsb' 0 63 == 0x3FF0000000000000))) ∧
      exec (.isnan 1 a) s
        = .next (s.deliver (respondBool (decide (0x7FF0000000000000 < (a.m.extractLsb' 0 63).toNat)))) ∧
      exec (.isinf 1 a) s = .next (s.deliver (respondBool (a.m.extractLsb' 0 63 == 0x7FF0000000000000))) ∧
      exec (.isneg 1 a) s = .next (s.deliver (respondBool (a.m.getLsbD 63)))) ∧
    (a.nonCanonical = false →
      exec (.iszero 2 a) s = .next (s.deliver (respondBool (a.es.extractLsb' 0 15 == 0 && a.m == 0))) ∧
      exec (.isone 2 a) s
        = .next (s.deliver (respondBool (a.es.extractLsb' 0 15 == 0x3FFF && a.m == 0x8000000000000000))) ∧
      exec (.isnan 2 a) s
        = .next (s.deliver (respondBool (a.es.extractLsb' 0 15 == 0x7FFF && a.m != 0x8000000000000000))) ∧
      exec (.isinf 2 a) s
        = .next (s.deliver (respondBool (a.es.extractLsb' 0 15 == 0x7FFF && a.m == 0x8000000000000000))) ∧
      exec (.isneg 2 a) s = .next (s.deliver (respondBool (a.es.getLsbD 15))))

/-- R228: ISGT completes on all operands it can read, at any two precisions, and answers as the table of `fgt`. -/
def Obligations.IsGreaterFollowsTheTable : Prop :=
  ∀ (s : State) (ta tb : TypeCode) (a b : Pair) (p q : Precision) (x y : Value),
    Reads ta a p x → Reads tb b q y →
      ∃ g : Bool, exec (.isgt ta tb a b) s = .next (s.deliver (respondBool g)) ∧
        FirstMatch [
          (x.isNaN ∨ y.isNaN, g = false),
          (x = .inf false, g = true ↔ y ≠ .inf false),
          (x = .inf true, g = false),
          (y = .inf false, g = false),
          (y = .inf true, g = true),
          (True, g = true ↔ y.val < x.val)]

/-- R229: the precision an operand is held at does not matter to ISGT; no operand is greater than itself; with a NaN, and
between zeros of any signs, neither is greater; two operands are never each greater than the other. -/
def Obligations.IsGreaterConsequences : Prop :=
  ∀ (s : State) (ta tb tc : TypeCode) (a b c : Pair) (p q r : Precision) (x y : Value),
    Reads ta a p x → Reads tb b q y → Reads tc c r x →
      exec (.isgt ta tb a b) s = exec (.isgt tc tb c b) s ∧
      exec (.isgt ta tc a c) s = .next (s.deliver (respondBool false)) ∧
      (y.isNaN = true ∨ x.isZero = true ∧ y.isZero = true →
        exec (.isgt ta tb a b) s = .next (s.deliver (respondBool false)) ∧
        exec (.isgt tb ta b a) s = .next (s.deliver (respondBool false))) ∧
      (exec (.isgt ta tb a b) s = .next (s.deliver (respondBool true)) →
        exec (.isgt tb ta b a) s = .next (s.deliver (respondBool false)))

/-! ## Casts -/

/-- R238: CVTFF completes between any two precisions: the identity between equal ones, otherwise rounded once, a NaN
becoming a generated one. -/
def Obligations.FloatToFloatConverts : Prop :=
  ∀ (s : State) (ta tc : TypeCode) (a : Pair) (p q : Precision) (x : Value),
    Reads ta a p x → tc.toNat = q.ordinal →
      ∃ v, exec (.cvtff ta tc a) s = .next (s.deliver (respondFloat q v)) ∧
        FirstMatch [
          (p = q, v = x),
          (x.isNaN, QuietNaN q v),
          (x.isZero ∨ x.isInf, v = x),
          (True, v = roundTo q x.val false)]

/-- R239, R252: widening keeps the value, and narrowing the widened datum gives the bits back. -/
def Obligations.WideningThenNarrowingIsTheIdentity : Prop :=
  ∀ (s : State) (ta tc : TypeCode) (a : Pair) (p q : Precision) (x : Value),
    Reads ta a p x → tc.toNat = q.ordinal → p.ordinal ≤ q.ordinal → x.isNaN = false →
      ∃ r : Response, exec (.cvtff ta tc a) s = .next (s.deliver r) ∧ Reads tc ⟨r.m, r.es⟩ q x ∧
        exec (.cvtff tc ta ⟨r.m, r.es⟩) s
          = .next (s.deliver ⟨.ok, .float, ta, (a.usedOnly ta).m, (a.usedOnly ta).es⟩)

/-- R243 to R245: CVTIF completes for every width and every precision: the integer is the low bits of the word in two's
complement, zero gives `+0`, any other is rounded once, and one of at most `P_p` bits is exact. -/
def Obligations.IntegerToFloatConverts : Prop :=
  ∀ (s : State) (ta tc : TypeCode) (n : Word) (w : Width) (p : Precision),
    ta.toNat = w.bits → tc.toNat = p.ordinal →
      ∃ (i : ℤ) (v : Value), -2 ^ (w.bits - 1) ≤ i ∧ i < 2 ^ (w.bits - 1) ∧ (i - n.toNat) % 2 ^ w.bits = 0 ∧
        exec (.cvtif ta tc n) s = .next (s.deliver (respondFloat p v)) ∧
        (i = 0 → v = .zero false) ∧ (i ≠ 0 → v = roundTo p i false) ∧
        (i ≠ 0 → |i| ≤ 2 ^ p.prec ∨ Representable p i → v = .fin i) ∧
        (i ≠ 0 → ∃ x : ℚ, v = .fin x)

/-- R248, R249, R252: CVTFI truncates toward zero, for every operand strictly between `-2^(w-1) - 1` and `2^(w-1)`, and
TRUNC before it changes nothing. -/
def Obligations.FloatToIntegerTruncates : Prop :=
  ∀ (s : State) (ta tc : TypeCode) (a : Pair) (p : Precision) (w : Width) (x : Value),
    Reads ta a p x → tc.toNat = w.bits → x.isNaN = false → x.isInf = false →
      -2 ^ (w.bits - 1) - 1 < x.val → x.val < 2 ^ (w.bits - 1) →
        -2 ^ (w.bits - 1) ≤ towardZero x.val ∧ towardZero x.val ≤ 2 ^ (w.bits - 1) - 1 ∧
        exec (.cvtfi ta tc a) s
          = .next (s.deliver ⟨.ok, .int, tc, BitVec.ofInt 64 (towardZero x.val), 0⟩) ∧
        ∃ r : Response, exec (.trunc ta a) s = .next (s.deliver r) ∧
          exec (.cvtfi ta tc ⟨r.m, r.es⟩) s = exec (.cvtfi ta tc a) s

/-- R250: out of range, for infinities and for NaN, CVTFI answers OK with some integer of the width, the same for the same
used bits of the operand; which one is open (log entry 6). -/
def Obligations.OutOfRangeIntegersAreOpen : Prop :=
  ∀ (ta tc : TypeCode) (p : Precision) (w : Width), ta.toNat = p.ordinal → tc.toNat = w.bits →
    ∃ f : Pair → ℤ, (∀ b, -2 ^ (w.bits - 1) ≤ f b ∧ f b ≤ 2 ^ (w.bits - 1) - 1) ∧
      ∀ (s : State) (a : Pair) (x : Value), Reads ta a p x →
        (x.isNaN = true ∨ x.isInf = true ∨ x.val ≤ -2 ^ (w.bits - 1) - 1 ∨ 2 ^ (w.bits - 1) ≤ x.val) →
          exec (.cvtfi ta tc a) s
            = .next (s.deliver ⟨.ok, .int, tc, BitVec.ofInt 64 (f (a.usedOnly ta)), 0⟩)

/-- R252: an integer converted to a floating number exactly comes back from it. -/
def Obligations.IntegersComeBack : Prop :=
  ∀ (s : State) (ta tc : TypeCode) (n : Word) (w : Width) (p : Precision) (i : ℤ),
    ta.toNat = w.bits → tc.toNat = p.ordinal →
    -2 ^ (w.bits - 1) ≤ i → i < 2 ^ (w.bits - 1) → (i - n.toNat) % 2 ^ w.bits = 0 →
    i = 0 ∨ Representable p i →
      ∃ r : Response, exec (.cvtif ta tc n) s = .next (s.deliver r) ∧
        exec (.cvtfi tc ta ⟨r.m, r.es⟩) s = .next (s.deliver ⟨.ok, .int, ta, BitVec.ofInt 64 i, 0⟩)

end
end

