-- ==== Sys2Proof/Laws/Exact.lean ====
section
/-! SUPPORT. Each operation of `Machine/Exact.lean` is the operation of the rationals it is named after; the binary
exponent, the rounding to even and the integer square root meet their defining inequalities. -/

namespace Sys2Proof.Machine.Exact

@[simp] theorem twoPow_eq (k : Nat) : twoPow k = 2 ^ k := by
  rw [twoPow, ← pow_mul, ← pow_add, Nat.div_add_mod]

@[simp] theorem ofNat_eq (n : Nat) : ofNat n = n := by
  rw [ofNat, Rat.mkRat_eq_div]; simp

@[simp] theorem ofInt_eq (i : Int) : ofInt i = i := by
  rw [ofInt, Rat.mkRat_eq_div]; simp

@[simp] theorem pow2_eq (q : Int) : pow2 q = 2 ^ q := by
  cases q with
  | ofNat n => rw [pow2, Rat.mkRat_eq_div]; simp
  | negSucc n => rw [pow2, Rat.mkRat_eq_div]; simp [zpow_negSucc]

@[simp] theorem add_eq (x y : ℚ) : add x y = x + y := by
  rw [add, Rat.add_def']

@[simp] theorem mul_eq (x y : ℚ) : mul x y = x * y := by
  rw [mul, Rat.mul_def']

@[simp] theorem div_eq (x y : ℚ) : div x y = x / y := by
  rw [div, Rat.div_def']

@[simp] theorem abs_eq (x : ℚ) : abs x = |x| := by
  rw [abs, Rat.abs_def, Rat.mkRat_eq_divInt]

@[simp] theorem signed_true (x : ℚ) : signed true x = -x := rfl

@[simp] theorem signed_false (x : ℚ) : signed false x = x := rfl

@[simp] theorem floor_eq (x : ℚ) : floor x = ⌊x⌋ := by
  rw [floor, Rat.floor_def']

@[simp] theorem ceil_eq (x : ℚ) : ceil x = ⌈x⌉ := by
  rw [ceil, Rat.ceil_def']

theorem truncate_eq (x : ℚ) : truncate x = if x < 0 then ⌈x⌉ else ⌊x⌋ := by
  simp [truncate]

/-- The binary exponent of a quotient lies within one of the difference of the exponents. -/
theorem quotient_bounds {a : ℚ} {n d : Nat} (hn : n ≠ 0) (hd : d ≠ 0) (h : a * d = n) :
    (2 : ℚ) ^ ((n.log2 : Int) - d.log2 - 1) ≤ a ∧ a < 2 ^ ((n.log2 : Int) - d.log2 + 1) := by
  have n1 : (2 : ℚ) ^ n.log2 ≤ n := by exact_mod_cast Nat.log2_self_le hn
  have n2 : (n : ℚ) < 2 ^ (n.log2 + 1) := by exact_mod_cast Nat.lt_log2_self
  have d1 : (2 : ℚ) ^ d.log2 ≤ d := by exact_mod_cast Nat.log2_self_le hd
  have d2 : (d : ℚ) ≤ 2 ^ (d.log2 + 1) := by exact_mod_cast Nat.lt_log2_self.le
  have d0 : (0 : ℚ) < d := by exact_mod_cast Nat.pos_of_ne_zero hd
  constructor
  · refine le_of_mul_le_mul_right ?_ d0
    rw [h]
    refine (mul_le_mul_of_nonneg_left d2 (by positivity)).trans (le_of_eq_of_le ?_ n1)
    rw [← zpow_natCast, ← zpow_natCast, ← zpow_add₀ two_ne_zero]; congr 1; push_cast; ring
  · refine lt_of_mul_lt_mul_right ?_ d0.le
    rw [h]
    refine lt_of_lt_of_le (n2.trans_eq ?_) (mul_le_mul_of_nonneg_left d1 (by positivity))
    rw [← zpow_natCast, ← zpow_natCast, ← zpow_add₀ two_ne_zero]; congr 1; push_cast; ring

/-- `floorLog2 a` is the binary exponent of a positive `a` (R113, R187). -/
theorem floorLog2_spec {a : ℚ} (h : 0 < a) : (2 : ℚ) ^ floorLog2 a ≤ a ∧ a < 2 ^ (floorLog2 a + 1) := by
  have hn : 0 < a.num := Rat.num_pos.mpr h
  have key : a * a.den = a.num.natAbs := by
    rw [Rat.mul_den_eq_num]
    rw [← Int.cast_natCast, Int.natAbs_of_nonneg hn.le]
  obtain ⟨lower, upper⟩ := quotient_bounds (by omega) a.den_nz key
  unfold floorLog2
  rw [pow2_eq]
  split
  · exact ⟨‹_›, upper⟩
  · exact ⟨lower, by rw [sub_add_cancel]; exact lt_of_not_ge ‹_›⟩

theorem floorLog2_unique {a : ℚ} {k : Int} (h1 : (2 : ℚ) ^ k ≤ a) (h2 : a < 2 ^ (k + 1)) : floorLog2 a = k := by
  obtain ⟨g1, g2⟩ := floorLog2_spec (lt_of_lt_of_le (by positivity) h1)
  have a1 := (zpow_lt_zpow_iff_right₀ (one_lt_two (α := ℚ))).mp (h1.trans_lt g2)
  have a2 := (zpow_lt_zpow_iff_right₀ (one_lt_two (α := ℚ))).mp (g1.trans_lt h2)
  omega

/-- `rne t` is a nearest integer, and the even one on a tie (R113). -/
theorem rne_spec {t : ℚ} (h : 0 ≤ t) :
    |t - rne t| ≤ 1 / 2 ∧ (|t - rne t| = 1 / 2 → rne t % 2 = 0) := by
  have f0 : 0 ≤ ⌊t⌋ := Int.floor_nonneg.mpr h
  have fc : ((⌊t⌋.toNat : Nat) : ℚ) = ⌊t⌋ := by exact_mod_cast congrArg (Int.cast (R := ℚ)) (Int.toNat_of_nonneg f0)
  have l1 : (⌊t⌋ : ℚ) ≤ t := Int.floor_le t
  have l2 : t < ⌊t⌋ + 1 := Int.lt_floor_add_one t
  have half : mkRat 1 2 = (1 / 2 : ℚ) := by rw [Rat.mkRat_eq_div]; norm_num
  unfold rne
  rw [floor_eq, add_eq, ofInt_eq, half, ← sub_eq_add_neg]
  split_ifs with h1 h2 h3
  · rw [fc, abs_of_nonneg (by linarith)]; exact ⟨h1.le, fun e => absurd e h1.ne⟩
  · push_cast; rw [fc, abs_of_nonpos (by linarith)]
    exact ⟨by linarith, fun e => by linarith⟩
  · rw [fc, abs_of_nonneg (by linarith)]; exact ⟨by linarith, fun _ => h3⟩
  · push_cast; rw [fc, abs_of_nonpos (by linarith)]
    exact ⟨by linarith, fun _ => by omega⟩

/-- An integer is its own rounding. -/
@[simp] theorem rne_natCast (n : Nat) : rne n = n := by
  obtain ⟨h, -⟩ := rne_spec (t := n) (Nat.cast_nonneg n)
  have : |((n : Int) - rne (n : ℚ) : ℤ)| < 1 := by
    have h2 : |(((n : Int) - rne (n : ℚ) : ℤ) : ℚ)| < 1 := by push_cast; linarith
    exact_mod_cast h2
  have := abs_lt.mp this
  omega

theorem isqrtFrom_spec (n : Nat) : ∀ (k r : Nat), r ^ 2 ≤ n → n < (r + 2 ^ k) ^ 2 →
    isqrtFrom n k r ^ 2 ≤ n ∧ n < (isqrtFrom n k r + 1) ^ 2
  | 0, r, h1, h2 => by simpa [isqrtFrom] using ⟨h1, h2⟩
  | k + 1, r, h1, h2 => by
    unfold isqrtFrom
    rw [twoPow_eq]
    split
    · exact isqrtFrom_spec n k _ ‹_› (by rwa [add_assoc, ← two_mul, ← pow_succ'])
    · exact isqrtFrom_spec n k r h1 (Nat.lt_of_not_le ‹_›)

/-- `isqrt n` is the integer square root (R187). -/
theorem isqrt_spec (n : Nat) : isqrt n ^ 2 ≤ n ∧ n < (isqrt n + 1) ^ 2 := by
  refine isqrtFrom_spec n _ 0 (by simp) ?_
  calc n < 2 ^ (n.log2 + 1) := Nat.lt_log2_self
    _ ≤ 2 ^ ((n.log2 / 2 + 1) * 2) := Nat.pow_le_pow_right (by simp) (by omega)
    _ = _ := by rw [pow_mul, Nat.zero_add]

end Sys2Proof.Machine.Exact
end

