-- ==== Sys2Proof/Laws/BitCodec.lean ====
section
/-! SUPPORT. The bit level of decode and encode: the fields of a packed pair, which bits a precision reads, and the value
level: a positive number between two powers of two scales to an integer significand and back. -/

namespace Sys2Proof.Machine

/-- The width of the significand field as packed: the fraction of SINGLE and DOUBLE, all 64 bits of EXTENDED. -/
def Fields.sigBits : Precision → Nat
  | .single => 23
  | .double => 52
  | .extended => 64

/-- The fields fit their places in the encoding. -/
def Fields.Fit (p : Precision) (f : Fields) : Prop := f.exp < 2 ^ p.expBits ∧ f.sig < 2 ^ Fields.sigBits p

theorem fields_fit (p : Precision) (b : Pair) : (fields p b).Fit p := by
  cases p <;> exact ⟨BitVec.isLt _, BitVec.isLt _⟩

theorem single_sign (s : Bool) (e : BitVec 8) (g : BitVec 23) :
    ((BitVec.ofBool s ++ e ++ g).setWidth 64).getLsbD 31 = s := by
  rw [BitVec.getLsbD_setWidth]; grind

theorem single_exp (s : Bool) (e : BitVec 8) (g : BitVec 23) :
    ((BitVec.ofBool s ++ e ++ g).setWidth 64).extractLsb' 23 8 = e := by
  ext i hi; simp; grind

theorem single_sig (s : Bool) (e : BitVec 8) (g : BitVec 23) :
    ((BitVec.ofBool s ++ e ++ g).setWidth 64).extractLsb' 0 23 = g := by
  ext i hi; simp; grind

theorem double_sign (s : Bool) (e : BitVec 11) (g : BitVec 52) :
    ((BitVec.ofBool s ++ e ++ g).setWidth 64).getLsbD 63 = s := by
  rw [BitVec.getLsbD_setWidth]; grind

theorem double_exp (s : Bool) (e : BitVec 11) (g : BitVec 52) :
    ((BitVec.ofBool s ++ e ++ g).setWidth 64).extractLsb' 52 11 = e := by
  ext i hi; simp; grind

theorem double_sig (s : Bool) (e : BitVec 11) (g : BitVec 52) :
    ((BitVec.ofBool s ++ e ++ g).setWidth 64).extractLsb' 0 52 = g := by
  ext i hi; simp; grind

theorem extended_sign (s : Bool) (e : BitVec 15) : ((BitVec.ofBool s ++ e).setWidth 64).getLsbD 15 = s := by
  rw [BitVec.getLsbD_setWidth]; grind

theorem extended_exp (s : Bool) (e : BitVec 15) : ((BitVec.ofBool s ++ e).setWidth 64).extractLsb' 0 15 = e := by
  ext i hi; simp; grind

/-- Reading the fields of a packed pair gives them back. -/
theorem fields_packFields {p : Precision} {f : Fields} (h : f.Fit p) : fields p (packFields p f) = f := by
  obtain ⟨s, e, g⟩ := f
  obtain ⟨h1, h2⟩ := h
  cases p <;> simp only [Precision.expBits, Fields.sigBits] at h1 h2
  · simp only [fields, packFields, single_sign, single_exp, single_sig, BitVec.toNat_ofNat, Nat.mod_eq_of_lt h1,
      Nat.mod_eq_of_lt h2]
  · simp only [fields, packFields, double_sign, double_exp, double_sig, BitVec.toNat_ofNat, Nat.mod_eq_of_lt h1,
      Nat.mod_eq_of_lt h2]
  · simp only [fields, packFields, extended_sign, extended_exp, BitVec.toNat_ofNat, Nat.mod_eq_of_lt h1,
      Nat.mod_eq_of_lt h2]

theorem single_pack (b : Word) :
    (BitVec.ofBool (b.getLsbD 31) ++ b.extractLsb' 23 8 ++ b.extractLsb' 0 23).setWidth 64
      = (b.setWidth 32).setWidth 64 := by
  ext i hi; simp; grind

theorem double_pack (b : Word) :
    (BitVec.ofBool (b.getLsbD 63) ++ b.extractLsb' 52 11 ++ b.extractLsb' 0 52).setWidth 64 = b := by
  ext i hi; simp; grind

theorem extended_pack (b : Word) :
    (BitVec.ofBool (b.getLsbD 15) ++ b.extractLsb' 0 15).setWidth 64 = (b.setWidth 16).setWidth 64 := by
  ext i hi; simp; grind

/-- Packing the fields of a pair gives the pair with its unused bits cleared (R100, R107). -/
theorem packFields_fields (p : Precision) (b : Pair) : packFields p (fields p b) = canonPair p b := by
  cases p
  · simp only [fields, packFields, canonPair, BitVec.ofNat_toNat, BitVec.setWidth_eq, single_pack]
  · simp only [fields, packFields, canonPair, BitVec.ofNat_toNat, BitVec.setWidth_eq]
    exact congrArg (Pair.mk · 0#64) (double_pack b.m)
  · simp only [fields, packFields, canonPair, BitVec.ofNat_toNat, BitVec.setWidth_eq, extended_pack]

/-- The bits a precision does not use are not read (R100). -/
theorem fields_canonPair (p : Precision) (b : Pair) : fields p (canonPair p b) = fields p b := by
  rw [← packFields_fields, fields_packFields (fields_fit p b)]

theorem decodeValue_canonPair (p : Precision) (b : Pair) : decodeValue p (canonPair p b) = decodeValue p b := by
  cases p <;> simp only [decodeValue, fields_canonPair]

@[simp] theorem canonPair_canonPair (p : Precision) (b : Pair) : canonPair p (canonPair p b) = canonPair p b := by
  rw [← packFields_fields, fields_canonPair, packFields_fields]

theorem toNat_setWidth_lt {n : Nat} (x : BitVec n) : (x.setWidth 64).toNat < 2 ^ n := by
  rw [BitVec.toNat_setWidth]; exact (Nat.mod_le _ _).trans_lt x.isLt

/-- A pair with its unused bits cleared has them zero. -/
theorem canonPair_unusedZero (p : Precision) (b : Pair) : (canonPair p b).unusedZero p = true := by
  cases p
  · exact Bool.and_eq_true_iff.mpr ⟨decide_eq_true (toNat_setWidth_lt _), rfl⟩
  · rfl
  · exact decide_eq_true (toNat_setWidth_lt _)

/-- Packed fields leave the unused bits zero (R107). -/
theorem packFields_unusedZero (p : Precision) (f : Fields) : (packFields p f).unusedZero p = true := by
  cases p
  · exact Bool.and_eq_true_iff.mpr ⟨decide_eq_true (toNat_setWidth_lt (n := 1 + 8 + 23) _), rfl⟩
  · rfl
  · exact decide_eq_true (toNat_setWidth_lt (n := 1 + 15) _)

/-- Every encoded value has its unused bits zero, whatever the value (R107). -/
theorem encodeValue_unusedZero (p : Precision) (v : Value) : (encodeValue p v).unusedZero p = true := by
  unfold encodeValue
  cases p <;> exact packFields_unusedZero _ _

/-- An EXTENDED pair decodes to no value exactly when its bits are one of the encodings of R104. -/
theorem decodeValue_eq_none (p : Precision) (b : Pair) :
    decodeValue p b = none ↔ p = .extended ∧ b.nonCanonical = true := by
  cases p
  · simp [decodeValue]
  · simp [decodeValue]
  · have h := (b.es.extractLsb' 0 15).isLt
    have hz : b.m.toNat = 0 → b.m.getLsbD 63 = false := fun h0 => by
      rw [show b.m = 0#64 from BitVec.eq_of_toNat_eq (by simpa using h0)]; rfl
    have hj : b.m.toNat.testBit 63 = b.m.getLsbD 63 := rfl
    simp only [decodeValue, decodeExtended, fields, Pair.nonCanonical, hj]
    generalize (b.es.extractLsb' 0 15).toNat = e at h
    generalize b.m.getLsbD 63 = j at hz
    rcases Nat.eq_zero_or_pos e with rfl | he
    · by_cases hs : b.m.toNat = 0
      · simp [hs, hz hs]
      · cases j <;> simp [hs]
    · have he' : e ≠ 0 := by omega
      by_cases hm : e < 0x7FFF
      · cases j <;> simp [he, he', hm]
      · have : e = 0x7FFF := by omega
        subst this
        cases j
        · simp
        · simp; split <;> simp

end Sys2Proof.Machine
end

