-- ==== Sys2Proof/Laws/Decode.lean ====
section
/-! SUPPORT. The packet: each field of a command word that is written is read back, the elements are read back from their
words, and a packet has the length its command word announces. -/

namespace Sys2Proof

@[simp] theorem Op.ofCode?_code (o : Op) : Op.ofCode? o.code = some o := by cases o <;> rfl

/-- A code names an operation exactly when the operation map lists it (R60, R63). -/
theorem Op.ofCode?_eq_some {c : BitVec 8} {o : Op} : Op.ofCode? c = some o ↔ o.code = c := by
  constructor
  · intro h
    simpa using List.find?_some h
  · rintro rfl; simp

variable (o : Op) (ta tb tc : TypeCode) (cnt : BitVec 16)

@[simp] theorem cmdOpc_cmdWord : cmdOpc (cmdWord o ta tb tc cnt) = o.code := by
  ext i hi; simp [cmdOpc, cmdWord]; grind

@[simp] theorem cmdTa_cmdWord : cmdTa (cmdWord o ta tb tc cnt) = ta := by
  ext i hi; simp [cmdTa, cmdWord]; grind

@[simp] theorem cmdTb_cmdWord : cmdTb (cmdWord o ta tb tc cnt) = tb := by
  ext i hi; simp [cmdTb, cmdWord]; grind

@[simp] theorem cmdTc_cmdWord : cmdTc (cmdWord o ta tb tc cnt) = tc := by
  ext i hi; simp [cmdTc, cmdWord]; grind

@[simp] theorem cmdCnt_cmdWord : cmdCnt (cmdWord o ta tb tc cnt) = cnt := by
  ext i hi; simp [cmdCnt, cmdWord]; grind

@[simp] theorem cmdRsv_cmdWord : cmdRsv (cmdWord o ta tb tc cnt) = 0#16 := by
  ext i hi; simp [cmdRsv, cmdWord]; grind

theorem packetLength_cmdWord : packetLength (cmdWord o ta tb tc cnt) = 8 + 3 * cnt.toNat := by
  simp [packetLength]

/-- The low byte of a tag word is the tag (R55). -/
theorem tag_of_word (t : TypeCode) : (t.setWidth 64).extractLsb' 0 8 = t := by
  ext i hi; simp; grind

/-- The elements are read back from their words (R55). -/
@[simp] theorem elements_words (es : List Elem) : elements (es.flatMap Elem.words) = es := by
  induction es with
  | nil => rfl
  | cons e es ih => simp [Elem.words, elements, ih, tag_of_word]

@[simp] theorem length_words (es : List Elem) : (es.flatMap Elem.words).length = 3 * es.length := by
  induction es with
  | nil => rfl
  | cons e es ih =>
    rw [List.flatMap_cons, List.length_append, ih, List.length_cons]
    change 3 + _ = _
    omega

/-- A packet is `8 + 3*cnt` words long (R55). -/
theorem length_packet (w : Word) (a b c : Pair) (n : Word) (es : List Elem) :
    (packet w a b c n es).length = 8 + 3 * es.length := by
  rw [packet]; simp only [List.length_cons, length_words]; omega

end Sys2Proof
end

