-- ==== Sys2Proof/Laws/State.lean ====
section
/-! SUPPORT. The fields of the state after each update of it, and the fields of each response. -/

namespace Sys2Proof.Machine

@[simp] theorem State.reset_inbox : State.reset.inbox = [] := rfl
@[simp] theorem State.reset_outbox : State.reset.outbox = [] := rfl

@[simp] theorem State.deliver_inbox (s : State) (r : Response) : (s.deliver r).inbox = s.inbox := rfl
@[simp] theorem State.deliver_outbox (s : State) (r : Response) : (s.deliver r).outbox = s.outbox ++ [r] := rfl

@[simp] theorem State.withPacket_inbox (s : State) (ws : List Word) : (s.withPacket ws).inbox = ws ++ s.inbox := rfl
@[simp] theorem State.withPacket_outbox (s : State) (ws : List Word) : (s.withPacket ws).outbox = s.outbox := rfl

@[simp] theorem State.hostIssue_inbox (s : State) (ws : List Word) : (s.hostIssue ws).inbox = s.inbox ++ ws := rfl
@[simp] theorem State.hostIssue_outbox (s : State) (ws : List Word) : (s.hostIssue ws).outbox = s.outbox := rfl

@[simp] theorem State.hostCollect_inbox (s : State) : s.hostCollect.inbox = s.inbox := rfl
@[simp] theorem State.hostCollect_outbox (s : State) : s.hostCollect.outbox = s.outbox.tail := rfl

@[simp] theorem State.resetSignal_inbox (s : State) : s.resetSignal.inbox = [] := rfl
@[simp] theorem State.resetSignal_outbox (s : State) : s.resetSignal.outbox = s.outbox := rfl

@[simp] theorem respondFloat_status (p : Precision) (v : Value) : (respondFloat p v).status = .ok := rfl
@[simp] theorem respondFloat_rkind (p : Precision) (v : Value) : (respondFloat p v).rkind = .float := rfl
@[simp] theorem respondFloat_rtag (p : Precision) (v : Value) :
    (respondFloat p v).rtag = BitVec.ofNat 8 p.ordinal := rfl
@[simp] theorem respondFloat_pair (p : Precision) (v : Value) :
    (⟨(respondFloat p v).m, (respondFloat p v).es⟩ : Pair) = encodeValue p v := rfl

@[simp] theorem respondInt_status (w : Width) (i : Int) : (respondInt w i).status = .ok := rfl
@[simp] theorem respondInt_rkind (w : Width) (i : Int) : (respondInt w i).rkind = .int := rfl
@[simp] theorem respondInt_rtag (w : Width) (i : Int) : (respondInt w i).rtag = BitVec.ofNat 8 w.bits := rfl
@[simp] theorem respondInt_m (w : Width) (i : Int) : (respondInt w i).m = BitVec.ofInt 64 i := rfl
@[simp] theorem respondInt_es (w : Width) (i : Int) : (respondInt w i).es = 0#64 := rfl

@[simp] theorem respondBool_status (b : Bool) : (respondBool b).status = .ok := rfl
@[simp] theorem respondBool_rkind (b : Bool) : (respondBool b).rkind = .bool := rfl
@[simp] theorem respondBool_rtag (b : Bool) : (respondBool b).rtag = 0#8 := rfl
@[simp] theorem respondBool_m (b : Bool) : (respondBool b).m = if b then 1#64 else 0#64 := rfl
@[simp] theorem respondBool_es (b : Bool) : (respondBool b).es = 0#64 := rfl

@[simp] theorem respondError_status (e : Status) : (respondError e).status = e := rfl
@[simp] theorem respondError_rkind (e : Status) : (respondError e).rkind = .none := rfl
@[simp] theorem respondError_rtag (e : Status) : (respondError e).rtag = 0#8 := rfl
@[simp] theorem respondError_m (e : Status) : (respondError e).m = 0#64 := rfl
@[simp] theorem respondError_es (e : Status) : (respondError e).es = 0#64 := rfl

end Sys2Proof.Machine
end

