-- ==== Sys2Proof/Laws/Operands.lean ====
section
/-! SUPPORT. What each frame of `Machine/Operands.lean` does, said once: its error, its refusal, and its answer. The
meanings of the instructions are instances of these frames. -/

namespace Sys2Proof

@[simp] theorem Precision.ofCode?_ordinal (p : Precision) : Precision.ofCode? (BitVec.ofNat 8 p.ordinal) = some p := by
  cases p <;> rfl

theorem Precision.ofCode?_eq_some {t : TypeCode} {p : Precision} :
    Precision.ofCode? t = some p ↔ t = BitVec.ofNat 8 p.ordinal := by
  constructor
  · unfold Precision.ofCode?
    split_ifs with h0 h1 h2 <;> simp +contextual [*, eq_comm, Precision.ordinal]
  · rintro rfl; simp

theorem Precision.ofCode?_eq_none {t : TypeCode} : Precision.ofCode? t = none ↔ t.isPrecision = false := by
  revert t; decide

theorem Width.ofCode?_eq_some {t : TypeCode} {w : Width} : Width.ofCode? t = some w ↔ t = BitVec.ofNat 8 w.bits := by
  revert t; cases w <;> decide

theorem Width.ofCode?_eq_none {t : TypeCode} : Width.ofCode? t = none ↔ t.isWidth = false := by
  revert t; decide

namespace Machine

variable {s : State} {t ta tb tc : TypeCode} {p q r : Precision} {a b c : Pair} {x y z : Value}

theorem withPrecision_legal (k : Precision → Result) (h : Precision.ofCode? t = some p) :
    withPrecision t s k = k p := by simp [withPrecision, h]

theorem withPrecision_illegal (k : Precision → Result) (h : Precision.ofCode? t = none) :
    withPrecision t s k = raise .unsupportedType s := by simp [withPrecision, h]

theorem withWidth_legal (k : Width → Result) {w : Width} (h : Width.ofCode? t = some w) :
    withWidth t s k = k w := by simp [withWidth, h]

theorem withWidth_illegal (k : Width → Result) (h : Width.ofCode? t = none) :
    withWidth t s k = raise .unsupportedType s := by simp [withWidth, h]

theorem withValue_value (k : Value → Result) (h : decodeValue p a = some x) : withValue p a k = k x := by
  simp [withValue, h]

theorem withValue_nonCanonical (k : Value → Result) (h : decodeValue p a = none) :
    withValue p a k = .refused .extNonCanonical := by simp [withValue, h]

theorem withElems_legal (k : List (Precision × Pair) → Result) {es : List Elem} {ds : List (Precision × Pair)}
    (h : typedElems es = some ds) : withElems es s k = k ds := by simp [withElems, h]

theorem withElems_illegal (k : List (Precision × Pair) → Result) {es : List Elem} (h : typedElems es = none) :
    withElems es s k = raise .unsupportedType s := by simp [withElems, h]

theorem withValues_values (k : List Value → Result) {ds : List (Precision × Pair)} {vs : List Value}
    (h : decodeAll ds = some vs) : withValues ds k = k vs := by simp [withValues, h]

theorem withValues_nonCanonical (k : List Value → Result) {ds : List (Precision × Pair)} (h : decodeAll ds = none) :
    withValues ds k = .refused .extNonCanonical := by simp [withValues, h]

/-- The answer of an operation of format U with a FLOAT result. -/
theorem unaryFloat_answer (o : Op) (f : Precision → Value → Value → Value)
    (hp : Precision.ofCode? ta = some p) (hx : decodeValue p a = some x) :
    unaryFloat o f ta a s = .next (s.deliver (respondFloat p (f p (qNaN o p [datum p a]) x))) := by
  simp [unaryFloat, withPrecision_legal _ hp, withValue_value _ hx, answer]

/-- The answer of an operation of format U with a BOOL result. -/
theorem unaryBool_answer (f : Value → Bool) (hp : Precision.ofCode? ta = some p) (hx : decodeValue p a = some x) :
    unaryBool f ta a s = .next (s.deliver (respondBool (f x))) := by
  simp [unaryBool, withPrecision_legal _ hp, withValue_value _ hx, answer]

/-- The answer of an operation of format B with a FLOAT result. -/
theorem binaryFloat_answer (o : Op) (f : Precision → Value → Value → Value → Value)
    (hp : Precision.ofCode? ta = some p) (hq : Precision.ofCode? tb = some q)
    (hx : decodeValue p a = some x) (hy : decodeValue q b = some y) :
    binaryFloat o f ta tb a b s =
      .next (s.deliver (respondFloat (promote p q)
        (f (promote p q) (qNaN o (promote p q) [datum p a, datum q b]) x y))) := by
  simp [binaryFloat, withPrecision_legal _ hp, withPrecision_legal _ hq, withValue_value _ hx, withValue_value _ hy,
    answer]

/-- The answer of an operation of format B with a BOOL result. -/
theorem binaryBool_answer (f : Value → Value → Bool)
    (hp : Precision.ofCode? ta = some p) (hq : Precision.ofCode? tb = some q)
    (hx : decodeValue p a = some x) (hy : decodeValue q b = some y) :
    binaryBool f ta tb a b s = .next (s.deliver (respondBool (f x y))) := by
  simp [binaryBool, withPrecision_legal _ hp, withPrecision_legal _ hq, withValue_value _ hx, withValue_value _ hy,
    answer]

/-- The answer of an operation of format V. -/
theorem variadicFold_answer (o : Op) (step : Precision → Value → Value → Value → Value) {es : List Elem}
    {ds : List (Precision × Pair)} {ys : List Value}
    (hp : Precision.ofCode? ta = some p) (hd : typedElems es = some ds)
    (hx : decodeValue p a = some x) (hy : decodeAll ds = some ys) :
    variadicFold o step ta a es s =
      .next (s.deliver (respondFloat (maxPrecision p ds)
        (ys.foldl (step (maxPrecision p ds) (qNaN o (maxPrecision p ds) (variadicOperands p a ds))) x))) := by
  simp [variadicFold, withPrecision_legal _ hp, withElems_legal _ hd, withValue_value _ hx, withValues_values _ hy,
    answer]

/-- What every outcome of a request is, as a function of the state: one response, the same in every state, delivered and
nothing else changed; or the refusal of a non-canonical operand, in every state. A frame keeps this form if what it is
continued by has it. -/
def Uniform (f : State → Result) : Prop :=
  (∃ r, ∀ s, f s = .next (s.deliver r)) ∨ ∀ s, f s = .refused .extNonCanonical

theorem uniform_answer (r : Response) : Uniform fun s => answer s r := .inl ⟨r, fun _ => rfl⟩

theorem uniform_raise (e : Status) : Uniform (raise e) := .inl ⟨respondError e, fun _ => rfl⟩

theorem uniform_withPrecision {k : Precision → State → Result} (h : ∀ p, Uniform (k p)) :
    Uniform fun s => withPrecision t s fun p => k p s := by
  unfold withPrecision; split
  · exact h _
  · exact uniform_raise _

theorem uniform_withWidth {k : Width → State → Result} (h : ∀ w, Uniform (k w)) :
    Uniform fun s => withWidth t s fun w => k w s := by
  unfold withWidth; split
  · exact h _
  · exact uniform_raise _

theorem uniform_withElems {es : List Elem} {k : List (Precision × Pair) → State → Result} (h : ∀ ds, Uniform (k ds)) :
    Uniform fun s => withElems es s fun ds => k ds s := by
  unfold withElems; split
  · exact h _
  · exact uniform_raise _

theorem uniform_withValue {k : Value → State → Result} (h : ∀ x, Uniform (k x)) :
    Uniform fun s => withValue p a fun x => k x s := by
  unfold withValue; split
  · exact h _
  · exact .inr fun _ => rfl

theorem uniform_withValues {ds : List (Precision × Pair)} {k : List Value → State → Result} (h : ∀ xs, Uniform (k xs)) :
    Uniform fun s => withValues ds fun xs => k xs s := by
  unfold withValues; split
  · exact h _
  · exact .inr fun _ => rfl

end Machine
end Sys2Proof
end

