-- ==== Sys2Proof/Laws/PerInstr.lean ====
section
/-! SUPPORT. A statement made for every instruction: its packet is framed by its own command word. One lemma for each
constructor of `Instr`. -/

namespace Sys2Proof.Laws.PacketLength

/-- The packet of a request begins with a command word that announces the packet's length (R55, R64, R67). -/
def Statement (i : Instr) : Prop :=
  i.wf = true → ∃ w rest, encode i = w :: rest ∧ (encode i).length = packetLength w

/-- The packet of a request without elements. -/
theorem fixed (o : Op) (ta tb tc : TypeCode) (a b c : Pair) (n : Word) :
    ∃ w rest, packet (cmdWord o ta tb tc 0#16) a b c n [] = w :: rest ∧
      (packet (cmdWord o ta tb tc 0#16) a b c n []).length = packetLength w :=
  ⟨_, _, rfl, by rw [length_packet, packetLength_cmdWord]; rfl⟩

/-- The packet of a variadic request, whose elements fit the count field. -/
theorem variadic (o : Op) (ta : TypeCode) (a b c : Pair) (n : Word) (es : List Elem) (h : es.length ≤ Config.maxCnt) :
    ∃ w rest, packet (cmdWord o ta 0#8 0#8 (BitVec.ofNat 16 es.length)) a b c n es = w :: rest ∧
      (packet (cmdWord o ta 0#8 0#8 (BitVec.ofNat 16 es.length)) a b c n es).length = packetLength w := by
  refine ⟨_, _, rfl, ?_⟩
  rw [length_packet, packetLength_cmdWord, BitVec.toNat_ofNat, Nat.mod_eq_of_lt (show es.length < 2 ^ 16 from Nat.lt_succ_of_le h)]

theorem add (ta tb : TypeCode) (a b : Pair) : Statement (.add ta tb a b) := fun _ => fixed ..
theorem sub (ta tb : TypeCode) (a b : Pair) : Statement (.sub ta tb a b) := fun _ => fixed ..
theorem mul (ta tb : TypeCode) (a b : Pair) : Statement (.mul ta tb a b) := fun _ => fixed ..
theorem div (ta tb : TypeCode) (a b : Pair) : Statement (.div ta tb a b) := fun _ => fixed ..
theorem add3 (ta tb tc : TypeCode) (a b c : Pair) : Statement (.add3 ta tb tc a b c) := fun _ => fixed ..
theorem addmany (ta : TypeCode) (a : Pair) (es : List Elem) : Statement (.addmany ta a es) :=
  fun h => variadic _ _ _ _ _ _ _ (of_decide_eq_true h)
theorem mulmany (ta : TypeCode) (a : Pair) (es : List Elem) : Statement (.mulmany ta a es) :=
  fun h => variadic _ _ _ _ _ _ _ (of_decide_eq_true h)
theorem powi (ta : TypeCode) (a : Pair) (n : Word) : Statement (.powi ta a n) := fun _ => fixed ..
theorem pow (ta tb : TypeCode) (a b : Pair) : Statement (.pow ta tb a b) := fun _ => fixed ..
theorem log (ta : TypeCode) (a : Pair) : Statement (.log ta a) := fun _ => fixed ..
theorem exp (ta : TypeCode) (a : Pair) : Statement (.exp ta a) := fun _ => fixed ..
theorem sqrt (ta : TypeCode) (a : Pair) : Statement (.sqrt ta a) := fun _ => fixed ..
theorem round (ta : TypeCode) (a : Pair) : Statement (.round ta a) := fun _ => fixed ..
theorem trunc (ta : TypeCode) (a : Pair) : Statement (.trunc ta a) := fun _ => fixed ..
theorem ceil (ta : TypeCode) (a : Pair) : Statement (.ceil ta a) := fun _ => fixed ..
theorem floor (ta : TypeCode) (a : Pair) : Statement (.floor ta a) := fun _ => fixed ..
theorem abs (ta : TypeCode) (a : Pair) : Statement (.abs ta a) := fun _ => fixed ..
theorem copysign (ta : TypeCode) (a b : Pair) : Statement (.copysign ta a b) := fun _ => fixed ..
theorem iszero (ta : TypeCode) (a : Pair) : Statement (.iszero ta a) := fun _ => fixed ..
theorem isone (ta : TypeCode) (a : Pair) : Statement (.isone ta a) := fun _ => fixed ..
theorem isnan (ta : TypeCode) (a : Pair) : Statement (.isnan ta a) := fun _ => fixed ..
theorem isinf (ta : TypeCode) (a : Pair) : Statement (.isinf ta a) := fun _ => fixed ..
theorem isneg (ta : TypeCode) (a : Pair) : Statement (.isneg ta a) := fun _ => fixed ..
theorem isgt (ta tb : TypeCode) (a b : Pair) : Statement (.isgt ta tb a b) := fun _ => fixed ..
theorem cvtff (ta tc : TypeCode) (a : Pair) : Statement (.cvtff ta tc a) := fun _ => fixed ..
theorem cvtif (ta tc : TypeCode) (n : Word) : Statement (.cvtif ta tc n) := fun _ => fixed ..
theorem cvtfi (ta tc : TypeCode) (a : Pair) : Statement (.cvtfi ta tc a) := fun _ => fixed ..

end Sys2Proof.Laws.PacketLength
end

