-- ==== Sys2Proof/Laws/Rounding.lean ====
section
/-! SUPPORT. The rounding function and the generated NaN, each said once: the quantum, the rounded multiple and its bounds,
the three outcomes of rounding, and what a quiet NaN is. -/

namespace Sys2Proof

/-- The precision of a format is one more than its fraction bits for SINGLE and DOUBLE, and for EXTENDED too (R90). -/
theorem Precision.prec_eq (p : Precision) : p.prec = p.fracBits + 1 := by cases p <;> rfl

theorem Precision.prec_pos (p : Precision) : 0 < p.prec := by cases p <;> decide

namespace Machine

/-- A slot is read through the code of its precision and the bits of that precision. -/
theorem reads_iff {t : TypeCode} {b : Pair} {p : Precision} {x : Value} :
    Reads t b p x ↔ Precision.ofCode? t = some p ∧ decodeValue p b = some x := by
  unfold Reads
  rw [Precision.ofCode?_eq_some, ← BitVec.toNat_inj, BitVec.toNat_ofNat]
  cases p <;> rfl

/-- A code whose number is an ordinal names that precision. -/
theorem ofCode?_of_toNat {t : TypeCode} {p : Precision} (h : t.toNat = p.ordinal) : Precision.ofCode? t = some p := by
  rw [Precision.ofCode?_eq_some, ← BitVec.toNat_inj, BitVec.toNat_ofNat, h]
  cases p <;> rfl

/-- A code whose number is a width names that width. -/
theorem widthOfCode?_of_toNat {t : TypeCode} {w : Width} (h : t.toNat = w.bits) : Width.ofCode? t = some w := by
  rw [Width.ofCode?_eq_some, ← BitVec.toNat_inj, BitVec.toNat_ofNat, h]
  cases w <;> rfl

/-- Masking the low bits is cutting them out (R65). -/
theorem and_mask (x : Word) {k : Nat} (hk : k < 64) : x &&& BitVec.ofNat 64 (2 ^ k - 1) = (x.setWidth k).setWidth 64 := by
  apply BitVec.eq_of_toNat_eq
  have h1 : 2 ^ k < 2 ^ 64 := Nat.pow_lt_pow_right (by decide) hk
  have h2 : x.toNat % 2 ^ k < 2 ^ k := Nat.mod_lt _ (by positivity)
  rw [BitVec.toNat_and, BitVec.toNat_ofNat, Nat.mod_eq_of_lt (by omega), Nat.and_two_pow_sub_one_eq_mod,
    BitVec.toNat_setWidth, BitVec.toNat_setWidth, Nat.mod_eq_of_lt (h2.trans h1)]

/-- The used bits by the type code are the used bits by the precision it names. -/
theorem usedOnly_eq {t : TypeCode} {p : Precision} (h : Precision.ofCode? t = some p) (b : Pair) :
    b.usedOnly t = canonPair p b := by
  rw [Precision.ofCode?_eq_some] at h
  subst h
  cases p
  · exact congrArg (Pair.mk · 0#64) (and_mask b.m (k := 32) (by decide))
  · rfl
  · exact congrArg (Pair.mk b.m) (and_mask b.es (k := 16) (by decide))

/-- The NaN built from any word is quiet (R118). -/
theorem quietNaN_quiet (p : Precision) (r : Word) : QuietNaN p (quietNaN p r) := by
  refine ⟨_, _, rfl, Nat.le_add_right _ _, ?_⟩
  have h1 : r.toNat % 2 ^ (p.fracBits - 1) < 2 ^ (p.fracBits - 1) := Nat.mod_lt _ (by positivity)
  have h2 : 2 ^ p.fracBits = 2 ^ (p.fracBits - 1) + 2 ^ (p.fracBits - 1) := by cases p <;> rfl
  omega

theorem qNaN_quiet (o : Op) (p : Precision) (operands : List Operand) : QuietNaN p (qNaN o p operands) :=
  quietNaN_quiet _ _

variable {p : Precision} {a x : ℚ} {s0 : Bool}

@[simp] theorem roundedMagnitude_eq (p : Precision) (a : ℚ) :
    roundedMagnitude p a = roundedMultiple p a * 2 ^ quantum p a := by
  simp [roundedMagnitude]

/-- The exact magnitude as a multiple of the quantum. -/
theorem scaled_eq (p : Precision) (a : ℚ) : Exact.mul a (Exact.pow2 (-quantum p a)) = a / 2 ^ quantum p a := by
  rw [Exact.mul_eq, Exact.pow2_eq, zpow_neg, div_eq_mul_inv]

/-- The rounded multiple is the nearest, and the even one on a tie (R113). -/
theorem roundedMultiple_nearest (h : 0 ≤ a) :
    |a / 2 ^ quantum p a - roundedMultiple p a| ≤ 1 / 2 ∧
      (|a / 2 ^ quantum p a - roundedMultiple p a| = 1 / 2 → roundedMultiple p a % 2 = 0) := by
  rw [roundedMultiple, scaled_eq]
  exact Exact.rne_spec (by positivity)

/-- A positive magnitude is less than `2^P` quanta. -/
theorem scaled_lt (h : 0 < a) : a / 2 ^ quantum p a < 2 ^ p.prec := by
  rw [div_lt_iff₀ (by positivity), ← zpow_natCast, ← zpow_add₀ two_ne_zero]
  refine (Exact.floorLog2_spec h).2.trans_le (zpow_le_zpow_right₀ one_le_two ?_)
  unfold quantum
  omega

/-- A magnitude in the normal range is at least `2^(P-1)` quanta. -/
theorem le_scaled (h : 0 < a) (hn : p.emin ≤ Exact.floorLog2 a) : 2 ^ (p.prec - 1) ≤ a / 2 ^ quantum p a := by
  rw [le_div_iff₀ (by positivity), ← zpow_natCast, ← zpow_add₀ two_ne_zero]
  refine le_trans (zpow_le_zpow_right₀ one_le_two ?_) (Exact.floorLog2_spec h).1
  unfold quantum
  have := p.prec_pos
  omega

/-- Rounding `0` gives a zero of the given sign. -/
@[simp] theorem roundTo_zero (p : Precision) (s0 : Bool) : roundTo p 0 s0 = .zero s0 := if_pos rfl

/-- The three outcomes of rounding a number that is not 0 (R113). -/
theorem roundTo_cases (h : x ≠ 0) :
    (2 ^ (p.emax + 1) ≤ roundedMagnitude p |x| ∧ roundTo p x s0 = .inf (decide (x < 0))) ∨
      (roundedMagnitude p |x| < 2 ^ (p.emax + 1) ∧ roundedMagnitude p |x| = 0 ∧
        roundTo p x s0 = .zero (decide (x < 0))) ∨
      (roundedMagnitude p |x| < 2 ^ (p.emax + 1) ∧ roundedMagnitude p |x| ≠ 0 ∧
        roundTo p x s0 = .fin (if x < 0 then -roundedMagnitude p |x| else roundedMagnitude p |x|)) := by
  unfold roundTo
  rw [if_neg h, Exact.pow2_eq, Exact.abs_eq]
  split_ifs with h1 h2 h3
  · exact .inl ⟨h1, rfl⟩
  · exact .inr (.inl ⟨not_le.mp h1, h2, rfl⟩)
  · exact .inr (.inr ⟨not_le.mp h1, h2, by simp [h3]⟩)
  · exact .inr (.inr ⟨not_le.mp h1, h2, by simp [h3]⟩)

/-- A magnitude that is a whole number of its quanta is its own rounding. -/
theorem roundedMagnitude_of_multiple {n : Nat} (h : a = n * 2 ^ quantum p a) : roundedMagnitude p a = a := by
  have hz : (2 : ℚ) ^ quantum p a ≠ 0 := by positivity
  have : a / 2 ^ quantum p a = n := by rw [div_eq_iff hz]; exact h
  rw [roundedMagnitude_eq, roundedMultiple, scaled_eq, this, Exact.rne_natCast]
  exact h.symm

end Machine

/-! The tests of the power function are the classes of R179. -/

theorem Value.signalling_iff (x : Value) : x.Signalling ↔ x.isSignalling = true := by
  cases x <;> simp [Value.Signalling, Value.isSignalling]

theorem Value.below_iff (y : Value) : y.Below ↔ y.isBelowZero = true := by
  cases y <;> simp [Value.Below, Value.isBelowZero]

theorem Value.insideUnit_iff (x : Value) : x.InsideUnit ↔ x.isBelowOne = true := by
  cases x <;> simp [Value.InsideUnit, Value.isBelowOne, Value.isZero]

theorem Value.integer_iff (y : Value) : (∃ k : ℤ, y = .fin k) ↔ y.isInteger = true := by
  cases y
  case fin v =>
    simp only [Value.fin.injEq, Value.isInteger, beq_iff_eq]
    constructor
    · rintro ⟨k, rfl⟩; simp
    · intro h; exact ⟨v.num, ((Rat.den_eq_one_iff v).mp h).symm⟩
  all_goals simp [Value.isInteger]

theorem Value.oddInteger_iff (y : Value) : y.OddInteger ↔ y.isOddInteger = true := by
  cases y
  case fin v =>
    simp only [Value.OddInteger, Value.fin.injEq, Value.isOddInteger, Bool.and_eq_true, beq_iff_eq]
    constructor
    · rintro ⟨k, rfl⟩
      rw [show 2 * (k : ℚ) + 1 = ((2 * k + 1 : ℤ) : ℚ) by push_cast; rfl, Rat.den_intCast, Rat.num_intCast]
      omega
    · rintro ⟨hd, ho⟩
      refine ⟨v.num / 2, ?_⟩
      rw [← (Rat.den_eq_one_iff v).mp hd]
      exact_mod_cast (by omega : v.num = 2 * (v.num / 2) + 1)
  all_goals simp [Value.OddInteger, Value.isOddInteger]

end Sys2Proof
end

