-- ==== Sys2Proof/Laws/Step.lean ====
section
/-! SUPPORT. What fetching does, and what a step does around the execution of a request: everything it can answer. -/

namespace Sys2Proof.Machine

variable {s : State} {ws rest : List Word}

/-- The head of the channel is a packet: it is what is fetched, and the rest stays. -/
theorem nextRequest_packet (h : IsPacket ws) (e : s.inbox = ws ++ rest) :
    nextRequest s = some (ws, { s with inbox := rest }) := by
  obtain ⟨w, tail, rfl, hl⟩ := h
  have hp : packetLength w = (w :: tail).length := hl.symm
  have hn : ¬(w :: tail ++ rest).length < packetLength w := by rw [hp, List.length_append]; omega
  rw [nextRequest, e]
  simp only [List.cons_append] at hn ⊢
  rw [if_neg hn, hp, ← List.cons_append, List.take_left, List.drop_left]

/-- Nothing is fetched exactly when the head of the channel is no packet. -/
theorem nextRequest_eq_none : nextRequest s = none ↔ ∀ ws rest, s.inbox = ws ++ rest → ¬IsPacket ws := by
  constructor
  · intro h ws rest e hp
    rw [nextRequest_packet hp e] at h
    cases h
  · intro h
    unfold nextRequest
    split
    · rfl
    · rename_i w tail e
      split
      · rfl
      · rename_i hl
        refine absurd ?_ (h (s.inbox.take (packetLength w)) (s.inbox.drop (packetLength w)) (by simp))
        refine ⟨w, tail.take (packetLength w - 1), ?_, ?_⟩
        · rw [e]
          obtain ⟨k, hk⟩ : ∃ k, packetLength w = k + 1 := ⟨7 + 3 * (cmdCnt w).toNat, by unfold packetLength; omega⟩
          simp [hk]
        · rw [List.length_take, Nat.min_eq_left (Nat.le_of_not_lt hl)]; rfl

/-- A packet is fetched from the head of the channel, and the channel keeps what follows. -/
theorem nextRequest_eq_some {p : List Word × State} (h : nextRequest s = some p) :
    IsPacket p.1 ∧ ∃ rest, s.inbox = p.1 ++ rest ∧ p.2 = { s with inbox := rest } := by
  by_contra hc
  have : nextRequest s = none := nextRequest_eq_none.mpr fun ws rest e hp => by
    rw [nextRequest_packet hp e] at h
    cases h
    exact hc ⟨hp, rest, e, rfl⟩
  rw [this] at h
  cases h

/-- With a packet at the head of the channel a step answers it. -/
theorem step_packet (h : IsPacket ws) (e : s.inbox = ws ++ rest) :
    step s =
      match decode ws with
      | .error r => rejectPacket r { s with inbox := rest }
      | .ok i => exec i { s with inbox := rest } := by
  cases hd : decode ws <;> simp [step, nextRequest_packet h e, hd]

/-- Everything a step can do: nothing, for want of a packet; the error response to a packet that names no operation; or
what the request does that the packet decodes to. -/
theorem step_cases (s : State) :
    (nextRequest s = none ∧ step s = .next s) ∨
      ∃ ws rest, IsPacket ws ∧ s.inbox = ws ++ rest ∧
        ((∃ r, decode ws = .error r ∧
            step s = .next (({ s with inbox := rest } : State).deliver (respondError .illegalCommand))) ∨
          ∃ i, decode ws = .ok i ∧ step s = exec i { s with inbox := rest }) := by
  cases h : nextRequest s with
  | none => exact .inl ⟨rfl, by simp [step, h]⟩
  | some p =>
    obtain ⟨hp, rest, e, -⟩ := nextRequest_eq_some h
    refine .inr ⟨p.1, rest, hp, e, ?_⟩
    rw [step_packet hp e]
    cases hd : decode p.1 with
    | error r => exact .inl ⟨r, rfl, rfl⟩
    | ok i => exact .inr ⟨i, rfl, rfl⟩

end Sys2Proof.Machine
end

