-- ==== Sys2Proof/Tests/Slice0.lean ====
section
/-! SUPPORT. The model's own tests: what well-formedness refuses, the decoding of every constructor from words written
out from the spec's encoding, one transaction for each instruction with the result the spec prints for it, and for every
obligation with hypotheses a witness that meets them. Expected results are the spec's vectors, named by rule. -/

namespace Sys2Proof.Tests
open Sys2Proof.Machine

set_option maxRecDepth 100000

/-! ## Well-formedness: each check refuses an ill-formed term -/

theorem test_wf_refuses_too_many_elements (t : TypeCode) (a : Pair) (e : Elem) :
    (Instr.addmany t a (List.replicate 65536 e)).wf = false ∧
      (Instr.mulmany t a (List.replicate 65536 e)).wf = false ∧
      (Instr.addmany t a (List.replicate 65535 e)).wf = true := by
  simp only [Instr.wf, Instr.countFits, Config.maxCnt, List.length_replicate]
  decide

/-- One ill-formed term for each type code that each format reads (R267); boundary codes 3 and 7, 9, 33. -/
theorem test_types_refused :
    let z : Pair := ⟨0, 0⟩
    ([.log 3 z, .powi 3 z 0, .copysign 3 z z, .add 3 0 z z, .add 0 3 z z, .add3 3 0 0 z z z, .add3 0 3 0 z z z,
      .add3 0 0 3 z z z, .addmany 3 z [], .mulmany 0 z [⟨0, z⟩, ⟨3, z⟩], .cvtff 3 0 z, .cvtff 0 8 z, .cvtif 7 0 0,
      .cvtif 33 0 0, .cvtif 8 3 0, .cvtfi 3 8 z, .cvtfi 0 9 z, .cvtfi 0 2 z] : List Instr).map Instr.typesLegal
        = List.replicate 18 false ∧
    ([.log 2 z, .powi 0 z 0, .copysign 1 z z, .add 2 2 z z, .add3 2 1 0 z z z, .mulmany 0 z [⟨0, z⟩, ⟨2, z⟩],
      .cvtff 2 0 z, .cvtif 8 2 0, .cvtif 64 0 0, .cvtfi 2 16 z, .cvtfi 0 32 z] : List Instr).map Instr.typesLegal
        = List.replicate 11 true := by decide

/-! ## Decoding: every constructor, from words written out by R55, R56 and R60 -/

theorem test_decode_arithmetic :
    decode [0x0000000000010010, 0x3FC00000, 0, 0x4002000000000000, 0, 0, 0, 0]
      = .ok (.add 0 1 ⟨0x3FC00000, 0⟩ ⟨0x4002000000000000, 0⟩) ∧
    decode [0x0000000000000111, 0x3FF0000000000000, 0, 0x3DCCCCCD, 0, 0, 0, 0]
      = .ok (.sub 1 0 ⟨0x3FF0000000000000, 0⟩ ⟨0x3DCCCCCD, 0⟩) ∧
    decode [0x0000000000010012, 0x40400000, 0, 0x3FB999999999999A, 0, 0, 0, 0]
      = .ok (.mul 0 1 ⟨0x40400000, 0⟩ ⟨0x3FB999999999999A, 0⟩) ∧
    decode [0x0000000000020213, 0x8000000000000000, 0x3FFF, 0xC000000000000000, 0x4000, 0, 0, 0]
      = .ok (.div 2 2 ⟨0x8000000000000000, 0x3FFF⟩ ⟨0xC000000000000000, 0x4000⟩) ∧
    decode [0x0000000001000014, 0x3DCCCCCD, 0, 0x3E4CCCCD, 0, 0x3FD3333333333333, 0, 0]
      = .ok (.add3 0 0 1 ⟨0x3DCCCCCD, 0⟩ ⟨0x3E4CCCCD, 0⟩ ⟨0x3FD3333333333333, 0⟩) ∧
    decode [0x0000000200000015, 0x3FC00000, 0, 0, 0, 0, 0, 0, 0xFFFFFFFFFFFFFF02, 0x9000000000000000, 0x4000, 2,
        0xCCCCCCCCCCCCCCCD, 0x3FFB]
      = .ok (.addmany 0 ⟨0x3FC00000, 0⟩ [⟨2, ⟨0x9000000000000000, 0x4000⟩⟩, ⟨2, ⟨0xCCCCCCCCCCCCCCCD, 0x3FFB⟩⟩]) ∧
    decode [0x0000000100000016, 0x3F800000, 0, 0, 0, 0, 0, 0, 1, 0x4000000000000000, 0]
      = .ok (.mulmany 0 ⟨0x3F800000, 0⟩ [⟨1, ⟨0x4000000000000000, 0⟩⟩]) := by decide

theorem test_decode_power :
    decode [0x0000000000000020, 0x40000000, 0, 0, 0, 0, 0, 10] = .ok (.powi 0 ⟨0x40000000, 0⟩ 10) ∧
    decode [0x0000000000010021, 0x80000000, 0, 0xC008000000000000, 0, 0, 0, 0]
      = .ok (.pow 0 1 ⟨0x80000000, 0⟩ ⟨0xC008000000000000, 0⟩) ∧
    decode [0x0000000000000022, 1, 0, 0, 0, 0, 0, 0] = .ok (.log 0 ⟨1, 0⟩) ∧
    decode [0x0000000000000123, 1, 0, 0, 0, 0, 0, 0] = .ok (.exp 1 ⟨1, 0⟩) ∧
    decode [0x0000000000000224, 1, 2, 0, 0, 0, 0, 0] = .ok (.sqrt 2 ⟨1, 2⟩) := by decide

/-- The fields a format does not read are full of ones (R65). -/
theorem test_decode_rounding_and_signs :
    decode [0x00000000FFFF0130, 5, 6, 7, 8, 9, 10, 11] = .ok (.round 1 ⟨5, 6⟩) ∧
    decode [0x0000000000000131, 5, 6, 0, 0, 0, 0, 0] = .ok (.trunc 1 ⟨5, 6⟩) ∧
    decode [0x0000000000000032, 5, 6, 0, 0, 0, 0, 0] = .ok (.ceil 0 ⟨5, 6⟩) ∧
    decode [0x0000000000000133, 5, 6, 0, 0, 0, 0, 0] = .ok (.floor 1 ⟨5, 6⟩) ∧
    decode [0x0000000000000034, 5, 6, 0, 0, 0, 0, 0] = .ok (.abs 0 ⟨5, 6⟩) ∧
    decode [0x0000000000090035, 0x3F800000, 0, 0x80000000, 0, 0, 0, 0]
      = .ok (.copysign 0 ⟨0x3F800000, 0⟩ ⟨0x80000000, 0⟩) := by decide

theorem test_decode_predicates :
    decode [0x0000000000000040, 5, 6, 0, 0, 0, 0, 0] = .ok (.iszero 0 ⟨5, 6⟩) ∧
    decode [0x0000000000000141, 5, 6, 0, 0, 0, 0, 0] = .ok (.isone 1 ⟨5, 6⟩) ∧
    decode [0x0000000000000042, 5, 6, 0, 0, 0, 0, 0] = .ok (.isnan 0 ⟨5, 6⟩) ∧
    decode [0x0000000000000043, 5, 6, 0, 0, 0, 0, 0] = .ok (.isinf 0 ⟨5, 6⟩) ∧
    decode [0x0000000000000044, 5, 6, 0, 0, 0, 0, 0] = .ok (.isneg 0 ⟨5, 6⟩) ∧
    decode [0x0000000000010045, 5, 6, 7, 8, 0, 0, 0] = .ok (.isgt 0 1 ⟨5, 6⟩ ⟨7, 8⟩) := by decide

theorem test_decode_casts :
    decode [0x0000000000000150, 5, 6, 0, 0, 0, 0, 0] = .ok (.cvtff 1 0 ⟨5, 6⟩) ∧
    decode [0x0000000001000851, 0, 0, 0, 0, 0, 0, 0xFF] = .ok (.cvtif 8 1 0xFF) ∧
    decode [0x0000000020000152, 5, 6, 0, 0, 0, 0, 0] = .ok (.cvtfi 1 32 ⟨5, 6⟩) := by decide

/-- Each reason to reject (R62 steps 1 to 3, R274); the order of the checks; too few and too many words. -/
theorem test_decode_rejects :
    decode [] = .error .notOnePacket ∧
    decode [0x10, 0, 0, 0, 0, 0, 0] = .error .notOnePacket ∧
    decode [0x10, 0, 0, 0, 0, 0, 0, 0, 0] = .error .notOnePacket ∧
    decode [0x0001000003030310, 0, 0, 0, 0, 0, 0, 0] = .error .reservedBits ∧
    decode [0x0000000000000000, 0, 0, 0, 0, 0, 0, 0] = .error .reservedOpcode ∧
    decode [0x0000000000000017, 0, 0, 0, 0, 0, 0, 0] = .error .reservedOpcode ∧
    decode [0x00000000000000FF, 0, 0, 0, 0, 0, 0, 0] = .error .reservedOpcode ∧
    decode [0x0000000100000010, 0, 0, 0, 0, 0, 0, 0, 0, 0, 0] = .error .countNotZero := by decide

theorem test_table_word_is_decoded_and_fetched :
    decodeTableWord 64 0x10010 = some (.add 0 1 ⟨0, 0⟩ ⟨0, 0⟩) ∧
    (State.reset.withFetchWord 64 0x10010).inbox = [0x10010, 0, 0, 0, 0, 0, 0, 0] ∧
    decodeTableWord 64 0x100000015 = some (.addmany 0 ⟨0, 0⟩ [⟨0, ⟨0, 0⟩⟩]) := by decide

/-! ## One transaction for each instruction -/

/-- The response words to the packet issued after reset, if it is answered. -/
def answered (ws : List Word) : Option (List Word) :=
  match step (State.reset.hostIssue ws) with
  | .next ⟨[], [r]⟩ => some r.words
  | .next _ => none
  | .fault _ => none
  | .refused _ => none

/-- R165: a mixed sum; `-0 + -0`; a tie; an overflow. -/
theorem test_add :
    answered [0x10010, 0x3DCCCCCD, 0, 0x3FC999999999999A, 0, 0, 0, 0] = some [0x10100, 0x3FD3333334CCCCCD, 0] ∧
    answered [0x10, 0x80000000, 0, 0x80000000, 0, 0, 0, 0] = some [0x10000, 0x80000000, 0] ∧
    answered [0x10, 0x4B800000, 0, 0x40400000, 0, 0, 0, 0] = some [0x10000, 0x4B800002, 0] ∧
    answered [0x10, 0x7F7FFFFF, 0, 0x7F7FFFFF, 0, 0, 0, 0] = some [0x10000, 0x7F800000, 0] := by decide

/-- R165: the order of the operands; the sign of a zero difference. -/
theorem test_sub :
    answered [0x10011, 0x3FC00000, 0, 0x4002000000000000, 0, 0, 0, 0] = some [0x10100, 0xBFE8000000000000, 0] ∧
    answered [0x11, 0x80000000, 0, 0x80000000, 0, 0, 0, 0] = some [0x10000, 0, 0] := by decide

/-- R165: the sign of a zero product; a subnormal tie. -/
theorem test_mul :
    answered [0x12, 0xC0400000, 0, 0, 0, 0, 0, 0] = some [0x10000, 0x80000000, 0] ∧
    answered [0x12, 3, 0, 0x3F000000, 0, 0, 0, 0] = some [0x10000, 2, 0] := by decide

/-- R165: a rounded quotient at EXTENDED; division by `-0`. -/
theorem test_div :
    answered [0x20213, 0x8000000000000000, 0x3FFF, 0xC000000000000000, 0x4000, 0, 0, 0]
      = some [0x10200, 0xAAAAAAAAAAAAAAAB, 0x3FFD] ∧
    answered [0x13, 0x3F800000, 0, 0x80000000, 0, 0, 0, 0] = some [0x10000, 0xFF800000, 0] := by decide

/-- R166: the first sum already at DOUBLE; the association. -/
theorem test_add3 :
    answered [0x1000014, 0x4B800000, 0, 0x3F800000, 0, 0x3FF0000000000000, 0, 0]
      = some [0x10100, 0x4170000020000000, 0] ∧
    answered [0x1010114, 0x4341C37937E08000, 0, 0x3FF0000000000000, 0, 0x3FF0000000000000, 0, 0]
      = some [0x10100, 0x4341C37937E08000, 0] := by decide

/-- R166: three precisions; no element; an illegal tag in the last element. -/
theorem test_addmany :
    answered [0x200000015, 0x3DCCCCCD, 0, 0, 0, 0, 0, 0, 2, 0xCCCCCCCCCCCCCCCD, 0x3FFC, 1, 0x3FB999999999999A, 0]
      = some [0x10200, 0xCCCCCCD999999A66, 0x3FFD] ∧
    answered [0x15, 0x123456783FC00000, 0xFFFF, 0, 0, 0, 0, 0] = some [0x10000, 0x3FC00000, 0] ∧
    answered [0x200000015, 0x3F800000, 0, 0, 0, 0, 0, 0, 0, 0x3F800000, 0, 7, 0, 0] = some [1, 0, 0] := by decide

/-- R166, R163: the working precision is found first; overflow is not undone. -/
theorem test_mulmany :
    answered [0x200000016, 0x3DCCCCCD, 0, 0, 0, 0, 0, 0, 0, 0x3DCCCCCD, 0, 1, 0x3FB999999999999A, 0]
      = some [0x10100, 0x3F50624DDB22D0E7, 0] ∧
    answered [0x200000016, 0x7F7FFFFF, 0, 0, 0, 0, 0, 0, 0, 0x40000000, 0, 0, 0x3F000000, 0]
      = some [0x10000, 0x7F800000, 0] := by decide

/-- R175, R176: the order of the products; exponent 0 of a signalling NaN; a negative exponent. -/
theorem test_powi :
    answered [0x20, 0x3FD9999A, 0, 0, 0, 0, 0, 13] = some [0x10000, 0x44779D50, 0] ∧
    answered [0x20, 0x7F800001, 0, 0, 0, 0, 0, 0] = some [0x10000, 0x3F800000, 0] ∧
    answered [0x20, 0x40000000, 0, 0, 0, 0, 0, 0xFFFFFFFFFFFFFFFF] = some [2, 0, 0] := by decide

/-- R184: cases 6 and 1. -/
theorem test_pow :
    answered [0x21, 0x80000000, 0, 0xC0400000, 0, 0, 0, 0] = some [0x10000, 0xFF800000, 0] ∧
    answered [0x10021, 0x7FC00000, 0, 0x8000000000000000, 0, 0, 0, 0] = some [0x10100, 0x3FF0000000000000, 0] := by
  decide

/-- R184: of zero and of one. -/
theorem test_log :
    answered [0x122, 0x8000000000000000, 0, 0, 0, 0, 0, 0] = some [0x10100, 0xFFF0000000000000, 0] ∧
    answered [0x222, 0x8000000000000000, 0x3FFF, 0, 0, 0, 0, 0] = some [0x10200, 0, 0] := by decide

/-- R184: of `-0` and of minus infinity. -/
theorem test_exp :
    answered [0x23, 0x80000000, 0, 0, 0, 0, 0, 0] = some [0x10000, 0x3F800000, 0] ∧
    answered [0x123, 0xFFF0000000000000, 0, 0, 0, 0, 0, 0] = some [0x10100, 0, 0] := by decide

/-- R188: the least subnormal, an odd exponent; the root of three. -/
theorem test_sqrt :
    answered [0x224, 1, 0, 0, 0, 0, 0, 0] = some [0x10200, 0xB504F333F9DE6484, 0x1FE0] ∧
    answered [0x124, 0x4008000000000000, 0, 0, 0, 0, 0, 0] = some [0x10100, 0x3FFBB67AE8584CAA, 0] := by decide

/-- R207: halfway cases away from zero; just below one half. -/
theorem test_round :
    answered [0x130, 0xC004000000000000, 0, 0, 0, 0, 0, 0] = some [0x10100, 0xC008000000000000, 0] ∧
    answered [0x30, 0x3EFFFFFF, 0, 0, 0, 0, 0, 0] = some [0x10000, 0, 0] := by decide

/-- R207: the sign of a zero result; the greatest number that is no integer. -/
theorem test_trunc :
    answered [0x31, 0xBF000000, 0, 0, 0, 0, 0, 0] = some [0x10000, 0x80000000, 0] ∧
    answered [0x231, 0xFFFFFFFFFFFFFFFF, 0x403D, 0, 0, 0, 0, 0] = some [0x10200, 0xFFFFFFFFFFFFFFFE, 0x403D] := by decide

/-- R207: `-0.4` to `-0`; the least subnormal to 1. -/
theorem test_ceil :
    answered [0x32, 0xBECCCCCD, 0, 0, 0, 0, 0, 0] = some [0x10000, 0x80000000, 0] ∧
    answered [0x232, 1, 0, 0, 0, 0, 0, 0] = some [0x10200, 0x8000000000000000, 0x3FFF] := by decide

/-- R207: the least negative subnormal to `-1`; `2.5` to `2`. -/
theorem test_floor :
    answered [0x133, 0x8000000000000001, 0, 0, 0, 0, 0, 0] = some [0x10100, 0xBFF0000000000000, 0] ∧
    answered [0x33, 0x40200000, 0, 0, 0, 0, 0, 0] = some [0x10000, 0x40000000, 0] := by decide

/-- R212: unused bits; a signalling NaN stays one. -/
theorem test_abs :
    answered [0x34, 0xDEADBEEFBFC00000, 0x1234, 0, 0, 0, 0, 0] = some [0x10000, 0x3FC00000, 0] ∧
    answered [0x34, 0xFF800001, 0, 0, 0, 0, 0, 0] = some [0x10000, 0x7F800001, 0] := by decide

/-- R212: `tb` ignored; the second operand read at the first one's precision. -/
theorem test_copysign :
    answered [0x90035, 0x3F800000, 0, 0x80000000, 0, 0, 0, 0] = some [0x10000, 0xBF800000, 0] ∧
    answered [0x135, 0x3FF0000000000000, 0, 0x0000000080000000, 0, 0, 0, 0]
      = some [0x10100, 0x3FF0000000000000, 0] := by decide

/-- R230: `+0` behind unused bits; a subnormal number. -/
theorem test_iszero :
    answered [0x40, 0xFFFFFFFF00000000, 0xFFFF, 0, 0, 0, 0, 0] = some [0x30000, 1, 0] ∧
    answered [0x40, 1, 0, 0, 0, 0, 0, 0] = some [0x30000, 0, 0] := by decide

/-- R230: `-1`; a neighbour of 1. -/
theorem test_isone :
    answered [0x241, 0x8000000000000000, 0xBFFF, 0, 0, 0, 0, 0] = some [0x30000, 1, 0] ∧
    answered [0x41, 0x3F7FFFFF, 0, 0, 0, 0, 0, 0] = some [0x30000, 0, 0] := by decide

/-- R230: a signalling NaN; an infinity. -/
theorem test_isnan :
    answered [0x242, 0x8000000000000001, 0xFFFF, 0, 0, 0, 0, 0] = some [0x30000, 1, 0] ∧
    answered [0x42, 0x7F800000, 0, 0, 0, 0, 0, 0] = some [0x30000, 0, 0] := by decide

/-- R230: minus infinity; the greatest finite number. -/
theorem test_isinf :
    answered [0x143, 0xFFF0000000000000, 0, 0, 0, 0, 0, 0] = some [0x30000, 1, 0] ∧
    answered [0x43, 0x7F7FFFFF, 0, 0, 0, 0, 0, 0] = some [0x30000, 0, 0] := by decide

/-- R230: `-0`, and a NaN with its sign bit set. -/
theorem test_isneg :
    answered [0x44, 0x80000000, 0, 0, 0, 0, 0, 0] = some [0x30000, 1, 0] ∧
    answered [0x44, 0xFFC00000, 0, 0, 0, 0, 0, 0] = some [0x30000, 1, 0] := by decide

/-- R231: across precisions; the zeros; infinity and NaN. -/
theorem test_isgt :
    answered [0x10045, 0x3DCCCCCD, 0, 0x3FB999999999999A, 0, 0, 0, 0] = some [0x30000, 1, 0] ∧
    answered [0x45, 0, 0, 0x80000000, 0, 0, 0, 0] = some [0x30000, 0, 0] ∧
    answered [0x45, 0x7F800000, 0, 0x7FC00000, 0, 0, 0, 0] = some [0x30000, 0, 0] := by decide

/-- R241: a tie at the overflow threshold; a tie at the least subnormal; the identity on a signalling NaN. -/
theorem test_cvtff :
    answered [0x150, 0x47EFFFFFF0000000, 0, 0, 0, 0, 0, 0] = some [0x10000, 0x7F800000, 0] ∧
    answered [0x150, 0x36A8000000000000, 0, 0, 0, 0, 0, 0] = some [0x10000, 2, 0] ∧
    answered [0x50, 0x7F800001, 0, 0, 0, 0, 0, 0] = some [0x10000, 0x7F800001, 0] := by decide

/-- R246: only the low bits count; a tie upward. -/
theorem test_cvtif :
    answered [0x851, 0, 0, 0, 0, 0, 0, 0x1FF] = some [0x10000, 0xBF800000, 0] ∧
    answered [0x2051, 0, 0, 0, 0, 0, 0, 16777219] = some [0x10000, 0x4B800002, 0] := by decide

/-- R251: truncation at the lower end; the greatest 64-bit integer. -/
theorem test_cvtfi :
    answered [0x8000152, 0xC0601CCCCCCCCCCD, 0, 0, 0, 0, 0, 0] = some [0x20800, 0xFFFFFFFFFFFFFF80, 0] ∧
    answered [0x40000252, 0xFFFFFFFFFFFFFFFF, 0x403D, 0, 0, 0, 0, 0] = some [0x24000, 0x7FFFFFFFFFFFFFFF, 0] := by decide

/-- R274: ILLEGAL_COMMAND, UNSUPPORTED_TYPE and their order; an unread type code. -/
theorem test_errors :
    answered [0x0001000003030310, 0, 0, 0, 0, 0, 0, 0] = some [3, 0, 0] ∧
    answered [0x0000000000000320, 0, 0, 0, 0, 0, 0, 0xFFFFFFFFFFFFFFFF] = some [1, 0, 0] ∧
    answered [0x0000000003000010, 0, 0, 0, 0, 0, 0, 0] = some [0x10000, 0, 0] := by decide

/-- R274: an unnormal operand of ISZERO, for which the spec defines no response. -/
theorem test_refusal :
    step (State.reset.hostIssue [0x240, 0x4000000000000000, 0x3FFF, 0, 0, 0, 0, 0]) = .refused .extNonCanonical := rfl

/-! ## Witnesses for the hypotheses of the obligations -/

/-- An operand slot of a test, with what it holds. -/
structure Slot where
  t : TypeCode
  b : Pair
  p : Precision
  v : Value

/-- The slot holds its value. -/
def Slot.holds (d : Slot) : Bool := decide (d.t.toNat = d.p.ordinal) && decide (decodeValue d.p d.b = some d.v)

theorem reads_of_holds {d : Slot} (h : d.holds = true) : Reads d.t d.b d.p d.v := by
  simpa [Slot.holds, Reads] using h

/-! The operands that the witnesses use, most of them from the table of R120. -/

def pZero : Slot := ⟨0, ⟨0x00000000, 0⟩, .single, .zero false⟩
def nZero : Slot := ⟨0, ⟨0x80000000, 0⟩, .single, .zero true⟩
def pInf : Slot := ⟨0, ⟨0x7F800000, 0⟩, .single, .inf false⟩
def nInf : Slot := ⟨1, ⟨0xFFF0000000000000, 0⟩, .double, .inf true⟩
def quiet : Slot := ⟨0, ⟨0x7FC00000, 0⟩, .single, .nan false true 0x400000⟩
def signalling : Slot := ⟨2, ⟨0x8000000000000001, 0x7FFF⟩, .extended, .nan false false 1⟩
def one : Slot := ⟨0, ⟨0x3F800000, 0⟩, .single, .fin (mkRat 1 1)⟩
def oneX : Slot := ⟨2, ⟨0x8000000000000000, 0x3FFF⟩, .extended, .fin (mkRat 1 1)⟩
def minusOne : Slot := ⟨1, ⟨0xBFF0000000000000, 0⟩, .double, .fin (mkRat (-1) 1)⟩
def half : Slot := ⟨0, ⟨0x3F000000, 0⟩, .single, .fin (mkRat 1 2)⟩
def two : Slot := ⟨2, ⟨0x8000000000000000, 0x4000⟩, .extended, .fin (mkRat 2 1)⟩
def minusTwo : Slot := ⟨0, ⟨0xC0000000, 0⟩, .single, .fin (mkRat (-2) 1)⟩
def three : Slot := ⟨0, ⟨0x40400000, 0⟩, .single, .fin (mkRat 3 1)⟩
def minusThree : Slot := ⟨0, ⟨0xC0400000, 0⟩, .single, .fin (mkRat (-3) 1)⟩
def minusHalf : Slot := ⟨0, ⟨0xBF000000, 0⟩, .single, .fin (mkRat (-1) 2)⟩

theorem slots_hold :
    ([pZero, nZero, pInf, nInf, quiet, signalling, one, oneX, minusOne, half, two, minusTwo, three, minusThree,
      minusHalf].all Slot.holds) = true := by decide

/-- The number of the first condition of a table that holds. -/
def row (conditions : List Bool) : Nat := conditions.idxOf true

/-! ### The channel, the packet and the checks -/

/-- The worked request of R84. -/
def workedPacket : List Word := [0x10010, 0x3FC00000, 0, 0x4002000000000000, 0, 0, 0, 0]

theorem workedPacket_isPacket : IsPacket workedPacket := ⟨_, _, rfl, by decide⟩

/-- A state with a response delivered, a request waiting and two words of the next one. -/
def waiting : State := ⟨workedPacket ++ [0x44, 1], [respondBool true]⟩

theorem waiting_steps :
    step waiting = .next ⟨[0x44, 1], [respondBool true, ⟨.ok, .float, 1, 0x400E000000000000, 0⟩]⟩ := by
  rw [step_packet workedPacket_isPacket rfl]
  have h : (respondFloat .double (.fin (mkRat 15 4))) = ⟨.ok, .float, 1, 0x400E000000000000, 0⟩ := by decide
  rw [← h]
  rfl

theorem witness_EveryStepKeepsTheInvariant :
    waiting.Inv ∧ step waiting = .next ⟨[0x44, 1], [respondBool true, ⟨.ok, .float, 1, 0x400E000000000000, 0⟩]⟩ := by
  refine ⟨fun r h => ?_, waiting_steps⟩
  obtain rfl : r = respondBool true := by simpa [waiting] using h
  exact ⟨rfl, .inr rfl, rfl⟩

theorem witness_ErrorsCarryNoResult :
    step waiting = .next ⟨[0x44, 1], [respondBool true, ⟨.ok, .float, 1, 0x400E000000000000, 0⟩]⟩ ∧
      step (State.reset.hostIssue [0, 0, 0, 0, 0, 0, 0, 0]) = .next ⟨[], [respondError .illegalCommand]⟩ :=
  ⟨waiting_steps, rfl⟩

theorem witness_StepRunsTheDecodedRequest :
    IsPacket workedPacket ∧ waiting.inbox = workedPacket ++ [0x44, 1] ∧
      decode workedPacket = .ok (.add 0 1 ⟨0x3FC00000, 0⟩ ⟨0x4002000000000000, 0⟩) :=
  ⟨workedPacket_isPacket, rfl, by decide⟩

/-- No word; and one word fewer than the count announces. -/
theorem witness_StepIdlesWithoutAWholePacket :
    (∀ ws rest : List Word, State.reset.inbox = ws ++ rest → ¬IsPacket ws) ∧
      ∀ ws rest : List Word,
        (⟨[0x100000015, 0, 0, 0, 0, 0, 0, 0, 0, 0], []⟩ : State).inbox = ws ++ rest → ¬IsPacket ws :=
  ⟨nextRequest_eq_none.mp rfl, nextRequest_eq_none.mp rfl⟩

/-- Two requests, of which the second is an error. -/
theorem witness_ResponsesComeInRequestOrder :
    List.Forall₂ (fun i r => i.wf = true ∧ ∀ s, exec i s = .next (s.deliver r))
      [.isneg 0 nZero.b, .powi 3 one.b 0] [respondBool true, respondError .unsupportedType] :=
  .cons ⟨rfl, fun _ => unaryBool_answer (ta := 0) (a := nZero.b) (p := .single) (x := .zero true) Value.sign rfl (by decide)⟩
    (.cons ⟨rfl, fun _ => rfl⟩ .nil)

theorem witness_HostActionsDoNotChangeAnAnswer :
    IsPacket workedPacket ∧ waiting.inbox = workedPacket ++ [0x44, 1] ∧ waiting.outbox ≠ [] ∧
      step waiting = .next ⟨[0x44, 1], [respondBool true, ⟨.ok, .float, 1, 0x400E000000000000, 0⟩]⟩ :=
  ⟨workedPacket_isPacket, rfl, by decide, waiting_steps⟩

/-- One request for each operation, and one with an illegal type code and two elements. -/
def requests : List Instr :=
  [.add 0 1 one.b minusOne.b, .sub 0 1 one.b minusOne.b, .mul 0 1 one.b minusOne.b, .div 0 1 one.b minusOne.b,
    .add3 0 1 2 one.b minusOne.b two.b, .addmany 0 one.b [⟨2, two.b⟩, ⟨1, nInf.b⟩], .mulmany 0 one.b [],
    .powi 0 one.b 3, .pow 0 1 one.b minusOne.b, .log 2 two.b, .exp 2 two.b, .sqrt 2 two.b,
    .round 0 half.b, .trunc 0 half.b, .ceil 0 half.b, .floor 0 half.b, .abs 0 half.b, .copysign 0 half.b nZero.b,
    .iszero 0 half.b, .isone 0 half.b, .isnan 0 half.b, .isinf 0 half.b, .isneg 0 half.b, .isgt 2 0 two.b half.b,
    .cvtff 2 0 two.b, .cvtif 64 2 7, .cvtfi 1 64 minusOne.b]

theorem witness_ExecutingRequestsComplete :
    requests.map Instr.op = Op.all ∧ requests.all Instr.executes = true := by decide

theorem witness_DecodeInvertsEncode :
    requests.all Instr.wf = true ∧ (Instr.mulmany 9 one.b [⟨7, two.b⟩, ⟨0, half.b⟩]).wf = true := by decide

theorem witness_ResetSignalDiscardsRequests : (Instr.isneg 0 nZero.b).wf = true := rfl

theorem witness_DecodeDropsOnlyUnreadFields :
    decode [0x00000000FFFF0130, 5, 6, 7, 8, 9, 10, 11] = .ok (.round 1 ⟨5, 6⟩) ∧
      decode [0x0000000100000016, 0x3F800000, 0, 0, 0, 0, 0, 0, 0xF01, 2, 3] = .ok (.mulmany 0 one.b [⟨1, ⟨2, 3⟩⟩]) := by
  decide

/-- Malformed in `rsv`, in `opc` at the ends of the gaps of the map, in `cnt`; and not malformed. -/
theorem witness_MalformedCommandsAreIllegal :
    IsPacket [0x8000000000000010, 0, 0, 0, 0, 0, 0, 0] ∧ commandIllegal 0x8000000000000010 = true ∧
      ([0x0F, 0x17, 0x1F, 0x25, 0x2F, 0x36, 0x3F, 0x46, 0x4F, 0x53, 0xFF] : List Word).all commandIllegal = true ∧
      IsPacket [0x100000010, 0, 0, 0, 0, 0, 0, 0, 0, 0, 0] ∧ commandIllegal 0x100000010 = true ∧
      IsPacket [0x100000015, 0, 0, 0, 0, 0, 0, 0, 0, 0, 0] ∧ commandIllegal 0x100000015 = false :=
  ⟨⟨_, _, rfl, by decide⟩, by decide, by decide, ⟨_, _, rfl, by decide⟩, by decide, ⟨_, _, rfl, by decide⟩, by decide⟩

/-- One packet for each of the five rows, each packet meeting the conditions of all later error rows too. -/
theorem witness_ChecksComeInOrder :
    commandIllegal 0x1000000000320 = true ∧ commandIllegal 0x320 = false ∧
      (Instr.powi 3 ⟨0, 0x3FFF⟩ (-1)).typesLegal = false ∧ (Instr.powi 2 ⟨0, 0x3FFF⟩ (-1)).typesLegal = true ∧
      (Instr.powi 2 ⟨0, 0x3FFF⟩ (-1)).negativeExponent = true ∧ (Instr.powi 2 ⟨0, 0x3FFF⟩ 1).negativeExponent = false ∧
      (Instr.powi 2 ⟨0, 0x3FFF⟩ 1).readsNonCanonical = true ∧
      (Instr.powi 2 ⟨0x8000000000000000, 0x3FFF⟩ 1).readsNonCanonical = false ∧
      decode [0x320, 0, 0x3FFF, 0, 0, 0, 0, -1] = .ok (.powi 3 ⟨0, 0x3FFF⟩ (-1)) ∧
      decode [0x220, 0, 0x3FFF, 0, 0, 0, 0, -1] = .ok (.powi 2 ⟨0, 0x3FFF⟩ (-1)) ∧
      decode [0x220, 0, 0x3FFF, 0, 0, 0, 0, 1] = .ok (.powi 2 ⟨0, 0x3FFF⟩ 1) ∧
      decode [0x220, 0x8000000000000000, 0x3FFF, 0, 0, 0, 0, 1] = .ok (.powi 2 ⟨0x8000000000000000, 0x3FFF⟩ 1) := by
  decide

/-! ### The codec and the rounding -/

theorem representable_three_halves : Representable .single (3 / 2) :=
  ⟨false, 3 * 2 ^ 22, -23, by norm_num, .inl (by norm_num [Precision.prec, Precision.emin, Precision.emax, Precision.bias])⟩

theorem representable_least (p : Precision) : Representable p (2 ^ (p.emin - (p.prec - 1))) :=
  ⟨false, 1, _, by norm_num, .inr ⟨by decide, by cases p <;> decide, rfl⟩⟩

/-- A zero, an infinity, a number, the least subnormal, a signalling NaN and the quiet NaN with every fraction bit set. -/
theorem witness_CodecRoundTrips :
    (Value.zero true).Encodable .single ∧ (Value.inf true).Encodable .extended ∧ (Value.fin (3 / 2)).Encodable .single ∧
      (Value.fin (2 ^ (Precision.extended.emin - (Precision.extended.prec - 1)))).Encodable .extended ∧
      (Value.nan true false 1).Encodable .double ∧ (Value.nan false true (2 ^ 63 - 1)).Encodable .extended ∧
      Reads signalling.t signalling.b signalling.p signalling.v :=
  ⟨trivial, trivial, representable_three_halves, representable_least _, ⟨by decide, by decide, by decide⟩,
    ⟨by decide, by decide, by decide⟩, reads_of_holds (by decide)⟩

theorem witness_DecodedValuesAreEncodable :
    decodeValue .extended two.b = some two.v ∧ decodeValue .single ⟨0xFFFFFFFF, 0⟩ = some (.nan true true 0x7FFFFF) := by
  decide

/-- `2^128`, `2^-150` and 1 take the three rows at SINGLE: infinity, zero on a tie, and a number. -/
theorem witness_RoundingFollowsTheFormula :
    Exact.pow2 128 ≠ 0 ∧ Exact.pow2 128 ≤ roundedMagnitude .single (Exact.pow2 128) ∧
      Exact.pow2 (-150) ≠ 0 ∧ roundedMagnitude .single (Exact.pow2 (-150)) = 0 ∧
      roundedMagnitude .single (mkRat 1 1) = mkRat 1 1 := by decide

/-- `1 + 2^-24` lies halfway between two neighbours at SINGLE. -/
theorem witness_RoundingIsToNearestEven :
    (1 + 1 / 2 ^ 24 : ℚ) ≠ 0 ∧
      |(1 + 1 / 2 ^ 24 : ℚ)| < (2 - 2 ^ (-(Precision.single.prec : ℤ))) * 2 ^ Precision.single.emax ∧
      Representable .single 1 ∧ Representable .single (1 + 1 / 2 ^ 23) := by
  refine ⟨by norm_num, by norm_num [Precision.prec, Precision.emax, Precision.bias, abs_of_pos],
    ⟨false, 2 ^ 23, -23, by norm_num, .inl ?_⟩, ⟨false, 2 ^ 23 + 1, -23, by norm_num, .inl ?_⟩⟩ <;>
    norm_num [Precision.prec, Precision.emin, Precision.emax, Precision.bias]

/-- The threshold itself, and the greatest representable number below it. -/
theorem witness_OverflowBeginsAtTheThreshold :
    ((2 - 2 ^ (-(Precision.single.prec : ℤ))) * 2 ^ Precision.single.emax : ℚ) ≠ 0 ∧
      |((2 - 2 ^ (1 - (Precision.single.prec : ℤ))) * 2 ^ Precision.single.emax : ℚ)|
        < (2 - 2 ^ (-(Precision.single.prec : ℤ))) * 2 ^ Precision.single.emax := by
  norm_num [Precision.prec, Precision.emax, Precision.bias, abs_of_pos]

/-- Half of the least subnormal, a tie that goes to zero; and one unit below the least normal number. -/
theorem witness_UnderflowIsGradual :
    (2 ^ (-150 : ℤ) : ℚ) ≠ 0 ∧ |(2 ^ (-150 : ℤ) : ℚ)| < 2 ^ Precision.single.emin ∧
      |(2 ^ (-126 : ℤ) - 2 ^ (-149 : ℤ) : ℚ)| < 2 ^ Precision.single.emin := by
  norm_num [Precision.emin, Precision.bias, abs_of_pos]

theorem witness_GeneratedNaNsAreQuiet :
    Pair.isQuietNaN ⟨0xFFC00001, 0⟩ .single ∧ Pair.isQuietNaN ⟨0x7FFFFFFFFFFFFFFF, 0⟩ .double ∧
      Pair.isQuietNaN ⟨0xC000000000000000, 0xFFFF⟩ .extended := by decide

theorem witness_TransResultsAreEncodable :
    (Value.nan true true (2 ^ 22)).Encodable .single ∧ ¬(Value.nan true true (2 ^ 22)).Signalling ∧
      (Value.fin (3 / 2)).Encodable .single ∧ ¬(Value.fin (3 / 2)).Signalling :=
  ⟨⟨by decide, by decide, by decide⟩, by simp [Value.Signalling], representable_three_halves, by simp [Value.Signalling]⟩

/-- Below the threshold of R201, and at it; an integer at the bound. -/
theorem witness_IntegralValuesAreRepresentable :
    Representable .single (3 / 2) ∧ |(3 / 2 : ℚ)| < 2 ^ (Precision.single.prec - 1) ∧
      Representable .single (2 ^ 23) ∧ 2 ^ (Precision.single.prec - 1) ≤ |(2 ^ 23 : ℚ)| ∧
      |(2 ^ 24 : ℤ)| ≤ 2 ^ Precision.single.prec := by
  refine ⟨representable_three_halves, ?_, ⟨false, 2 ^ 23, 0, by norm_num, .inl ?_⟩, ?_, by decide⟩ <;>
    norm_num [Precision.prec, Precision.emin, Precision.emax, Precision.bias, abs_of_pos]

/-- Zero, and the integer `-2` read from a word whose upper bits are junk. -/
theorem witness_IntegersComeBack :
    (8 : TypeCode).toNat = Width.w8.bits ∧ (0 : TypeCode).toNat = Precision.single.ordinal ∧
      (-2 ^ (Width.w8.bits - 1) ≤ (-2 : ℤ) ∧ (-2 : ℤ) < 2 ^ (Width.w8.bits - 1)) ∧
      ((-2 : ℤ) - (0x7FE : Word).toNat) % 2 ^ Width.w8.bits = 0 ∧ Representable .single ((-2 : ℤ) : ℚ) := by
  refine ⟨rfl, rfl, by decide, by decide, ⟨true, 2 ^ 23, -22, by norm_num, .inl ?_⟩⟩
  norm_num [Precision.prec, Precision.emin, Precision.emax, Precision.bias]

/-! ### The operations -/

/-- The conditions of `SumRule`; the exact sum as the model computes it. -/
def sumRow (x y : Value) : Nat :=
  row [x.isNaN || y.isNaN, x.isInf && y.isInf, x.isInf, y.isInf, x.isZero && y.isZero,
    decide (Exact.add x.val y.val = 0), true]

/-- Every row of the table of a sum has operands, the two-way rows both ways. -/
theorem witness_AddAndSubFollowTheTable :
    [(quiet, one), (pInf, nInf), (pInf, pInf), (nInf, two), (half, nInf), (nZero, nZero), (pZero, nZero),
      (one, minusOne), (nZero, half)].map (fun d => sumRow d.1.v d.2.v) = [0, 1, 1, 2, 3, 4, 4, 5, 6] := by decide

theorem witness_AddCommutesButForNaN : quiet.holds ∧ signalling.holds ∧ half.holds ∧ nInf.holds := by decide

theorem witness_AddThreeIsTwoAdditions : half.holds ∧ nInf.holds ∧ two.holds := by decide

/-- The conditions of `ProductRule`. -/
def productRow (x y : Value) : Nat :=
  row [x.isNaN || y.isNaN, x.isInf && y.isZero || x.isZero && y.isInf, x.isInf || y.isInf, x.isZero || y.isZero, true]

/-- The conditions of `QuotientRule`. -/
def quotientRow (x y : Value) : Nat :=
  row [x.isNaN || y.isNaN, x.isInf && y.isInf, x.isZero && y.isZero, x.isInf, y.isInf, y.isZero, x.isZero, true]

theorem witness_MulAndDivFollowTheTables :
    [(half, signalling), (pInf, nZero), (pInf, minusOne), (two, nZero), (half, half)].map
        (fun d => productRow d.1.v d.2.v) = [0, 1, 2, 3, 4] ∧
    [(half, signalling), (pInf, nInf), (pZero, nZero), (nInf, pZero), (pZero, nInf), (half, nZero), (nZero, half),
      (one, three)].map (fun d => quotientRow d.1.v d.2.v) = [0, 1, 2, 3, 4, 5, 6, 7] := by decide

/-- Two elements of unlike precisions; and no element. -/
theorem witness_VariadicRequestsFold :
    Reads half.t half.b half.p half.v ∧
      List.Forall₂ (fun (e : Elem) (d : Precision × Value) => Reads e.t e.v d.1 d.2)
        [⟨two.t, two.b⟩, ⟨nInf.t, nInf.b⟩] [(two.p, two.v), (nInf.p, nInf.v)] ∧
      List.Forall₂ (fun (e : Elem) (d : Precision × Value) => Reads e.t e.v d.1 d.2) [] [] :=
  ⟨reads_of_holds (by decide),
    .cons (reads_of_holds (d := two) (by decide)) (.cons (reads_of_holds (d := nInf) (by decide)) .nil), .nil⟩

theorem witness_ShortVariadicRequests : signalling.holds ∧ half.holds ∧ nInf.holds := by decide

/-- Exponents 0, 1, an even and the greatest one; a negative base, `-0`, minus infinity and a NaN. -/
theorem witness_PowiSquaresAndCollects :
    minusThree.holds ∧ nZero.holds ∧ nInf.holds ∧ signalling.holds ∧ 0 ≤ (0 : Word).toInt ∧ (1 : Word).toInt = 1 ∧
      0 ≤ (2 : Word).toInt ∧ 0 ≤ (0x7FFFFFFFFFFFFFFF : Word).toInt := by decide

theorem witness_PowiConsequences :
    minusThree.holds ∧ minusThree.v.isNaN = false ∧ signalling.holds ∧ signalling.v.isNaN = true ∧
      (0 : Word).toInt = 0 ∧ (1 : Word).toInt = 1 ∧ 1 ≤ (2 : Word).toInt := by decide

/-- The conditions of `PowerRule`, each as the model tests it: `Value.signalling_iff`, `Value.below_iff`,
`Value.oddInteger_iff`, `Value.insideUnit_iff` and `Value.integer_iff` say that the tests are the conditions. -/
def powerRow (x y : Value) : Nat :=
  row [y.isZero && !x.isSignalling, decide (x = .fin 1) && !y.isSignalling,
    x.isSignalling && y.isZero || y.isSignalling && decide (x = .fin 1), x.isNaN || y.isNaN,
    x.isZero && decide (y = .inf true), x.isZero && y.isBelowZero && y.isOddInteger, x.isZero && y.isBelowZero,
    x.isZero && y.isOddInteger, x.isZero, decide (x = .fin (-1)) && y.isInf,
    decide (y = .inf true) && x.isBelowOne, decide (y = .inf true), decide (y = .inf false) && x.isBelowOne,
    decide (y = .inf false), decide (x = .inf true) && y.isBelowZero && y.isOddInteger,
    decide (x = .inf true) && y.isBelowZero, decide (x = .inf true) && y.isOddInteger, decide (x = .inf true),
    decide (x = .inf false) && y.isBelowZero, decide (x = .inf false), decide (x.val < 0) && !y.isInteger, true]

theorem witness_PowFollowsItsCases :
    [(quiet, nZero), (one, quiet), (signalling, nZero), (two, quiet), (pZero, nInf), (nZero, minusThree),
      (nZero, minusTwo), (nZero, three), (nZero, half), (minusOne, pInf), (half, nInf), (two, nInf), (half, pInf),
      (nInf, pInf), (nInf, minusThree), (nInf, minusTwo), (nInf, three), (nInf, half), (pInf, minusOne),
      (pInf, half), (minusTwo, half), (minusTwo, three)].map (fun d => powerRow d.1.v d.2.v)
      = List.range 22 := by decide

/-- The conditions of the tables of LOG, SQRT and EXP. -/
def logRow (x : Value) : Nat :=
  row [x.isNaN, x.isZero, decide (x = .fin 1), decide (x.val < 0), decide (x = .inf true), decide (x = .inf false), true]
def sqrtRow (x : Value) : Nat :=
  row [x.isNaN, x.isZero, decide (x.val < 0), decide (x = .inf true), decide (x = .inf false), true]
def expRow (x : Value) : Nat :=
  row [x.isNaN, x.isZero, decide (x = .inf true), decide (x = .inf false), true]

theorem witness_LogAndExpFollowTheirCases :
    [signalling, nZero, one, minusHalf, nInf, pInf, two].map (fun d => logRow d.v) = [0, 1, 2, 3, 4, 5, 6] ∧
    [quiet, nZero, nInf, pInf, minusHalf].map (fun d => expRow d.v) = [0, 1, 2, 3, 4] := by decide

theorem witness_SqrtIsCorrectlyRounded :
    [signalling, nZero, minusHalf, nInf, pInf, two].map (fun d => sqrtRow d.v) = [0, 1, 2, 3, 4, 5] := by decide

/-- A NaN, a zero, an infinity, a number that goes to zero under TRUNC and one that does not under CEIL. -/
theorem witness_IntegralRoundings :
    signalling.holds ∧ nZero.holds ∧ pInf.holds ∧ half.holds ∧ Exact.truncate (mkRat 1 2) = 0 ∧
      Exact.ceil (mkRat 1 2) = 1 := by decide

theorem witness_SignOperationsAgree : one.holds ∧ quiet.holds ∧ nZero.holds := by decide

/-- A canonical EXTENDED pair, for ABS, COPYSIGN and the predicates. -/
theorem witness_canonical_pairs :
    Pair.nonCanonical ⟨0x8000000000000001, 0x7FFF⟩ = false ∧ Pair.nonCanonical ⟨0, 0⟩ = false ∧
      Pair.nonCanonical ⟨1, 0x8000⟩ = false ∧ Pair.nonCanonical ⟨0x8000000000000000, 0x3FFF⟩ = false := by decide

/-- The conditions of the table of ISGT. -/
def greaterRow (x y : Value) : Nat :=
  row [x.isNaN || y.isNaN, decide (x = .inf false), decide (x = .inf true), decide (y = .inf false),
    decide (y = .inf true), true]

theorem witness_IsGreaterFollowsTheTable :
    [(one, quiet), (pInf, pInf), (pInf, two), (nInf, one), (one, pInf), (one, nInf), (pZero, nZero)].map
      (fun d => greaterRow d.1.v d.2.v) = [0, 1, 1, 2, 3, 4, 5] := by decide

/-- The same value at two precisions; a NaN; two zeros; and operands of which one is greater. -/
theorem witness_IsGreaterConsequences :
    one.holds ∧ oneX.holds ∧ one.v = oneX.v ∧ quiet.v.isNaN = true ∧ pZero.v.isZero = true ∧ nZero.v.isZero = true := by
  decide

theorem witness_IsGreaterConsequences_last :
    exec (.isgt two.t one.t two.b one.b) State.reset = .next (State.reset.deliver (respondBool true)) := rfl

/-- Equal precisions; and between unlike ones a NaN, a zero, an infinity and a number. -/
theorem witness_FloatToFloatConverts :
    quiet.holds ∧ signalling.holds ∧ nZero.holds ∧ nInf.holds ∧ two.holds ∧ (1 : TypeCode).toNat = Precision.double.ordinal := by
  decide

theorem witness_WideningThenNarrowingIsTheIdentity :
    Slot.holds ⟨0, ⟨0xFFFFFFFF00000001, 5⟩, .single, .fin (Exact.pow2 (-149))⟩ = true ∧
      (2 : TypeCode).toNat = Precision.extended.ordinal ∧ Precision.single.ordinal ≤ Precision.extended.ordinal ∧
      (Value.fin (Exact.pow2 (-149))).isNaN = false := by decide

/-- Zero, an integer that is exact and one that is not, at the narrowest and the widest width. -/
theorem witness_IntegerToFloatConverts :
    (8 : TypeCode).toNat = Width.w8.bits ∧ (64 : TypeCode).toNat = Width.w64.bits ∧
      (0 : TypeCode).toNat = Precision.single.ordinal ∧ (2 : TypeCode).toNat = Precision.extended.ordinal ∧
      signedPart .w8 0x100 = 0 ∧ signedPart .w8 0x1FF = -1 ∧ signedPart .w64 0x8000000000000000 = -2 ^ 63 ∧
      signedPart .w64 16777217 = 2 ^ 24 + 1 := by decide

/-- `-128.5` and `127.5` at width 8, just inside the two ends of the range. -/
theorem witness_FloatToIntegerTruncates :
    Slot.holds ⟨0, ⟨0xC3008000, 0⟩, .single, .fin (mkRat (-257) 2)⟩ = true ∧
      (-129 : ℚ) < mkRat (-257) 2 ∧ Exact.truncate (mkRat (-257) 2) = -128 ∧
    Slot.holds ⟨0, ⟨0x42FF0000, 0⟩, .single, .fin (mkRat 255 2)⟩ = true ∧
      mkRat 255 2 < (128 : ℚ) ∧ Exact.truncate (mkRat 255 2) = 127 := by decide

/-- `-129` and `128` at width 8, the two ends of the range themselves; an infinity and a NaN. -/
theorem witness_OutOfRangeIntegersAreOpen :
    Slot.holds ⟨0, ⟨0xC3010000, 0⟩, .single, .fin (mkRat (-129) 1)⟩ = true ∧ mkRat (-129) 1 ≤ (-129 : ℚ) ∧
    Slot.holds ⟨0, ⟨0x43000000, 0⟩, .single, .fin (mkRat 128 1)⟩ = true ∧ (128 : ℚ) ≤ mkRat 128 1 ∧
      pInf.holds ∧ quiet.holds ∧ (8 : TypeCode).toNat = Width.w8.bits := by decide

end Sys2Proof.Tests
end

/-! The state family: what a request is answered with depends on the request alone, and on the used bits of its slots
alone; and every request that passes the checks completes. -/

namespace Sys2Proof.Machine

/-- Settles O1: both ends of the channel are empty at reset, so there is no response to be lawful. -/
theorem resetHoldsNothing : Obligations.ResetHoldsNothing :=
  ⟨State.reset_inbox, State.reset_outbox, by simp [State.Inv]⟩

/-! ### One outcome for each request (R20, R47)

Every frame is uniform, by the rules `uniform_…` for its parts, and so is every operation built from one. -/

section Uniformity
variable {ta tb tc : TypeCode} {a b c : Pair}

theorem uniform_unaryFloat (o : Op) (f : Precision → Value → Value → Value) : Uniform (unaryFloat o f ta a) :=
  uniform_withPrecision fun _ => uniform_withValue fun _ => uniform_answer _

theorem uniform_unaryBool (f : Value → Bool) : Uniform (unaryBool f ta a) :=
  uniform_withPrecision fun _ => uniform_withValue fun _ => uniform_answer _

theorem uniform_binaryFloat (o : Op) (f : Precision → Value → Value → Value → Value) :
    Uniform (binaryFloat o f ta tb a b) :=
  uniform_withPrecision fun _ => uniform_withPrecision fun _ =>
    uniform_withValue fun _ => uniform_withValue fun _ => uniform_answer _

theorem uniform_binaryBool (f : Value → Value → Bool) : Uniform (binaryBool f ta tb a b) :=
  uniform_withPrecision fun _ => uniform_withPrecision fun _ =>
    uniform_withValue fun _ => uniform_withValue fun _ => uniform_answer _

theorem uniform_variadicFold (o : Op) (step : Precision → Value → Value → Value → Value) (es : List Elem) :
    Uniform (variadicFold o step ta a es) :=
  uniform_withPrecision fun _ => uniform_withElems fun _ =>
    uniform_withValue fun _ => uniform_withValues fun _ => uniform_answer _

theorem uniform_execAdd3 : Uniform (execAdd3 ta tb tc a b c) :=
  uniform_withPrecision fun _ => uniform_withPrecision fun _ => uniform_withPrecision fun _ =>
    uniform_withValue fun _ => uniform_withValue fun _ => uniform_withValue fun _ => uniform_answer _

theorem uniform_execPowi (n : Word) : Uniform (execPowi ta a n) :=
  uniform_withPrecision fun p => by
    by_cases h : n.toInt < 0
    · simpa only [h, if_true] using uniform_raise .domain
    · simpa only [h, if_false] using uniform_withValue fun _ => uniform_answer _

theorem uniform_execCopysign : Uniform (execCopysign ta a b) :=
  uniform_withPrecision fun _ => uniform_withValue fun _ => uniform_withValue fun _ => uniform_answer _

theorem uniform_execCvtff : Uniform (execCvtff ta tc a) :=
  uniform_withPrecision fun _ => uniform_withPrecision fun _ => uniform_withValue fun _ => uniform_answer _

theorem uniform_execCvtif (n : Word) : Uniform (execCvtif ta tc n) :=
  uniform_withPrecision fun _ => uniform_withWidth fun _ => uniform_answer _

theorem uniform_execCvtfi : Uniform (execCvtfi ta tc a) :=
  uniform_withPrecision fun _ => uniform_withWidth fun _ => uniform_withValue fun _ => uniform_answer _

end Uniformity

/-- Every request has one outcome: one response, delivered in every state, or the refusal in every state. -/
theorem uniform_exec (i : Instr) : Uniform (exec i) := by
  cases i with
  | add | sub | mul | div | pow => exact uniform_binaryFloat ..
  | add3 => exact uniform_execAdd3
  | addmany | mulmany => exact uniform_variadicFold ..
  | powi => exact uniform_execPowi _
  | log | exp | sqrt | round | trunc | ceil | floor => exact uniform_unaryFloat ..
  | abs => exact uniform_unaryFloat .abs fun _ _ x => withSign false x
  | copysign => exact uniform_execCopysign
  | iszero | isone | isnan | isinf | isneg => exact uniform_unaryBool _
  | isgt => exact uniform_binaryBool _
  | cvtff => exact uniform_execCvtff
  | cvtif => exact uniform_execCvtif _
  | cvtfi => exact uniform_execCvtfi

/-- Settles O5: every operation is a composition of frames that never look at the state. -/
theorem outcomeDependsOnTheRequestAlone : Obligations.OutcomeDependsOnTheRequestAlone := by
  intro i s
  obtain ⟨r, answered⟩ | refused := uniform_exec i
  · exact .inl ⟨r, answered⟩
  · exact .inr ⟨refused s, refused⟩

/-! ### Unused bits (R33, R65, R100)

What an operation takes from a slot once its type code is known, its value and its datum, is taken from the used bits.
So each frame gives the same result on the slots with their unused bits cleared. -/

@[simp] theorem datum_canonPair (p : Precision) (b : Pair) : datum p (canonPair p b) = datum p b := by
  simp [datum]

@[simp] theorem withValue_canonPair (p : Precision) (b : Pair) (k : Value → Result) :
    withValue p (canonPair p b) k = withValue p b k := by
  simp [withValue, decodeValue_canonPair]

@[simp] theorem outOfRange_canonPair (p : Precision) (w : Width) (b : Pair) :
    outOfRange p w (canonPair p b) = outOfRange p w b := by
  simp [outOfRange]

@[simp] theorem floatToInt_canonPair (p : Precision) (w : Width) (b : Pair) (x : Value) :
    floatToInt p w (canonPair p b) x = floatToInt p w b x := by
  cases x <;> simp [floatToInt]

/-- A masked integer operand has the same low bits, hence the same integer (R243). -/
theorem signedPart_integerUsedOnly {t : TypeCode} {w : Width} (h : Width.ofCode? t = some w) (n : Word) :
    signedPart w (integerUsedOnly t n) = signedPart w n := by
  have low {k : Nat} (hk : k < 64) : (n &&& BitVec.ofNat 64 (2 ^ k - 1)).setWidth k = n.setWidth k := by
    rw [and_mask n hk, BitVec.setWidth_setWidth_of_le _ hk.le, BitVec.setWidth_eq]
  rw [Width.ofCode?_eq_some] at h
  subst h
  cases w
  · exact congrArg BitVec.toInt (low (k := 8) (by decide))
  · exact congrArg BitVec.toInt (low (k := 16) (by decide))
  · exact congrArg BitVec.toInt (low (k := 32) (by decide))
  · rfl

/-- The elements of a variadic request with their unused bits cleared. -/
def elemsUsedOnly (es : List Elem) : List Elem := es.map fun e => ⟨e.t, e.v.usedOnly e.t⟩

/-- A sequence of data with their unused bits cleared. -/
def canonData (ds : List (Precision × Pair)) : List (Precision × Pair) := ds.map fun d => (d.1, canonPair d.1 d.2)

@[simp] theorem elemsUsedOnly_cons (e : Elem) (es : List Elem) :
    elemsUsedOnly (e :: es) = ⟨e.t, e.v.usedOnly e.t⟩ :: elemsUsedOnly es := rfl

@[simp] theorem canonData_cons (d : Precision × Pair) (ds : List (Precision × Pair)) :
    canonData (d :: ds) = (d.1, canonPair d.1 d.2) :: canonData ds := rfl

theorem typedElems_usedOnly (es : List Elem) : typedElems (elemsUsedOnly es) = (typedElems es).map canonData := by
  induction es with
  | nil => rfl
  | cons e es ih =>
    cases hp : Precision.ofCode? e.t with
    | none => simp [typedElems, hp]
    | some p => cases hd : typedElems es <;> simp [typedElems, hp, hd, ih, usedOnly_eq hp]

@[simp] theorem decodeAll_canonData (ds : List (Precision × Pair)) : decodeAll (canonData ds) = decodeAll ds := by
  induction ds with
  | nil => rfl
  | cons d ds ih => simp only [canonData_cons, decodeAll, decodeValue_canonPair, ih]

@[simp] theorem withValues_canonData (ds : List (Precision × Pair)) (k : List Value → Result) :
    withValues (canonData ds) k = withValues ds k := by
  simp [withValues]

@[simp] theorem maxPrecision_canonData (p : Precision) (ds : List (Precision × Pair)) :
    maxPrecision p (canonData ds) = maxPrecision p ds := by
  induction ds generalizing p with
  | nil => rfl
  | cons d ds ih => exact ih _

@[simp] theorem variadicOperands_canonData (p : Precision) (a : Pair) (ds : List (Precision × Pair)) :
    variadicOperands p (canonPair p a) (canonData ds) = variadicOperands p a ds := by
  simp [variadicOperands, canonData]

section UsedBits
variable {s : State} {t ta tb tc : TypeCode} {a b c : Pair}

/-- A frame looks at what follows a precision code only at the precision the code names. -/
theorem withPrecision_congr {k k' : Precision → Result} (h : ∀ p, Precision.ofCode? t = some p → k p = k' p) :
    withPrecision t s k = withPrecision t s k' := by
  cases hp : Precision.ofCode? t with
  | none => rw [withPrecision_illegal _ hp, withPrecision_illegal _ hp]
  | some p => rw [withPrecision_legal _ hp, withPrecision_legal _ hp, h p hp]

theorem withWidth_congr {k k' : Width → Result} (h : ∀ w, Width.ofCode? t = some w → k w = k' w) :
    withWidth t s k = withWidth t s k' := by
  cases hw : Width.ofCode? t with
  | none => rw [withWidth_illegal _ hw, withWidth_illegal _ hw]
  | some w => rw [withWidth_legal _ hw, withWidth_legal _ hw, h w hw]

theorem withElems_usedOnly (es : List Elem) (k : List (Precision × Pair) → Result) :
    withElems (elemsUsedOnly es) s k = withElems es s fun ds => k (canonData ds) := by
  cases hd : typedElems es <;> simp [withElems, typedElems_usedOnly, hd]

theorem unaryFloat_usedOnly (o : Op) (f : Precision → Value → Value → Value) :
    unaryFloat o f ta (a.usedOnly ta) s = unaryFloat o f ta a s :=
  withPrecision_congr fun p hp => by simp [usedOnly_eq hp]

theorem unaryBool_usedOnly (f : Value → Bool) : unaryBool f ta (a.usedOnly ta) s = unaryBool f ta a s :=
  withPrecision_congr fun p hp => by simp [usedOnly_eq hp]

theorem binaryFloat_usedOnly (o : Op) (f : Precision → Value → Value → Value → Value) :
    binaryFloat o f ta tb (a.usedOnly ta) (b.usedOnly tb) s = binaryFloat o f ta tb a b s :=
  withPrecision_congr fun p hp => withPrecision_congr fun q hq => by simp [usedOnly_eq hp, usedOnly_eq hq]

theorem binaryBool_usedOnly (f : Value → Value → Bool) :
    binaryBool f ta tb (a.usedOnly ta) (b.usedOnly tb) s = binaryBool f ta tb a b s :=
  withPrecision_congr fun p hp => withPrecision_congr fun q hq => by simp [usedOnly_eq hp, usedOnly_eq hq]

theorem variadicFold_usedOnly (o : Op) (step : Precision → Value → Value → Value → Value) (es : List Elem) :
    variadicFold o step ta (a.usedOnly ta) (elemsUsedOnly es) s = variadicFold o step ta a es s :=
  withPrecision_congr fun p hp => by simp [withElems_usedOnly, usedOnly_eq hp]

theorem execAdd3_usedOnly :
    execAdd3 ta tb tc (a.usedOnly ta) (b.usedOnly tb) (c.usedOnly tc) s = execAdd3 ta tb tc a b c s :=
  withPrecision_congr fun p hp => withPrecision_congr fun q hq => withPrecision_congr fun r hr => by
    simp [usedOnly_eq hp, usedOnly_eq hq, usedOnly_eq hr]

theorem execPowi_usedOnly (n : Word) : execPowi ta (a.usedOnly ta) n s = execPowi ta a n s :=
  withPrecision_congr fun p hp => by simp [usedOnly_eq hp]

theorem execCopysign_usedOnly : execCopysign ta (a.usedOnly ta) (b.usedOnly ta) s = execCopysign ta a b s :=
  withPrecision_congr fun p hp => by simp [usedOnly_eq hp]

theorem execCvtff_usedOnly : execCvtff ta tc (a.usedOnly ta) s = execCvtff ta tc a s :=
  withPrecision_congr fun p hp => by simp [usedOnly_eq hp]

theorem execCvtif_usedOnly (n : Word) : execCvtif ta tc (integerUsedOnly ta n) s = execCvtif ta tc n s :=
  withPrecision_congr fun q _ => withWidth_congr fun _ hw => by rw [signedPart_integerUsedOnly hw]

theorem execCvtfi_usedOnly : execCvtfi ta tc (a.usedOnly ta) s = execCvtfi ta tc a s :=
  withPrecision_congr fun p hp => by simp [usedOnly_eq hp]

end UsedBits

/-- Settles O6: each frame reads a slot through its used bits only. -/
theorem unusedBitsDoNotReachTheOutcome : Obligations.UnusedBitsDoNotReachTheOutcome := by
  intro i s
  cases i with
  | add | sub | mul | div | pow => exact binaryFloat_usedOnly ..
  | add3 => exact execAdd3_usedOnly
  | addmany | mulmany => exact variadicFold_usedOnly ..
  | powi => exact execPowi_usedOnly _
  | log | exp | sqrt | round | trunc | ceil | floor => exact unaryFloat_usedOnly ..
  | abs => exact unaryFloat_usedOnly .abs fun _ _ x => withSign false x
  | copysign => exact execCopysign_usedOnly
  | iszero | isone | isnan | isinf | isneg => exact unaryBool_usedOnly _
  | isgt => exact binaryBool_usedOnly _
  | cvtff => exact execCvtff_usedOnly
  | cvtif => exact execCvtif_usedOnly _
  | cvtfi => exact execCvtfi_usedOnly

/-! ### Completion (R24)

A request that passes the checks reads only slots that hold a value, so each frame comes to its answer. -/

/-- The slot holds a value: its type code names a precision and its bits are no non-canonical encoding. -/
def Readable (t : TypeCode) (b : Pair) : Prop :=
  ∃ p x, Precision.ofCode? t = some p ∧ decodeValue p b = some x

/-- The request is answered with OK and a result of the given kind and tag. -/
def Completes (s : State) (kind : RKind) (tag : TypeCode) (result : Result) : Prop :=
  ∃ r : Response, result = .next (s.deliver r) ∧ r.status = .ok ∧ r.rkind = kind ∧ r.rtag = tag

theorem isPrecision_iff {t : TypeCode} : t.isPrecision = true ↔ ∃ p, Precision.ofCode? t = some p := by
  rw [← Option.isSome_iff_exists, Option.isSome_iff_ne_none, Ne, Precision.ofCode?_eq_none, Bool.not_eq_false]

theorem isWidth_iff {t : TypeCode} : t.isWidth = true ↔ ∃ w, Width.ofCode? t = some w := by
  rw [← Option.isSome_iff_exists, Option.isSome_iff_ne_none, Ne, Width.ofCode?_eq_none, Bool.not_eq_false]

/-- A slot can be read when its code is legal and it is not one of the encodings of R104 read at EXTENDED. -/
theorem readable_iff {t : TypeCode} {b : Pair} :
    Readable t b ↔ t.isPrecision = true ∧ (t == 2#8 && b.nonCanonical) = false := by
  simp only [Readable, exists_and_left, ← Option.isSome_iff_exists (x := decodeValue _ b),
    Option.isSome_iff_ne_none, Ne, decodeValue_eq_none, isPrecision_iff, Precision.ofCode?_eq_some]
  constructor
  · rintro ⟨p, rfl, h⟩
    refine ⟨⟨p, rfl⟩, ?_⟩
    cases p <;> simp_all [Precision.ordinal]
  · rintro ⟨⟨p, rfl⟩, h⟩
    refine ⟨p, rfl, ?_⟩
    rintro ⟨rfl, hb⟩
    simp [Precision.ordinal, hb] at h

/-- Every code that a floating operand is read by is among those the type check looks at (R62 steps 4 and 5). -/
theorem data_isPrecision {i : Instr} (h : i.typesLegal = true) : ∀ d ∈ i.data, d.1.isPrecision = true := by
  cases i with
  | add | sub | mul | div | pow | isgt | add3 => simpa [Instr.typesLegal, Instr.data, and_assoc] using h
  | addmany | mulmany => simpa [Instr.typesLegal, Instr.data] using h
  | powi | log | exp | sqrt | round | trunc | ceil | floor | abs | copysign | iszero | isone | isnan | isinf | isneg =>
    simpa [Instr.typesLegal, Instr.data] using h
  | cvtff | cvtfi => simpa [Instr.data] using (Bool.and_eq_true_iff.1 h).1
  | cvtif => simp [Instr.data]

theorem executes_iff {i : Instr} :
    i.executes = true ↔ i.typesLegal = true ∧ i.negativeExponent = false ∧ i.readsNonCanonical = false := by
  simp [Instr.executes, and_assoc]

/-- A request that passes the checks can read each of its slots. -/
theorem readable_of_executes {i : Instr} (h : i.executes = true) {t : TypeCode} {b : Pair} (hd : (t, b) ∈ i.data) :
    Readable t b := by
  obtain ⟨legal, -, canonical⟩ := executes_iff.1 h
  rw [Instr.readsNonCanonical, List.any_eq_false] at canonical
  exact readable_iff.2 ⟨data_isPrecision legal _ hd, by simpa using canonical _ hd⟩

theorem typedElems_cons_eq_some {e : Elem} {es : List Elem} {ds : List (Precision × Pair)} :
    typedElems (e :: es) = some ds ↔
      ∃ p ds', Precision.ofCode? e.t = some p ∧ typedElems es = some ds' ∧ (p, e.v) :: ds' = ds := by
  cases hp : Precision.ofCode? e.t <;> cases hd : typedElems es <;> simp [typedElems, hp, hd]

/-- Elements that can be read, each by itself, are read as a sequence. -/
theorem decodeAll_of_readable {es : List Elem} (h : ∀ e ∈ es, Readable e.t e.v) :
    ∃ ds ys, typedElems es = some ds ∧ decodeAll ds = some ys := by
  induction es with
  | nil => exact ⟨[], [], rfl, rfl⟩
  | cons e es ih =>
    obtain ⟨⟨p, x, hp, hx⟩, hes⟩ := List.forall_mem_cons.1 h
    obtain ⟨ds, ys, hd, hy⟩ := ih hes
    exact ⟨(p, e.v) :: ds, x :: ys, by simp [typedElems, hp, hd], by simp [decodeAll, hx, hy]⟩

/-! ### The tag of a result (R24, R130) -/

/-- The wider of two legal codes names the promoted precision. -/
theorem ofCode?_wider {ta tb : TypeCode} {p q : Precision} (hp : Precision.ofCode? ta = some p)
    (hq : Precision.ofCode? tb = some q) : Precision.ofCode? (ta.wider tb) = some (promote p q) := by
  rw [Precision.ofCode?_eq_some] at hp hq
  subst hp hq
  cases p <;> cases q <;> rfl

/-- The widest of the legal codes of a sequence names the maximum of its precisions (R158). -/
theorem ofCode?_foldl_wider {es : List Elem} {ds : List (Precision × Pair)} (hd : typedElems es = some ds)
    {t : TypeCode} {p : Precision} (hp : Precision.ofCode? t = some p) :
    Precision.ofCode? (es.foldl (fun t e => t.wider e.t) t) = some (maxPrecision p ds) := by
  induction es generalizing t p ds with
  | nil => cases hd; exact hp
  | cons e es ih =>
    obtain ⟨q, ds', hq, hd', rfl⟩ := typedElems_cons_eq_some.1 hd
    exact ih hd' (ofCode?_wider hp hq)

/-! ### The answers of the operations that have a frame of their own -/

section Answers
variable {s : State} {ta tb tc : TypeCode} {p q r : Precision} {w : Width} {a b c : Pair} {x y z : Value} {n : Word}

theorem execAdd3_answer (hp : Precision.ofCode? ta = some p) (hq : Precision.ofCode? tb = some q)
    (hr : Precision.ofCode? tc = some r) (hx : decodeValue p a = some x) (hy : decodeValue q b = some y)
    (hz : decodeValue r c = some z) :
    execAdd3 ta tb tc a b c s =
      let u := promote (promote p q) r
      let nan := qNaN .add3 u [datum p a, datum q b, datum r c]
      .next (s.deliver (respondFloat u (fadd u nan (fadd u nan x y) z))) := by
  simp [execAdd3, withPrecision_legal _ hp, withPrecision_legal _ hq, withPrecision_legal _ hr, withValue_value _ hx,
    withValue_value _ hy, withValue_value _ hz, answer]

/-- The sign bit of the exponent word is the sign of the exponent (R170). -/
theorem toInt_neg_iff : n.toInt < 0 ↔ n.getLsbD 63 = true := by
  rw [BitVec.toInt_neg_iff, ← ge_iff_le, ← BitVec.msb_eq_true_iff_two_mul_ge, BitVec.msb_eq_getLsbD_last]

theorem execPowi_answer (hp : Precision.ofCode? ta = some p) (hn : ¬n.toInt < 0) (hx : decodeValue p a = some x) :
    execPowi ta a n s =
      .next (s.deliver (respondFloat p (fpowi p (qNaN .powi p [datum p a, .int n]) x n.toInt.toNat))) := by
  simp [execPowi, withPrecision_legal _ hp, hn, withValue_value _ hx, answer]

theorem execCopysign_answer (hp : Precision.ofCode? ta = some p) (hx : decodeValue p a = some x)
    (hy : decodeValue p b = some y) :
    execCopysign ta a b s = .next (s.deliver (respondFloat p (withSign y.sign x))) := by
  simp [execCopysign, withPrecision_legal _ hp, withValue_value _ hx, withValue_value _ hy, answer]

theorem execCvtff_answer (hp : Precision.ofCode? ta = some p) (hq : Precision.ofCode? tc = some q)
    (hx : decodeValue p a = some x) :
    execCvtff ta tc a s = .next (s.deliver (respondFloat q (convert p q (qNaN .cvtff q [datum p a]) x))) := by
  simp [execCvtff, withPrecision_legal _ hp, withPrecision_legal _ hq, withValue_value _ hx, answer]

theorem execCvtif_answer (hw : Width.ofCode? ta = some w) (hq : Precision.ofCode? tc = some q) :
    execCvtif ta tc n s =
      .next (s.deliver (respondFloat q (roundTo q (Exact.ofInt (signedPart w n)) false))) := by
  simp [execCvtif, withPrecision_legal _ hq, withWidth_legal _ hw, answer]

theorem execCvtfi_answer (hp : Precision.ofCode? ta = some p) (hw : Width.ofCode? tc = some w)
    (hx : decodeValue p a = some x) :
    execCvtfi ta tc a s = .next (s.deliver (respondInt w (floatToInt p w a x))) := by
  simp [execCvtfi, withPrecision_legal _ hp, withWidth_legal _ hw, withValue_value _ hx, answer]

end Answers

/-! ### Each frame completes -/

section Completion
variable {s : State} {ta tb tc : TypeCode} {a b c : Pair}

/-- A FLOAT response of the precision that a code names has that code as its tag (R76). -/
theorem completes_float {t : TypeCode} {p : Precision} (v : Value) (h : Precision.ofCode? t = some p) :
    Completes s .float t (.next (s.deliver (respondFloat p v))) :=
  ⟨_, rfl, rfl, rfl, (Precision.ofCode?_eq_some.1 h).symm⟩

theorem completes_bool (v : Bool) : Completes s .bool 0#8 (.next (s.deliver (respondBool v))) :=
  ⟨_, rfl, rfl, rfl, rfl⟩

theorem completes_int {t : TypeCode} {w : Width} (n : Int) (h : Width.ofCode? t = some w) :
    Completes s .int t (.next (s.deliver (respondInt w n))) :=
  ⟨_, rfl, rfl, rfl, (Width.ofCode?_eq_some.1 h).symm⟩

theorem unaryFloat_completes (o : Op) (f : Precision → Value → Value → Value) (ha : Readable ta a) :
    Completes s .float ta (unaryFloat o f ta a s) := by
  obtain ⟨p, x, hp, hx⟩ := ha
  rw [unaryFloat_answer o f hp hx]
  exact completes_float _ hp

theorem unaryBool_completes (f : Value → Bool) (ha : Readable ta a) :
    Completes s .bool 0#8 (unaryBool f ta a s) := by
  obtain ⟨p, x, hp, hx⟩ := ha
  rw [unaryBool_answer f hp hx]
  exact completes_bool _

theorem binaryFloat_completes (o : Op) (f : Precision → Value → Value → Value → Value) (ha : Readable ta a)
    (hb : Readable tb b) : Completes s .float (ta.wider tb) (binaryFloat o f ta tb a b s) := by
  obtain ⟨p, x, hp, hx⟩ := ha
  obtain ⟨q, y, hq, hy⟩ := hb
  rw [binaryFloat_answer o f hp hq hx hy]
  exact completes_float _ (ofCode?_wider hp hq)

theorem binaryBool_completes (f : Value → Value → Bool) (ha : Readable ta a) (hb : Readable tb b) :
    Completes s .bool 0#8 (binaryBool f ta tb a b s) := by
  obtain ⟨p, x, hp, hx⟩ := ha
  obtain ⟨q, y, hq, hy⟩ := hb
  rw [binaryBool_answer f hp hq hx hy]
  exact completes_bool _

theorem variadicFold_completes (o : Op) (step : Precision → Value → Value → Value → Value) {es : List Elem}
    (ha : Readable ta a) (hes : ∀ e ∈ es, Readable e.t e.v) :
    Completes s .float (es.foldl (fun t e => t.wider e.t) ta) (variadicFold o step ta a es s) := by
  obtain ⟨p, x, hp, hx⟩ := ha
  obtain ⟨ds, ys, hd, hy⟩ := decodeAll_of_readable hes
  rw [variadicFold_answer o step hp hd hx hy]
  exact completes_float _ (ofCode?_foldl_wider hd hp)

theorem execAdd3_completes (ha : Readable ta a) (hb : Readable tb b) (hc : Readable tc c) :
    Completes s .float ((ta.wider tb).wider tc) (execAdd3 ta tb tc a b c s) := by
  obtain ⟨p, x, hp, hx⟩ := ha
  obtain ⟨q, y, hq, hy⟩ := hb
  obtain ⟨r, z, hr, hz⟩ := hc
  rw [execAdd3_answer hp hq hr hx hy hz]
  exact completes_float _ (ofCode?_wider (ofCode?_wider hp hq) hr)

theorem execPowi_completes {n : Word} (ha : Readable ta a) (hn : n.getLsbD 63 = false) :
    Completes s .float ta (execPowi ta a n s) := by
  obtain ⟨p, x, hp, hx⟩ := ha
  rw [execPowi_answer hp (by rw [toInt_neg_iff, hn]; decide) hx]
  exact completes_float _ hp

theorem execCopysign_completes (ha : Readable ta a) (hb : Readable ta b) :
    Completes s .float ta (execCopysign ta a b s) := by
  obtain ⟨p, x, hp, hx⟩ := ha
  obtain ⟨q, y, hq, hy⟩ := hb
  obtain rfl : p = q := Option.some_injective _ (hp.symm.trans hq)
  rw [execCopysign_answer hp hx hy]
  exact completes_float _ hp

theorem execCvtff_completes (ha : Readable ta a) (hc : tc.isPrecision = true) :
    Completes s .float tc (execCvtff ta tc a s) := by
  obtain ⟨p, x, hp, hx⟩ := ha
  obtain ⟨q, hq⟩ := isPrecision_iff.1 hc
  rw [execCvtff_answer hp hq hx]
  exact completes_float _ hq

theorem execCvtif_completes (n : Word) (ha : ta.isWidth = true) (hc : tc.isPrecision = true) :
    Completes s .float tc (execCvtif ta tc n s) := by
  obtain ⟨w, hw⟩ := isWidth_iff.1 ha
  obtain ⟨q, hq⟩ := isPrecision_iff.1 hc
  rw [execCvtif_answer hw hq]
  exact completes_float _ hq

theorem execCvtfi_completes (ha : Readable ta a) (hc : tc.isWidth = true) :
    Completes s .int tc (execCvtfi ta tc a s) := by
  obtain ⟨p, x, hp, hx⟩ := ha
  obtain ⟨w, hw⟩ := isWidth_iff.1 hc
  rw [execCvtfi_answer hp hw hx]
  exact completes_int _ hw

end Completion

/-- Settles O20: the operands can be read and the destination type is legal, so each frame comes to its answer. -/
theorem executingRequestsComplete : Obligations.ExecutingRequestsComplete := by
  intro i s h
  have readable {t : TypeCode} {b : Pair} : (t, b) ∈ i.data → Readable t b := readable_of_executes h
  obtain ⟨legal, exponent, -⟩ := executes_iff.1 h
  cases i with
  | add | sub | mul | div | pow =>
    exact binaryFloat_completes _ _ (readable (.head _)) (readable (.tail _ (.head _)))
  | add3 =>
    exact execAdd3_completes (readable (.head _)) (readable (.tail _ (.head _)))
      (readable (.tail _ (.tail _ (.head _))))
  | addmany | mulmany =>
    exact variadicFold_completes _ _ (readable (.head _)) fun e he =>
      readable (.tail _ (List.mem_map_of_mem (f := fun e : Elem => (e.t, e.v)) he))
  | powi => exact execPowi_completes (readable (.head _)) exponent
  | log | exp | sqrt | round | trunc | ceil | floor => exact unaryFloat_completes _ _ (readable (.head _))
  | abs => exact unaryFloat_completes .abs (fun _ _ x => withSign false x) (readable (.head _))
  | copysign => exact execCopysign_completes (readable (.head _)) (readable (.tail _ (.head _)))
  | iszero | isone | isnan | isinf | isneg => exact unaryBool_completes _ (readable (.head _))
  | isgt => exact binaryBool_completes _ (readable (.head _)) (readable (.tail _ (.head _)))
  | cvtff => exact execCvtff_completes (readable (.head _)) (Bool.and_eq_true_iff.1 legal).2
  | cvtif =>
    obtain ⟨width, precision⟩ := Bool.and_eq_true_iff.1 legal
    exact execCvtif_completes _ width precision
  | cvtfi => exact execCvtfi_completes (readable (.head _)) (Bool.and_eq_true_iff.1 legal).2

end Sys2Proof.Machine

/-! The channel family: the packet of a request decodes to the request, so a step consumes exactly it and answers it; and
how a packet is answered depends on neither the words behind it nor the responses delivered before. -/

namespace Sys2Proof.Machine

/-! ### The packet of a request (R55, R56, R61) -/

/-- Only the words of one packet are decoded to a request: the decoder compares their number with the count field. -/
theorem isPacket_of_decode_ok {ws : List Word} {i : Instr} (h : decode ws = .ok i) : IsPacket ws := by
  unfold decode at h
  split at h
  next w _ _ _ _ _ _ _ tail =>
    split at h
    next => cases h
    next length =>
      refine ⟨w, _, rfl, ?_⟩
      change tail.length + 8 = 8 + 3 * (cmdCnt w).toNat
      omega
  next => cases h

/-- A packet with a command word of R56 passes the checks of the decoder when its count is the number of its elements, and
zero for an operation that takes none. -/
theorem decode_packet {o : Op} {cnt : BitVec 16} {es : List Elem} (length : es.length = cnt.toNat)
    (count : o.format = .v ∨ cnt = 0#16) (ta tb tc : TypeCode) (a b c : Pair) (n : Word) :
    decode (packet (cmdWord o ta tb tc cnt) a b c n es) =
      .ok (o.request (cmdWord o ta tb tc cnt) a b c n es) := by
  have wordCount : (es.flatMap Elem.words).length = 3 * cnt.toNat := by rw [length_words, length]
  have countLegal : ¬(o.format ≠ .v ∧ cnt ≠ 0#16) := by tauto
  simp only [packet, decode, cmdCnt_cmdWord, cmdRsv_cmdWord, cmdOpc_cmdWord, Op.ofCode?_code, elements_words, wordCount,
    countLegal, ne_eq, not_true_eq_false, if_false]

/-- An element count that fits its field is read back from it. -/
theorem toNat_count {es : List Elem} (h : es.length ≤ Config.maxCnt) :
    es.length = (BitVec.ofNat 16 es.length).toNat := by
  rw [BitVec.toNat_ofNat, Nat.mod_eq_of_lt (show es.length < 2 ^ 16 from Nat.lt_succ_of_le h)]

/-- The decoder reads back every request that a packet can carry. -/
theorem decode_encode {i : Instr} (h : i.wf = true) : decode (encode i) = .ok i := by
  cases i with
  | addmany | mulmany =>
    rw [encode, decode_packet (toNat_count (of_decide_eq_true h)) (.inl rfl)]
    simp [Op.request, Instr.op]
  | add | sub | mul | div | add3 | powi | pow | log | exp | sqrt | round | trunc | ceil | floor | abs | copysign
  | iszero | isone | isnan | isinf | isneg | isgt | cvtff | cvtif | cvtfi =>
    rw [encode, decode_packet rfl (.inr rfl)]
    simp [Op.request, Instr.op]

theorem isPacket_encode {i : Instr} (h : i.wf = true) : IsPacket (encode i) :=
  isPacket_of_decode_ok (decode_encode h)

/-! ### What a step makes of a packet (R47, R48) -/

/-- A step takes the packet of a request off the channel and executes the request. -/
theorem step_encode {i : Instr} (h : i.wf = true) (rest : List Word) (delivered : List Response) :
    step ⟨encode i ++ rest, delivered⟩ = exec i ⟨rest, delivered⟩ := by
  rw [step_packet (isPacket_encode h) rfl, decode_encode h]

/-- Settles O7, by induction on the requests: one step answers the first, and the run goes on with its response
delivered. -/
theorem responsesComeInRequestOrder : Obligations.ResponsesComeInRequestOrder := by
  intro is rs later delivered h
  induction h generalizing delivered with
  | nil => simp [runSteps]
  | @cons i r is rs first _ ih =>
    obtain ⟨wf, answered⟩ := first
    have stepped : step ⟨encode i ++ (is.flatMap encode ++ later), delivered⟩ =
        .next ⟨is.flatMap encode ++ later, delivered ++ [r]⟩ :=
      (step_encode wf ..).trans (answered _)
    simp only [List.flatMap_cons, List.append_assoc, List.length_cons, runSteps, stepped, ih, List.singleton_append]

/-- A packet at the head of the channel has one outcome, whatever waits behind it and whatever was delivered before: the
error response if it names no operation, and else that of the request it decodes to. -/
theorem step_packet_uniform {ws : List Word} (h : IsPacket ws) :
    ∃ f, Uniform f ∧ ∀ (s : State) (rest : List Word), s.inbox = ws ++ rest → step s = f { s with inbox := rest } := by
  cases hd : decode ws with
  | error r => exact ⟨rejectPacket r, uniform_raise .illegalCommand, fun s rest e => by rw [step_packet h e, hd]⟩
  | ok i => exact ⟨exec i, uniform_exec i, fun s rest e => by rw [step_packet h e, hd]⟩

/-- Settles O8: the packet keeps its one outcome, and issuing words and collecting a response commute with delivering. -/
theorem hostActionsDoNotChangeAnAnswer : Obligations.HostActionsDoNotChangeAnAnswer := by
  intro s t ws rest later isPacket head stepped
  obtain ⟨f, uniform, outcome⟩ := step_packet_uniform isPacket
  rw [outcome s rest head] at stepped
  obtain ⟨r, answered⟩ | refused := uniform
  · obtain rfl : State.deliver { s with inbox := rest } r = t := by simpa [answered] using stepped
    constructor
    · rw [outcome (s.hostIssue later) (rest ++ later) (by simp [head]), answered]
      rfl
    · intro nonempty
      rw [outcome s.hostCollect rest head, answered]
      simp [State.deliver, State.hostCollect, List.tail_append_of_ne_nil nonempty]
  · simp [refused] at stepped

end Sys2Proof.Machine

/-! The encoding family, the packets: a request is decoded from its own packet, and a packet is that of the request it
decodes to but for the fields its format does not read; the packets that the spec prints; the words of a response. -/

namespace Sys2Proof.Machine

/-! ### From a request to its packet and back (R55, R56, R61) -/

/-- Settles O10: the decoder reads every field back from where the encoder writes it. -/
theorem decodeInvertsEncode : Obligations.DecodeInvertsEncode := fun _ => decode_encode

/-- Settles O3: what a step makes of the packet at the head of the channel, when that names an operation. -/
theorem stepRunsTheDecodedRequest : Obligations.StepRunsTheDecodedRequest := by
  intro s ws rest i packet head decoded
  rw [step_packet packet head, decoded]

/-! ### From a packet to its request and back (R61, R64, R65) -/

/-- A packet that decodes has a legal command word, whose operation says what the packet decodes to. -/
theorem request_of_decode_ok {ws : List Word} {i : Instr} (h : decode ws = .ok i) :
    ∃ (o : Op) (w : Word) (a b c : Pair) (n : Word) (rest : List Word),
      ws = w :: a.m :: a.es :: b.m :: b.es :: c.m :: c.es :: n :: rest ∧
        rest.length = 3 * (cmdCnt w).toNat ∧ cmdRsv w = 0#16 ∧ o.code = cmdOpc w ∧
        (o.format = .v ∨ cmdCnt w = 0#16) ∧ i = o.request w a b c n (elements rest) := by
  unfold decode at h
  split at h
  next w am aes bm bes cm ces n rest =>
    split_ifs at h with length reserved
    split at h
    next => cases h
    next o code =>
      split_ifs at h with count
      exact ⟨o, w, ⟨am, aes⟩, ⟨bm, bes⟩, ⟨cm, ces⟩, n, rest, rfl, not_not.1 length, not_not.1 reserved,
        Op.ofCode?_eq_some.1 code, by tauto, (Except.ok.inj h).symm⟩
  next => cases h

@[simp] theorem op_request (o : Op) (w : Word) (a b c : Pair) (n : Word) (es : List Elem) :
    (o.request w a b c n es).op = o := by
  cases o <;> rfl

/-- Only the elements of a request must fit a field, so every request without elements can be carried. -/
theorem wf_request (o : Op) (w : Word) (a b c : Pair) (n : Word) {es : List Elem} (h : es.length ≤ Config.maxCnt) :
    (o.request w a b c n es).wf = true := by
  cases o with
  | addmany | mulmany => exact decide_eq_true h
  | add | sub | mul | div | add3 | powi | pow | log | exp | sqrt | round | trunc | ceil | floor | abs | copysign
  | iszero | isone | isnan | isinf | isneg | isgt | cvtff | cvtif | cvtfi => rfl

/-- Writing back the tag read from a tag word clears its bits 63:8 (R64). -/
theorem setWidth_tag (t : Word) : (t.extractLsb' 0 8).setWidth 64 = t &&& 0xFF#64 := by
  rw [← BitVec.setWidth_eq_extractLsb' (by decide)]
  exact (and_mask t (k := 8) (by decide)).symm

/-- The words of `k` elements are read as `k` elements, whose words they are but for bits 63:8 of the tag words. -/
theorem elements_spec {k : Nat} {ws : List Word} (h : ws.length = 3 * k) :
    (elements ws).length = k ∧ (elements ws).flatMap Elem.words = clearTags ws := by
  induction k generalizing ws with
  | zero =>
    obtain rfl := List.eq_nil_of_length_eq_zero h
    exact ⟨rfl, rfl⟩
  | succ k ih =>
    match ws, h with
    | t :: m :: es :: rest, h =>
      obtain ⟨length, words⟩ := ih (ws := rest) (by simp only [List.length_cons] at h; omega)
      exact ⟨congrArg (· + 1) length, by simp [elements, clearTags, Elem.words, words, setWidth_tag]⟩

/-- A command word with `rsv = 0` is made of its fields (R56). -/
theorem cmdWord_fields {o : Op} {w : Word} (reserved : cmdRsv w = 0#16) (code : o.code = cmdOpc w) :
    cmdWord o (cmdTa w) (cmdTb w) (cmdTc w) (cmdCnt w) = w := by
  rw [cmdWord, ← reserved, code]
  ext i hi
  simp [cmdRsv, cmdCnt, cmdTc, cmdTb, cmdTa, cmdOpc]
  grind

/-- The fields of a command word are masked each by itself (R56). -/
theorem cmdWord_and (o : Op) (ta tb tc x y : TypeCode) (cnt : BitVec 16) :
    cmdWord o ta tb tc cnt &&& (0#16 ++ BitVec.allOnes 16 ++ y ++ x ++ BitVec.allOnes 8 ++ BitVec.allOnes 8) =
      cmdWord o ta (tb &&& x) (tc &&& y) cnt := by
  unfold cmdWord
  repeat rw [BitVec.and_append]
  simp only [BitVec.and_allOnes, BitVec.and_self]

/-- The mask of a format clears those type codes of a command word that the format does not read (R61). -/
theorem cmdWord_and_commandMask (f : Format) (o : Op) (ta tb tc : TypeCode) (cnt : BitVec 16) :
    cmdWord o ta tb tc cnt &&& f.commandMask =
      cmdWord o ta (if f = .b ∨ f = .t then tb else 0#8)
        (if f = .t ∨ f = .cff ∨ f = .cif ∨ f = .cfi then tc else 0#8) cnt := by
  have masked := cmdWord_and o ta tb tc (cnt := cnt)
  have kept (t : TypeCode) : t &&& 0xFF#8 = t := BitVec.and_allOnes
  cases f with
  | u | bs | v | pi => exact (masked 0#8 0#8).trans (by simp)
  | b => exact (masked 0xFF#8 0#8).trans (by simp [kept])
  | t => exact (masked 0xFF#8 0xFF#8).trans (by simp [kept])
  | cff | cif | cfi => exact (masked 0#8 0xFF#8).trans (by simp [kept])

/-- The packet of the request that a packet carries is that packet with its unread fields cleared: `rest` is the words
of the elements, of which there are as many as `cnt` says, and none unless the format is V. -/
theorem encode_request {o : Op} {cnt : BitVec 16} {rest : List Word} (length : rest.length = 3 * cnt.toNat)
    (count : o.format = .v ∨ cnt = 0#16) (ta tb tc : TypeCode) (a b c : Pair) (n : Word) :
    encode (o.request (cmdWord o ta tb tc cnt) a b c n (elements rest)) =
      o.format.clearUnread (cmdWord o ta tb tc cnt :: a.m :: a.es :: b.m :: b.es :: c.m :: c.es :: n :: rest) := by
  obtain ⟨elementCount, words⟩ := elements_spec length
  cases o with
  | addmany | mulmany =>
    simp [Op.request, Instr.op, encode, packet, Format.clearUnread, Op.format, cmdWord_and_commandMask, words,
      elementCount]
  | add | sub | mul | div | add3 | powi | pow | log | exp | sqrt | round | trunc | ceil | floor | abs | copysign
  | iszero | isone | isnan | isinf | isneg | isgt | cvtff | cvtif | cvtfi =>
    obtain rfl := count.resolve_left (by decide)
    obtain rfl := List.eq_nil_of_length_eq_zero length
    simp [Op.request, Instr.op, encode, packet, Format.clearUnread, Op.format, cmdWord_and_commandMask, clearTags]

/-- Settles O11: the command word is made of its fields and the element words of their elements, so encoding writes back
all that was read. -/
theorem decodeDropsOnlyUnreadFields : Obligations.DecodeDropsOnlyUnreadFields := by
  intro ws i decoded
  obtain ⟨o, w, a, b, c, n, rest, rfl, length, reserved, code, count, rfl⟩ := request_of_decode_ok decoded
  constructor
  · refine wf_request o w a b c n ?_
    rw [(elements_spec length).1]
    exact Nat.le_of_lt_succ (cmdCnt w).isLt
  · rw [op_request]
    have encoded := encode_request length count (cmdTa w) (cmdTb w) (cmdTc w) a b c n
    rwa [cmdWord_fields reserved code] at encoded

/-! ### The packets that the spec prints (R84) -/

/-- Settles O12: the decoder is evaluated on each packet. -/
theorem wordsOfTheSpecDecode : Obligations.WordsOfTheSpecDecode := by
  unfold Obligations.WordsOfTheSpecDecode
  decide

/-- Settles O13: the packet decodes to ADD, the slots hold 3/2 and 9/4, and the response is DOUBLE 15/4. -/
theorem workedEncoding : Obligations.WorkedEncoding := by
  obtain ⟨decoded, -⟩ := wordsOfTheSpecDecode
  have augend : decodeValue .single ⟨0x3FC00000, 0⟩ = some (.fin (mkRat 3 2)) := by decide
  have addend : decodeValue .double ⟨0x4002000000000000, 0⟩ = some (.fin (mkRat 9 4)) := by decide
  have sum (nan : Value) : fadd .double nan (.fin (mkRat 3 2)) (.fin (mkRat 9 4)) = .fin (mkRat 15 4) := rfl
  refine ⟨respondFloat .double (.fin (mkRat 15 4)), ?_, by decide⟩
  rw [step_packet (rest := []) (isPacket_of_decode_ok decoded) rfl, decoded, ← sum]
  exact binaryFloat_answer .add fadd (ta := 0) (tb := 1) (p := .single) (q := .double) rfl rfl augend addend

/-! ### The words of a response (R76 to R80) -/

/-- Each field of `Q0` is read back (R80). -/
theorem firstWord_fields (kind : BitVec 2) (tag status : BitVec 8) {q : Word}
    (h : (kind ++ tag ++ status).setWidth 64 = q) :
    q.extractLsb' 0 8 = status ∧ q.extractLsb' 8 8 = tag ∧ q.extractLsb' 16 2 = kind ∧ q.extractLsb' 18 46 = 0#46 := by
  subst h
  refine ⟨?_, ?_, ?_, ?_⟩
  · ext i hi; simp; grind
  · ext i hi; simp; grind
  · ext i hi; simp; grind
  · ext i hi; simp

/-- `Q0` of a FLOAT (R76). -/
theorem floatWord (p : Precision) :
    ((RKind.float.code ++ BitVec.ofNat 8 p.ordinal ++ Status.ok.code).setWidth 64 : Word) =
      0x10000#64 ||| (BitVec.ofNat 64 p.ordinal <<< 8) := by
  cases p <;> decide

/-- `Q0` of an INT (R77). -/
theorem intWord (w : Width) :
    ((RKind.int.code ++ BitVec.ofNat 8 w.bits ++ Status.ok.code).setWidth 64 : Word) =
      0x20000#64 ||| (BitVec.ofNat 64 w.bits <<< 8) := by
  cases w <;> decide

/-- Settles O14: `Q0` is put together from its fields and the other words are those of the record. -/
theorem responseWordsCarryTheRecord : Obligations.ResponseWordsCarryTheRecord := by
  refine ⟨fun r => ⟨_, rfl, firstWord_fields _ _ _ rfl⟩, fun p v => ?_, fun w i => ?_, fun b => ?_, ?_⟩
  · exact congrArg (· :: _) (floatWord p)
  · exact congrArg (· :: _) (intWord w)
  · cases b <;> decide
  · decide

end Sys2Proof.Machine

/-! The encoding family, the responses: every step delivers a lawful response, and so an error carries no result. What
needs proof is that a FLOAT is canonical at EXTENDED. Only an exponent field that overflows its 15 bits could make it
otherwise, and no operation makes a number large enough for that. -/

namespace Sys2Proof.Machine

/-! ### Magnitudes that EXTENDED can carry -/

/-- The value is no finite number beyond `2 ^ (emax + 1)` of EXTENDED, the least magnitude that overflows there (R114).
The bound is an integer, so that rounding to an integral value keeps it. -/
def Bounded : Value → Prop
  | .fin x => |x| ≤ 2 ^ (Precision.extended.emax + 1)
  | .zero _ | .inf _ | .nan .. => True

theorem bounded_fin_iff {x : ℚ} : Bounded (.fin x) ↔ |x| ≤ 2 ^ (Precision.extended.emax + 1) := .rfl

@[simp] theorem bounded_zero (s : Bool) : Bounded (.zero s) := trivial
@[simp] theorem bounded_inf (s : Bool) : Bounded (.inf s) := trivial
@[simp] theorem bounded_nan (s q : Bool) (pl : Nat) : Bounded (.nan s q pl) := trivial
@[simp] theorem bounded_qNaN (o : Op) (p : Precision) (operands : List Operand) : Bounded (qNaN o p operands) := trivial

theorem bounded_fin {x : ℚ} {e : ℤ} (he : e ≤ Precision.extended.emax + 1) (h : |x| ≤ 2 ^ e) :
    Bounded (.fin x) :=
  h.trans (zpow_le_zpow_right₀ one_le_two he)

@[simp] theorem bounded_one : Bounded (.fin 1) := bounded_fin (e := 0) (by decide) (by simp)

theorem emax_le_extended (p : Precision) : p.emax + 1 ≤ Precision.extended.emax + 1 := by cases p <;> decide

@[simp] theorem abs_signed (s : Bool) (x : ℚ) : |Exact.signed s x| = |x| := by cases s <;> simp

/-- A positive number has no greater binary exponent than a power of two above it. -/
theorem floorLog2_le {a : ℚ} {e : ℤ} (h : 0 < a) (ha : a ≤ 2 ^ e) : Exact.floorLog2 a ≤ e :=
  (zpow_le_zpow_iff_right₀ one_lt_two).1 ((Exact.floorLog2_spec h).1.trans ha)

/-! ### The encoding of such a value is canonical (R102, R109) -/

/-- Packed EXTENDED fields are canonical when the integer bit is set exactly for an exponent field that is not zero. -/
theorem packFields_canonical {f : Fields} (exponent : f.exp < 2 ^ 15)
    (integerBit : f.sig.testBit 63 = decide (f.exp ≠ 0)) : (packFields .extended f).nonCanonical = false := by
  have bit : (BitVec.ofNat 64 f.sig).getLsbD 63 = decide (f.exp ≠ 0) := by
    rw [BitVec.getLsbD_ofNat, integerBit]
    rfl
  simp only [packFields, Pair.nonCanonical, extended_exp, bit, BitVec.toNat_ofNat, Nat.mod_eq_of_lt exponent]
  rcases Nat.eq_zero_or_pos f.exp with zero | pos
  · simp [zero]
  · simp [pos.ne']

/-- The significand of a normal number, scaled to its quantum, has its integer bit set. -/
theorem testBit_floor_of_normal {a : ℚ} (h : 0 < a) :
    (⌊a * 2 ^ (63 - Exact.floorLog2 a)⌋.toNat).testBit 63 = true := by
  obtain ⟨lower, upper⟩ := Exact.floorLog2_spec h
  have scale (k : ℤ) : (2 : ℚ) ^ k * 2 ^ (63 - Exact.floorLog2 a) = 2 ^ (k + (63 - Exact.floorLog2 a)) :=
    (zpow_add₀ two_ne_zero _ _).symm
  apply Nat.testBit_of_two_pow_le_and_two_pow_add_one_gt
  · rw [Int.le_toNat (by positivity), Int.le_floor]
    refine le_trans (le_of_eq ?_) (mul_le_mul_of_nonneg_right lower (by positivity))
    rw [scale, add_sub_cancel]
    norm_num
  · rw [Int.toNat_lt (by positivity), Int.floor_lt]
    refine lt_of_lt_of_eq (mul_lt_mul_of_pos_right upper (by positivity)) ?_
    rw [scale, add_right_comm, add_sub_cancel]
    norm_num

/-- The significand of a subnormal number has its integer bit clear. -/
theorem testBit_floor_of_subnormal {a : ℚ} (h0 : 0 ≤ a) (h : a < 2 ^ (-16382 : ℤ)) :
    (⌊a * 2 ^ (16445 : ℤ)⌋.toNat).testBit 63 = false := by
  apply Nat.testBit_lt_two_pow
  rw [Int.toNat_lt (by positivity), Int.floor_lt]
  refine lt_of_lt_of_eq (mul_lt_mul_of_pos_right h (by positivity)) ?_
  rw [← zpow_add₀ two_ne_zero]
  norm_num

/-- A bounded value is encoded with an exponent field of 15 bits, and with the integer bit that the field asks for. -/
theorem encodeExtended_fields {v : Value} (h : Bounded v) :
    (encodeExtended v).exp < 2 ^ 15 ∧ (encodeExtended v).sig.testBit 63 = decide ((encodeExtended v).exp ≠ 0) := by
  cases v with
  | zero => exact ⟨Nat.two_pow_pos 15, Nat.zero_testBit 63⟩
  | inf => exact ⟨show 0x7FFF < 2 ^ 15 by decide, Nat.testBit_two_pow_self⟩
  | nan s q pl =>
    refine ⟨show 0x7FFF < 2 ^ 15 by decide, ?_⟩
    rw [encodeExtended, Nat.testBit_or, Nat.testBit_two_pow_self]
    rfl
  | fin x =>
    simp only [encodeExtended, Exact.pow2_eq, Exact.abs_eq, Exact.mul_eq, Exact.floor_eq]
    split_ifs with normal
    · have pos : 0 < |x| := lt_of_lt_of_le (by positivity) normal
      have upper : Exact.floorLog2 |x| ≤ 16384 := floorLog2_le pos h
      have lower : -16382 < Exact.floorLog2 |x| + 1 :=
        (zpow_lt_zpow_iff_right₀ one_lt_two).1 (normal.trans_lt (Exact.floorLog2_spec pos).2)
      have nonzero : (Exact.floorLog2 |x| + 16383).toNat ≠ 0 := by omega
      have fits : (Exact.floorLog2 |x| + 16383).toNat < 2 ^ 15 := by omega
      exact ⟨fits, by simp [testBit_floor_of_normal pos, nonzero]⟩
    · exact ⟨by simp, by simpa using testBit_floor_of_subnormal (abs_nonneg x) (not_le.1 normal)⟩

/-! ### Each form of response is lawful (R76 to R79) -/

theorem respondFloat_lawful (p : Precision) {v : Value} (h : Bounded v) : (respondFloat p v).Lawful := by
  refine ⟨p, rfl, encodeValue_unusedZero p v, ?_⟩
  rintro rfl
  obtain ⟨exponent, integerBit⟩ := encodeExtended_fields h
  exact packFields_canonical exponent integerBit

theorem respondInt_lawful {w : Width} {i : ℤ} (lower : -2 ^ (w.bits - 1) ≤ i) (upper : i < 2 ^ (w.bits - 1)) :
    (respondInt w i).Lawful := by
  have within : (2 : ℤ) ^ (w.bits - 1) ≤ 2 ^ 63 := by cases w <;> decide
  have pattern : (BitVec.ofInt 64 i).toInt = i :=
    BitVec.toInt_ofInt_eq_self (by decide) (by simp only [Nat.reduceSub]; omega) (by simp only [Nat.reduceSub]; omega)
  exact ⟨w, rfl, lower.trans_eq pattern.symm, pattern.trans_lt upper, rfl⟩

theorem respondBool_lawful (b : Bool) : (respondBool b).Lawful :=
  ⟨rfl, by cases b <;> simp, rfl⟩

theorem respondError_lawful {e : Status} (h : e ≠ .ok) : (respondError e).Lawful := by
  cases e with
  | ok => contradiction
  | unsupportedType | domain | illegalCommand => exact ⟨rfl, rfl, rfl, rfl⟩

/-! ### Every value that a request reads is bounded -/

/-- A significand of `k` bits and an exponent within range give a bounded number. -/
theorem bounded_significand (s : Bool) {n k : Nat} {q : ℤ} (hn : n < 2 ^ k)
    (hq : k + q ≤ Precision.extended.emax + 1) :
    Bounded (.fin (Exact.signed s (Exact.mul (Exact.ofNat n) (Exact.pow2 q)))) := by
  refine bounded_fin hq ?_
  have scaled : (n : ℚ) * 2 ^ q ≤ 2 ^ k * 2 ^ q := by gcongr; exact_mod_cast hn.le
  rw [abs_signed, Exact.mul_eq, Exact.ofNat_eq, Exact.pow2_eq, abs_of_nonneg (by positivity), zpow_add₀ two_ne_zero,
    zpow_natCast]
  exact scaled

theorem decodeInterchange_bounded (p : Precision) {f : Fields} (fit : f.sig < 2 ^ p.fracBits) :
    Bounded (decodeInterchange p f) := by
  unfold decodeInterchange
  split_ifs with _ _ finite
  · exact bounded_zero _
  · exact bounded_significand _ fit (by cases p <;> decide)
  · have significand : 2 ^ p.fracBits + f.sig < 2 ^ (p.fracBits + 1) := by rw [pow_succ]; omega
    refine bounded_significand _ significand ?_
    cases p <;> simp only [Precision.maxExp, Precision.expBits, Precision.bias, Precision.fracBits,
      Precision.emax] at finite ⊢ <;> omega
  · exact bounded_inf _
  · exact bounded_nan _ _ _

theorem decodeExtended_bounded {f : Fields} (fit : f.sig < 2 ^ 64) {v : Value} (h : decodeExtended f = some v) :
    Bounded v := by
  unfold decodeExtended at h
  split_ifs at h with _ _ _ finite <;> cases h
  · exact bounded_zero _
  · exact bounded_significand _ fit (by decide)
  · refine bounded_significand _ fit ?_
    simp only [Precision.emax, Precision.bias]
    omega
  · exact bounded_inf _
  · exact bounded_nan _ _ _

theorem decodeValue_bounded {p : Precision} {b : Pair} {v : Value} (h : decodeValue p b = some v) : Bounded v := by
  obtain ⟨-, fit⟩ := fields_fit p b
  cases p with
  | single | double => cases h; exact decodeInterchange_bounded _ fit
  | extended => exact decodeExtended_bounded fit h

/-! ### Every value that an operation makes is bounded

A finite sum, product or quotient has been rounded, whatever the operands. Only the operations that round nothing, or to
an integer, need the bound on what they are given. -/

section Values
variable {p q : Precision} {nan x y : Value}

@[simp] theorem bounded_roundTo (p : Precision) (x : ℚ) (s : Bool) : Bounded (roundTo p x s) := by
  rcases eq_or_ne x 0 with rfl | nonzero
  · simp
  obtain ⟨-, rounded⟩ | ⟨-, -, rounded⟩ | ⟨small, -, rounded⟩ := roundTo_cases (p := p) (s0 := s) nonzero
  · simp [rounded]
  · simp [rounded]
  · rw [rounded]
    refine bounded_fin (emax_le_extended p) (le_of_eq_of_le ?_ small.le)
    have : 0 ≤ roundedMagnitude p |x| := by rw [roundedMagnitude_eq]; positivity
    split_ifs
    · rw [abs_neg, abs_of_nonneg this]
    · exact abs_of_nonneg this

theorem bounded_ite {c : Prop} [Decidable c] (hx : Bounded x) (hy : Bounded y) : Bounded (if c then x else y) := by
  split_ifs
  · exact hx
  · exact hy

theorem bounded_fadd (hn : Bounded nan) : Bounded (fadd p nan x y) := by
  unfold fadd addFinite; split <;> simp [hn, bounded_ite]

theorem bounded_fmul (hn : Bounded nan) : Bounded (fmul p nan x y) := by
  unfold fmul; split <;> simp [hn]

theorem bounded_fdiv (hn : Bounded nan) : Bounded (fdiv p nan x y) := by
  unfold fdiv; split <;> simp [hn]

theorem bounded_foldl {step : Value → Value → Value} (h : ∀ x y, Bounded (step x y)) (ys : List Value)
    (hx : Bounded x) : Bounded (ys.foldl step x) := by
  induction ys generalizing x with
  | nil => exact hx
  | cons y ys ih => exact ih (h x y)

theorem bounded_powiLoop (hn : Bounded nan) {k n : Nat} {b r : Value} (hr : Bounded r) :
    Bounded (powiLoop p nan k n b r) := by
  induction k generalizing n b r with
  | zero => exact hr
  | succ k ih =>
    unfold powiLoop
    exact bounded_ite hr (ih (bounded_ite (bounded_fmul hn) hr))

@[simp] theorem bounded_transValue (p : Precision) (raw : Pair) : Bounded (transValue p raw) := by
  have kept (v : Value) (h : Bounded v) : Bounded (quieten p v) := by cases v <;> exact h
  refine kept _ ?_
  cases decoded : decodeValue p (forceCanonical p raw) with
  | none => exact bounded_zero _
  | some v => exact decodeValue_bounded decoded

theorem bounded_fpow (hn : Bounded nan) : Bounded (fpow p nan x y) := by
  unfold fpow
  repeat' apply bounded_ite
  all_goals simp [hn]

theorem bounded_flog (hn : Bounded nan) : Bounded (flog p nan x) := by
  unfold flog; split <;> simp [hn, bounded_ite]

theorem bounded_fexp (hn : Bounded nan) : Bounded (fexp p nan x) := by
  unfold fexp; split <;> simp [hn]

theorem bounded_withSign (t : Bool) (hx : Bounded x) : Bounded (withSign t x) := by
  cases x with
  | fin u => simpa [withSign, bounded_fin_iff] using hx
  | zero | inf | nan => trivial

theorem bounded_convert (hn : Bounded nan) (hx : Bounded x) : Bounded (convert p q nan x) := by
  refine bounded_ite hx ?_
  split <;> simp [hn]

end Values

/-- An integer function of rationals that never leaves the integers around its argument. -/
def StaysWithin (I : ℚ → ℤ) : Prop := ∀ (u : ℚ) (n : ℤ), |u| ≤ n → |I u| ≤ n

theorem staysWithin_floor : StaysWithin Exact.floor := by
  intro u n h
  rw [abs_le] at h ⊢
  obtain ⟨lower, upper⟩ := h
  rw [Exact.floor_eq]
  constructor
  · rw [Int.le_floor]; exact_mod_cast lower
  · exact_mod_cast (Int.floor_le u).trans upper

theorem staysWithin_ceil : StaysWithin Exact.ceil := by
  intro u n h
  rw [abs_le] at h ⊢
  obtain ⟨lower, upper⟩ := h
  rw [Exact.ceil_eq]
  constructor
  · exact_mod_cast lower.trans (Int.le_ceil u)
  · exact Int.ceil_le.2 upper

theorem staysWithin_truncate : StaysWithin Exact.truncate := by
  intro u n h
  unfold Exact.truncate
  split_ifs
  · exact staysWithin_ceil u n h
  · exact staysWithin_floor u n h

theorem staysWithin_roundAway : StaysWithin roundAway := by
  intro u n h
  have half : mkRat 1 2 = 1 / 2 := by norm_num
  have magnitude : |⌊|u| + mkRat 1 2⌋| ≤ n := by
    rw [half, abs_of_nonneg (by positivity), ← Int.lt_add_one_iff, Int.floor_lt]
    push_cast
    linarith
  unfold roundAway
  simp only [Exact.floor_eq, Exact.add_eq, Exact.abs_eq]
  split_ifs with negative
  · rw [abs_neg]
    exact magnitude
  · rw [abs_of_nonneg (not_lt.1 negative)] at magnitude
    exact magnitude

theorem bounded_integral {I : ℚ → ℤ} (hI : StaysWithin I) {p : Precision} {nan x : Value} (hn : Bounded nan)
    (hx : Bounded x) : Bounded (integral I p nan x) := by
  cases x with
  | zero | inf => trivial
  | nan => exact hn
  | fin u =>
    refine bounded_ite (bounded_zero _) ?_
    have bound : (2 : ℚ) ^ (Precision.extended.emax + 1) = ((2 ^ 16384 : ℕ) : ℤ) := by
      rw [Int.cast_natCast, Nat.cast_pow]
      exact zpow_natCast 2 16384
    rw [bounded_fin_iff, bound] at hx ⊢
    rw [Exact.ofInt_eq]
    exact_mod_cast hI u _ hx

/-- The binary exponent of a bounded number that is not negative. -/
theorem floorLog2_le_of_bounded {u : ℚ} (h0 : 0 ≤ u) (hu : Bounded (.fin u)) : Exact.floorLog2 u ≤ 16384 := by
  rcases h0.eq_or_lt with rfl | pos
  · decide
  · rw [bounded_fin_iff, abs_of_pos pos] at hu
    exact floorLog2_le pos hu

/-- The weight of the last digit of a square root (R187). -/
def sqrtUnit (p : Precision) (u : ℚ) : ℚ := 2 ^ (sqrtExponent u - (p.prec - 1))

theorem sqrtUnit_pos (p : Precision) (u : ℚ) : 0 < sqrtUnit p u := by unfold sqrtUnit; positivity

/-- The scaled operand counts squares of that weight (R187). -/
theorem sqrtScaled_mul (p : Precision) (u : ℚ) : sqrtScaled p u * sqrtUnit p u ^ 2 = u := by
  have cancel (e : ℤ) : -2 * e + e * (2 : ℕ) = 0 := by push_cast; ring
  rw [sqrtScaled, sqrtUnit, Exact.mul_eq, Exact.pow2_eq, mul_assoc, ← zpow_natCast, ← zpow_mul,
    ← zpow_add₀ two_ne_zero, cancel, zpow_zero, mul_one]

/-- The digits of a square root exceed the root by at most one in their last place. -/
theorem sqrtDigits_le (p : Precision) {u : ℚ} (h0 : 0 ≤ u) :
    ∃ n : ℕ, sqrtDigits p u ≤ n + 1 ∧ (n * sqrtUnit p u) ^ 2 ≤ u := by
  refine ⟨Exact.isqrt (Exact.floor (sqrtScaled p u)).toNat, ?_, ?_⟩
  · unfold sqrtDigits
    dsimp only
    split_ifs <;> omega
  · have nonneg : 0 ≤ sqrtScaled p u := by rw [sqrtScaled, Exact.mul_eq, Exact.pow2_eq]; positivity
    have root : (Exact.isqrt (Exact.floor (sqrtScaled p u)).toNat : ℚ) ^ 2 ≤ sqrtScaled p u := by
      refine le_trans ?_ (Nat.floor_le nonneg)
      rw [Exact.floor_eq, Int.floor_toNat]
      exact_mod_cast (Exact.isqrt_spec _).1
    calc _ = _ * sqrtUnit p u ^ 2 := mul_pow ..
      _ ≤ sqrtScaled p u * sqrtUnit p u ^ 2 := by gcongr
      _ = u := sqrtScaled_mul p u

theorem sqrtUnit_le {p : Precision} {u : ℚ} (h0 : 0 ≤ u) (hu : Bounded (.fin u)) :
    sqrtUnit p u ≤ 2 ^ (8192 : ℤ) := by
  refine zpow_le_zpow_right₀ one_le_two ?_
  have exponent := floorLog2_le_of_bounded h0 hu
  have precision := p.prec_pos
  unfold sqrtExponent
  omega

/-- A number whose square is bounded is at most the root of the bound. -/
theorem le_of_sq_bounded {y u : ℚ} (hy : 0 ≤ y) (hu : Bounded (.fin u)) (h : y ^ 2 ≤ u) :
    y ≤ 2 ^ (8192 : ℤ) := by
  have square : ((2 : ℚ) ^ (8192 : ℤ)) ^ 2 = 2 ^ (Precision.extended.emax + 1) := by
    rw [← zpow_natCast, ← zpow_mul]
    exact congrArg ((2 : ℚ) ^ ·) (by decide)
  refine (pow_le_pow_iff_left₀ hy (by positivity) two_ne_zero).1 ?_
  rw [square]
  exact h.trans ((le_abs_self u).trans hu)

theorem bounded_fsqrt {p : Precision} {nan x : Value} (hn : Bounded nan) (hx : Bounded x) :
    Bounded (fsqrt p nan x) := by
  cases x with
  | zero => trivial
  | nan => exact hn
  | inf s =>
    cases s
    · trivial
    · exact hn
  | fin u =>
    rw [fsqrt]
    split_ifs with negative
    · exact hn
    have h0 := not_lt.1 negative
    obtain ⟨n, digits, root⟩ := sqrtDigits_le p h0
    have unitPos := sqrtUnit_pos p u
    refine bounded_fin (e := 8193) (by decide) ?_
    rw [Exact.mul_eq, Exact.ofNat_eq, Exact.pow2_eq, abs_of_nonneg (by positivity)]
    calc sqrtDigits p u * sqrtUnit p u ≤ (n + 1) * sqrtUnit p u := by gcongr; exact_mod_cast digits
      _ = n * sqrtUnit p u + sqrtUnit p u := by rw [add_mul, one_mul]
      _ ≤ 2 ^ (8192 : ℤ) + 2 ^ (8192 : ℤ) :=
        add_le_add (le_of_sq_bounded (by positivity) hx root) (sqrtUnit_le h0 hx)
      _ = 2 ^ (8192 + 1 : ℤ) := by rw [zpow_add_one₀ two_ne_zero, mul_two]
      _ = 2 ^ (8193 : ℤ) := congrArg ((2 : ℚ) ^ ·) (by decide)

/-! ### Every answer is lawful -/

/-- If the request is answered at all, one lawful response is delivered and nothing else changed. A frame keeps this if
what it is continued by has it. -/
def AnswersLawfully (s : State) (result : Result) : Prop :=
  ∀ t, result = .next t → ∃ r : Response, r.Lawful ∧ t = s.deliver r

section Frames
variable {s : State} {t ta tb tc : TypeCode} {p : Precision} {a b c : Pair}

theorem lawful_answer {r : Response} (h : r.Lawful) : AnswersLawfully s (answer s r) := by
  rintro _ ⟨⟩
  exact ⟨r, h, rfl⟩

theorem lawful_raise {e : Status} (h : e ≠ .ok) : AnswersLawfully s (raise e s) := by
  rintro _ ⟨⟩
  exact ⟨_, respondError_lawful h, rfl⟩

theorem lawful_refused (e : Refusal) : AnswersLawfully s (.refused e) := nofun

theorem lawful_float (p : Precision) {v : Value} (h : Bounded v) : AnswersLawfully s (answer s (respondFloat p v)) :=
  lawful_answer (respondFloat_lawful p h)

theorem lawful_bool (v : Bool) : AnswersLawfully s (answer s (respondBool v)) := lawful_answer (respondBool_lawful v)

theorem lawful_withPrecision {k : Precision → Result} (h : ∀ p, AnswersLawfully s (k p)) :
    AnswersLawfully s (withPrecision t s k) := by
  unfold withPrecision; split
  · exact h _
  · exact lawful_raise (by decide)

theorem lawful_withWidth {k : Width → Result} (h : ∀ w, AnswersLawfully s (k w)) :
    AnswersLawfully s (withWidth t s k) := by
  unfold withWidth; split
  · exact h _
  · exact lawful_raise (by decide)

theorem lawful_withElems {es : List Elem} {k : List (Precision × Pair) → Result}
    (h : ∀ ds, AnswersLawfully s (k ds)) : AnswersLawfully s (withElems es s k) := by
  unfold withElems; split
  · exact h _
  · exact lawful_raise (by decide)

theorem lawful_withValue {k : Value → Result} (h : ∀ x, Bounded x → AnswersLawfully s (k x)) :
    AnswersLawfully s (withValue p a k) := by
  unfold withValue; split
  next decoded => exact h _ (decodeValue_bounded decoded)
  next => exact lawful_refused _

theorem lawful_withValues {ds : List (Precision × Pair)} {k : List Value → Result}
    (h : ∀ xs, AnswersLawfully s (k xs)) : AnswersLawfully s (withValues ds k) := by
  unfold withValues; split
  · exact h _
  · exact lawful_refused _

theorem lawful_unaryFloat (o : Op) {f : Precision → Value → Value → Value}
    (h : ∀ {p nan x}, Bounded nan → Bounded x → Bounded (f p nan x)) :
    AnswersLawfully s (unaryFloat o f ta a s) :=
  lawful_withPrecision fun _ => lawful_withValue fun _ hx => lawful_float _ (h (bounded_qNaN ..) hx)

theorem lawful_unaryBool (f : Value → Bool) : AnswersLawfully s (unaryBool f ta a s) :=
  lawful_withPrecision fun _ => lawful_withValue fun _ _ => lawful_bool _

theorem lawful_binaryFloat (o : Op) {f : Precision → Value → Value → Value → Value}
    (h : ∀ {p nan x y}, Bounded nan → Bounded (f p nan x y)) : AnswersLawfully s (binaryFloat o f ta tb a b s) :=
  lawful_withPrecision fun _ => lawful_withPrecision fun _ => lawful_withValue fun _ _ => lawful_withValue fun _ _ =>
    lawful_float _ (h (bounded_qNaN ..))

theorem lawful_binaryBool (f : Value → Value → Bool) : AnswersLawfully s (binaryBool f ta tb a b s) :=
  lawful_withPrecision fun _ => lawful_withPrecision fun _ => lawful_withValue fun _ _ => lawful_withValue fun _ _ =>
    lawful_bool _

theorem lawful_variadicFold (o : Op) {step : Precision → Value → Value → Value → Value} {es : List Elem}
    (h : ∀ {p nan x y}, Bounded nan → Bounded (step p nan x y)) :
    AnswersLawfully s (variadicFold o step ta a es s) :=
  lawful_withPrecision fun _ => lawful_withElems fun _ => lawful_withValue fun _ hx => lawful_withValues fun ys =>
    lawful_float _ (bounded_foldl (fun _ _ => h (bounded_qNaN ..)) ys hx)

theorem lawful_execAdd3 : AnswersLawfully s (execAdd3 ta tb tc a b c s) :=
  lawful_withPrecision fun _ => lawful_withPrecision fun _ => lawful_withPrecision fun _ =>
    lawful_withValue fun _ _ => lawful_withValue fun _ _ => lawful_withValue fun _ _ =>
      lawful_float _ (bounded_fadd (bounded_qNaN ..))

theorem lawful_execPowi (n : Word) : AnswersLawfully s (execPowi ta a n s) :=
  lawful_withPrecision fun _ => by
    split_ifs
    · exact lawful_raise (by decide)
    · exact lawful_withValue fun _ _ => lawful_float _ (bounded_powiLoop (bounded_qNaN ..) bounded_one)

theorem lawful_execCopysign : AnswersLawfully s (execCopysign ta a b s) :=
  lawful_withPrecision fun _ => lawful_withValue fun _ hx => lawful_withValue fun _ _ =>
    lawful_float _ (bounded_withSign _ hx)

theorem lawful_execCvtff : AnswersLawfully s (execCvtff ta tc a s) :=
  lawful_withPrecision fun _ => lawful_withPrecision fun _ => lawful_withValue fun _ hx =>
    lawful_float _ (bounded_convert (bounded_qNaN ..) hx)

theorem lawful_execCvtif (n : Word) : AnswersLawfully s (execCvtif ta tc n s) :=
  lawful_withPrecision fun _ => lawful_withWidth fun _ => lawful_float _ (bounded_roundTo ..)

/-- An integer cut to a width is in its range (R243). -/
theorem signedPart_range (w : Width) (n : Word) :
    -2 ^ (w.bits - 1) ≤ signedPart w n ∧ signedPart w n < 2 ^ (w.bits - 1) :=
  ⟨BitVec.le_toInt _, BitVec.toInt_lt⟩

/-- The integer that CVTFI returns is in the range of its width, whatever the operand (R248, R250). -/
theorem floatToInt_range (p : Precision) (w : Width) (a : Pair) (x : Value) :
    -2 ^ (w.bits - 1) ≤ floatToInt p w a x ∧ floatToInt p w a x < 2 ^ (w.bits - 1) := by
  cases x with
  | zero => exact ⟨by simp [floatToInt], by simp [floatToInt]⟩
  | inf | nan => exact signedPart_range w _
  | fin u =>
    rw [floatToInt]
    split_ifs with fits
    · exact ⟨fits.1, Int.lt_of_le_sub_one fits.2⟩
    · exact signedPart_range w _

theorem lawful_execCvtfi : AnswersLawfully s (execCvtfi ta tc a s) :=
  lawful_withPrecision fun p => lawful_withWidth fun w => lawful_withValue fun x _ =>
    have ⟨lower, upper⟩ := floatToInt_range p w a x
    lawful_answer (respondInt_lawful lower upper)

end Frames

theorem lawful_exec (i : Instr) (s : State) : AnswersLawfully s (exec i s) := by
  cases i with
  | add => exact lawful_binaryFloat .add bounded_fadd
  | sub => exact lawful_binaryFloat .sub fun hn => bounded_fadd hn
  | mul => exact lawful_binaryFloat .mul bounded_fmul
  | div => exact lawful_binaryFloat .div bounded_fdiv
  | pow => exact lawful_binaryFloat .pow bounded_fpow
  | add3 => exact lawful_execAdd3
  | addmany => exact lawful_variadicFold .addmany bounded_fadd
  | mulmany => exact lawful_variadicFold .mulmany bounded_fmul
  | powi => exact lawful_execPowi _
  | log => exact lawful_unaryFloat .log fun hn _ => bounded_flog hn
  | exp => exact lawful_unaryFloat .exp fun hn _ => bounded_fexp hn
  | sqrt => exact lawful_unaryFloat .sqrt bounded_fsqrt
  | round => exact lawful_unaryFloat .round (bounded_integral staysWithin_roundAway)
  | trunc => exact lawful_unaryFloat .trunc (bounded_integral staysWithin_truncate)
  | ceil => exact lawful_unaryFloat .ceil (bounded_integral staysWithin_ceil)
  | floor => exact lawful_unaryFloat .floor (bounded_integral staysWithin_floor)
  | abs => exact lawful_unaryFloat .abs fun _ hx => bounded_withSign false hx
  | copysign => exact lawful_execCopysign
  | iszero | isone | isnan | isinf | isneg => exact lawful_unaryBool _
  | isgt => exact lawful_binaryBool _
  | cvtff => exact lawful_execCvtff
  | cvtif => exact lawful_execCvtif _
  | cvtfi => exact lawful_execCvtfi

/-! ### What a step delivers -/

/-- A step changes nothing, or takes a packet and delivers one lawful response. -/
theorem step_delivers_lawful {s t : State} (h : step s = .next t) :
    t = s ∨ ∃ r : Response, r.Lawful ∧ t.outbox = s.outbox ++ [r] := by
  obtain ⟨-, idle⟩ | ⟨ws, rest, -, -, ⟨-, -, rejected⟩ | ⟨i, -, executed⟩⟩ := step_cases s
  · rw [idle] at h
    cases h
    exact .inl rfl
  · rw [rejected] at h
    cases h
    exact .inr ⟨_, respondError_lawful (by decide), rfl⟩
  · obtain ⟨r, lawful, rfl⟩ := lawful_exec i _ t (executed.symm.trans h)
    exact .inr ⟨r, lawful, rfl⟩

/-- Settles O2: the one response that a step can add is lawful, as those before it are. -/
theorem everyStepKeepsTheInvariant : Obligations.EveryStepKeepsTheInvariant := by
  intro s t inv stepped
  obtain rfl | ⟨r, lawful, outbox⟩ := step_delivers_lawful stepped
  · exact inv
  · intro r' member
    rw [outbox, List.mem_append, List.mem_singleton] at member
    obtain old | rfl := member
    · exact inv r' old
    · exact lawful

/-- A lawful response with an error carries nothing (R79). -/
theorem Response.Lawful.of_error {r : Response} (h : r.Lawful) (error : r.status ≠ .ok) :
    r.rkind = .none ∧ r.rtag = 0#8 ∧ r.m = 0#64 ∧ r.es = 0#64 := by
  obtain ⟨status, rkind, rtag, m, es⟩ := r
  cases status with
  | ok => contradiction
  | unsupportedType | domain | illegalCommand => exact h

/-- A lawful response without an error carries a result (R76 to R78). -/
theorem Response.Lawful.of_ok {r : Response} (h : r.Lawful) (ok : r.status = .ok) : r.rkind ≠ .none := by
  intro none
  simp [Response.Lawful, ok, none] at h

/-- Settles O21: it is what lawfulness says of the response that a step adds. -/
theorem errorsCarryNoResult : Obligations.ErrorsCarryNoResult := by
  intro s t stepped
  obtain same | ⟨r, lawful, outbox⟩ := step_delivers_lawful stepped
  · exact .inl same
  · exact .inr ⟨r, outbox, lawful.of_error, lawful.of_ok⟩

end Sys2Proof.Machine

/-! The codec family. Between the fields of an encoding and the values stands one table, `Codes`. Decoding and encoding
both follow it, the fields in it are those that decode, and the values in it are those that `encode_p` is defined on: so
the two functions are inverse to each other. -/

namespace Sys2Proof.Machine

/-! ### What the fields of each format denote (R101, R102) -/

/-- The finite number with sign bit `s`, significand `n` and exponent field `e`, where that of a subnormal number counts
as `1` (R101, R102). -/
def scaledValue (p : Precision) (s : Bool) (n e : ℕ) : ℚ := Exact.signed s (n * 2 ^ ((e : ℤ) - p.bias - p.fracBits))

theorem signed_eq (s : Bool) (x : ℚ) : Exact.signed s x = (-1) ^ s.toNat * x := by cases s <;> simp

theorem scaledValue_eq (p : Precision) (s : Bool) (n e : ℕ) :
    scaledValue p s n e = (-1) ^ s.toNat * n * 2 ^ ((e : ℤ) - p.bias - p.fracBits) := by
  rw [scaledValue, signed_eq, mul_assoc]

theorem decodeInterchange_eq (p : Precision) (f : Fields) :
    decodeInterchange p f =
      if f.exp = 0 then if f.sig = 0 then .zero f.sign else .fin (scaledValue p f.sign f.sig 1)
      else if f.exp < p.maxExp then .fin (scaledValue p f.sign (2 ^ p.fracBits + f.sig) f.exp)
      else if f.sig = 0 then .inf f.sign
      else .nan f.sign (f.sig.testBit (p.fracBits - 1)) f.sig := by
  simp only [decodeInterchange, scaledValue, Exact.mul_eq, Exact.ofNat_eq, Exact.pow2_eq, Nat.cast_one]

/-- With the integer bit clear, EXTENDED denotes zeros and subnormal numbers only. -/
theorem decodeExtended_clear (s : Bool) (e : ℕ) {g : ℕ} (fit : g < 2 ^ 63) :
    decodeExtended ⟨s, e, g⟩ =
      if e = 0 then if g = 0 then some (.zero s) else some (.fin (scaledValue .extended s g 1)) else none := by
  have clear : g.testBit 63 = false := Nat.testBit_lt_two_pow fit
  simp [decodeExtended, clear, scaledValue, Precision.bias, Precision.fracBits]

/-- With the integer bit set, EXTENDED denotes normal numbers, infinities and NaNs. -/
theorem decodeExtended_set (s : Bool) (e : ℕ) {g : ℕ} (fit : g < 2 ^ 63) :
    decodeExtended ⟨s, e, 2 ^ 63 + g⟩ =
      if e = 0 then none
      else if e < 0x7FFF then some (.fin (scaledValue .extended s (2 ^ 63 + g) e))
      else if g = 0 then some (.inf s)
      else some (.nan s (g.testBit 62) g) := by
  have set : (2 ^ 63 + g).testBit 63 = true := by
    rw [Nat.testBit_two_pow_add_eq, Nat.testBit_lt_two_pow fit]; rfl
  have fraction : (2 ^ 63 + g) % 2 ^ 63 = g := by rw [Nat.add_mod_left, Nat.mod_eq_of_lt fit]
  have quiet : (2 ^ 63 + g).testBit 62 = g.testBit 62 := Nat.testBit_two_pow_add_gt (by decide) g
  have nonzero : 2 ^ 63 + g ≠ 0 := by positivity
  simp only [decodeExtended, set, fraction, quiet, nonzero, if_true, if_false, scaledValue, Precision.bias,
    Precision.fracBits, Exact.mul_eq, Exact.ofNat_eq, Exact.pow2_eq, Nat.cast_ofNat]

theorem firstMatch_of_holds {condition result : Prop} {rest : List (Prop × Prop)} (h : condition) (hr : result) :
    FirstMatch ((condition, result) :: rest) :=
  .inl ⟨h, hr⟩

theorem firstMatch_of_fails {condition result : Prop} {rest : List (Prop × Prop)} (h : ¬condition)
    (hr : FirstMatch rest) : FirstMatch ((condition, result) :: rest) :=
  .inr ⟨h, hr⟩

/-- The decoding of SINGLE and DOUBLE is the table of R101. -/
theorem interchangeRule_decodeInterchange (p : Precision) (f : Fields) :
    InterchangeRule p.fracBits p.bias p.maxExp f.sign f.exp f.sig (decodeInterchange p f) := by
  rw [decodeInterchange_eq]
  split_ifs with subnormal none finite none
  · exact firstMatch_of_holds ⟨subnormal, none⟩ rfl
  · refine firstMatch_of_fails (by simp [none]) (firstMatch_of_holds subnormal ?_)
    simp [scaledValue_eq]
  all_goals refine firstMatch_of_fails (by simp [subnormal]) (firstMatch_of_fails subnormal ?_)
  · refine firstMatch_of_holds finite ?_
    simp [scaledValue_eq]
  · exact firstMatch_of_fails finite (firstMatch_of_holds none rfl)
  · exact firstMatch_of_fails finite (firstMatch_of_fails none (firstMatch_of_holds trivial rfl))

/-- Settles O22: the fields of a pair are those that the rule names, and they are decoded by its table. -/
theorem interchangeFormatsDecode : Obligations.InterchangeFormatsDecode := fun b =>
  ⟨⟨_, rfl, interchangeRule_decodeInterchange .single (fields .single b)⟩,
    ⟨_, rfl, interchangeRule_decodeInterchange .double (fields .double b)⟩⟩

/-- The decoding of EXTENDED is the table of R102, the significand being the integer bit `j` above the fraction `g`. -/
theorem extendedRule_decodeExtended (s j : Bool) (e : ℕ) {g : ℕ} (fit : g < 2 ^ 63) :
    ExtendedRule s e j g (decodeExtended ⟨s, e, j.toNat * 2 ^ 63 + g⟩) := by
  cases j with
  | false =>
    rw [Bool.toNat_false, zero_mul, zero_add, decodeExtended_clear s e fit]
    refine firstMatch_of_fails (by simp) ?_
    split_ifs with subnormal none
    · exact firstMatch_of_holds ⟨subnormal, none⟩ rfl
    · refine firstMatch_of_fails (by simp [none]) (firstMatch_of_holds subnormal ?_)
      simp [scaledValue_eq, Precision.bias, Precision.fracBits]
    · exact firstMatch_of_fails (by simp [subnormal]) (firstMatch_of_fails subnormal (firstMatch_of_holds rfl rfl))
  | true =>
    rw [Bool.toNat_true, one_mul, decodeExtended_set s e fit]
    split_ifs with subnormal finite none
    · exact firstMatch_of_holds ⟨subnormal, rfl⟩ rfl
    all_goals refine firstMatch_of_fails (by simp [subnormal]) (firstMatch_of_fails (by simp [subnormal])
      (firstMatch_of_fails subnormal (firstMatch_of_fails (by simp) ?_)))
    · refine firstMatch_of_holds finite ?_
      rw [scaledValue_eq]
      push_cast
      rfl
    · exact firstMatch_of_fails finite (firstMatch_of_holds none rfl)
    · exact firstMatch_of_fails finite (firstMatch_of_fails none (firstMatch_of_holds trivial rfl))

/-- A word is its highest bit above the other 63. -/
theorem toNat_eq_integerBit_add (m : Word) :
    m.toNat = (m.getLsbD 63).toNat * 2 ^ 63 + (m.extractLsb' 0 63).toNat := by
  have high : m.toNat / 2 ^ 63 < 2 := Nat.div_lt_of_lt_mul m.isLt
  have bit : (m.getLsbD 63).toNat = m.toNat / 2 ^ 63 % 2 := Nat.toNat_testBit ..
  rw [bit, Nat.mod_eq_of_lt high, BitVec.extractLsb'_toNat, Nat.shiftRight_zero, mul_comm, Nat.div_add_mod]

/-- Settles O23: the 64 bits of the significand are the integer bit above the fraction, and are decoded by the table. -/
theorem extendedFormatDecodes : Obligations.ExtendedFormatDecodes := by
  intro b
  have decoded : decodeValue .extended b = decodeExtended ⟨b.es.getLsbD 15, (b.es.extractLsb' 0 15).toNat,
      (b.m.getLsbD 63).toNat * 2 ^ 63 + (b.m.extractLsb' 0 63).toNat⟩ := by
    rw [← toNat_eq_integerBit_add]
    rfl
  rw [decoded]
  exact extendedRule_decodeExtended _ _ _ (BitVec.isLt _)

/-! ### The table of encodings (R101, R102, R106) -/

/-- The weight of the integer bit where the format stores it, at EXTENDED alone. -/
def integerBit : Precision → ℕ
  | .single | .double => 0
  | .extended => 2 ^ 63

/-- The fields denote the value: one row for each of the classes of R101 and R102 that have a value. -/
inductive Codes (p : Precision) : Fields → Value → Prop where
  | zero (s : Bool) : Codes p ⟨s, 0, 0⟩ (.zero s)
  | subnormal (s : Bool) {g : ℕ} (pos : 0 < g) (fit : g < 2 ^ p.fracBits) :
    Codes p ⟨s, 0, g⟩ (.fin (scaledValue p s g 1))
  | normal (s : Bool) {e g : ℕ} (pos : 0 < e) (finite : e < p.maxExp) (fit : g < 2 ^ p.fracBits) :
    Codes p ⟨s, e, integerBit p + g⟩ (.fin (scaledValue p s (2 ^ p.fracBits + g) e))
  | inf (s : Bool) : Codes p ⟨s, p.maxExp, integerBit p⟩ (.inf s)
  | nan (s : Bool) {pl : ℕ} (pos : 0 < pl) (fit : pl < 2 ^ p.fracBits) :
    Codes p ⟨s, p.maxExp, integerBit p + pl⟩ (.nan s (pl.testBit (p.fracBits - 1)) pl)

/-- Decoding, from the fields (R101, R102). -/
def decodeFields : Precision → Fields → Option Value
  | .single, f => some (decodeInterchange .single f)
  | .double, f => some (decodeInterchange .double f)
  | .extended, f => decodeExtended f

theorem decodeValue_eq (p : Precision) (b : Pair) : decodeValue p b = decodeFields p (fields p b) := by cases p <;> rfl

/-- Encoding, to the fields (R108, R109). -/
def encodeFields : Precision → Value → Fields
  | .single, v => encodeInterchange .single v
  | .double, v => encodeInterchange .double v
  | .extended, v => encodeExtended v

theorem encodeValue_eq (p : Precision) (v : Value) : encodeValue p v = packFields p (encodeFields p v) := by
  cases p <;> rfl

theorem maxExp_pos (p : Precision) : 0 < p.maxExp := by cases p <;> decide

section Table
variable {p : Precision} {f : Fields} {v : Value}

/-- The fields of the table fit their places. -/
theorem Codes.fit (h : Codes p f v) : f.Fit p := by
  have exponentField : 0 < 2 ^ p.expBits := by positivity
  have maxField : p.maxExp < 2 ^ p.expBits := Nat.sub_lt exponentField one_pos
  have significand {g : ℕ} (hg : g < 2 ^ p.fracBits) :
      g < 2 ^ Fields.sigBits p ∧ integerBit p + g < 2 ^ Fields.sigBits p := by
    cases p <;> simp only [Precision.fracBits, Fields.sigBits, integerBit] at hg ⊢ <;> omega
  have noFraction : 0 < 2 ^ p.fracBits := by positivity
  cases h with
  | zero => exact ⟨exponentField, (significand noFraction).1⟩
  | subnormal _ _ fit => exact ⟨exponentField, (significand fit).1⟩
  | normal _ _ finite fit => exact ⟨finite.trans maxField, (significand fit).2⟩
  | inf => exact ⟨maxField, (significand noFraction).2⟩
  | nan _ _ fit => exact ⟨maxField, (significand fit).2⟩

/-! ### Decoding follows the table -/

theorem decodeInterchange_of_codes (format : integerBit p = 0) (h : Codes p f v) : decodeInterchange p f = v := by
  rw [decodeInterchange_eq]
  cases h with
  | zero => simp
  | subnormal _ pos => simp [pos.ne']
  | normal _ pos finite => simp [format, pos.ne', finite]
  | inf => simp [format, (maxExp_pos p).ne']
  | nan _ pos => simp [format, (maxExp_pos p).ne', pos.ne']

theorem decodeExtended_of_codes (h : Codes .extended f v) : decodeExtended f = some v := by
  cases h with
  | zero s => exact decodeExtended_clear s 0 (g := 0) (by positivity)
  | subnormal s pos fit => rw [decodeExtended_clear s 0 fit, if_pos rfl, if_neg pos.ne']
  | normal s pos finite fit => exact (decodeExtended_set s _ fit).trans ((if_neg pos.ne').trans (if_pos finite))
  | inf s => exact decodeExtended_set s 0x7FFF (g := 0) (by positivity)
  | nan s pos fit => exact (decodeExtended_set s 0x7FFF fit).trans (if_neg pos.ne')

theorem Codes.decode (h : Codes p f v) : decodeFields p f = some v := by
  cases p with
  | single | double => exact congrArg some (decodeInterchange_of_codes rfl h)
  | extended => exact decodeExtended_of_codes h

/-- An exponent field that is not below the greatest one is that one. -/
theorem exp_eq_maxExp {e : ℕ} (fit : e < 2 ^ p.expBits) (h : ¬e < p.maxExp) : e = p.maxExp := by
  unfold Precision.maxExp at *
  omega

theorem codes_decodeInterchange (format : integerBit p = 0) (exponent : f.exp < 2 ^ p.expBits)
    (fraction : f.sig < 2 ^ p.fracBits) : Codes p f (decodeInterchange p f) := by
  obtain ⟨s, e, g⟩ := f
  change e < _ at exponent
  change g < _ at fraction
  rw [decodeInterchange_eq]
  split_ifs with subnormal none finite none
  · obtain rfl : e = 0 := subnormal
    obtain rfl : g = 0 := none
    exact .zero s
  · obtain rfl : e = 0 := subnormal
    exact .subnormal s (Nat.pos_of_ne_zero none) fraction
  · have row := Codes.normal (p := p) s (Nat.pos_of_ne_zero subnormal) finite fraction
    rwa [format, zero_add] at row
  · obtain rfl : e = p.maxExp := exp_eq_maxExp exponent finite
    obtain rfl : g = integerBit p := (none : g = 0).trans format.symm
    exact .inf s
  · obtain rfl : e = p.maxExp := exp_eq_maxExp exponent finite
    have row := Codes.nan (p := p) s (Nat.pos_of_ne_zero none) fraction
    rwa [format, zero_add] at row

theorem codes_of_decodeExtended (exponent : f.exp < 2 ^ 15) (significand : f.sig < 2 ^ 64)
    (h : decodeExtended f = some v) : Codes .extended f v := by
  obtain ⟨s, e, g⟩ := f
  simp only at exponent significand
  rcases Nat.lt_or_ge g (2 ^ 63) with clear | set
  · rw [decodeExtended_clear s e clear] at h
    split_ifs at h with subnormal none <;> cases h
    · subst subnormal none
      exact .zero s
    · subst subnormal
      exact .subnormal s (Nat.pos_of_ne_zero none) clear
  · obtain ⟨g, rfl⟩ := Nat.exists_eq_add_of_le set
    have fraction : g < 2 ^ 63 := by omega
    rw [decodeExtended_set s e fraction] at h
    split_ifs at h with subnormal finite none <;> cases h
    · exact .normal s (Nat.pos_of_ne_zero subnormal) finite fraction
    · obtain rfl : e = 0x7FFF := exp_eq_maxExp (p := .extended) exponent finite
      subst none
      exact .inf s
    · obtain rfl : e = 0x7FFF := exp_eq_maxExp (p := .extended) exponent finite
      exact .nan s (Nat.pos_of_ne_zero none) fraction

/-- Fields of the format that decode stand in the table with their value. -/
theorem codes_of_decode (fit : f.Fit p) (h : decodeFields p f = some v) : Codes p f v := by
  obtain ⟨exponent, significand⟩ := fit
  cases p with
  | single | double =>
    cases h
    exact codes_decodeInterchange rfl exponent significand
  | extended => exact codes_of_decodeExtended exponent significand h

/-! ### Encoding follows the table -/

/-- The significand of a normal number as the fields hold it: without its integer bit at SINGLE and DOUBLE. -/
def storedSignificand (p : Precision) (n : ℕ) : ℕ := n - (2 ^ p.fracBits - integerBit p)

/-- The fields of a finite number at every precision (R108, R109). -/
theorem encodeFields_fin (p : Precision) (x : ℚ) :
    encodeFields p (.fin x) =
      if 2 ^ p.emin ≤ |x| then
        ⟨decide (x < 0), (Exact.floorLog2 |x| + p.bias).toNat,
          storedSignificand p ⌊|x| * 2 ^ (p.fracBits - Exact.floorLog2 |x|)⌋.toNat⟩
      else ⟨decide (x < 0), 0, ⌊|x| * 2 ^ (p.fracBits - p.emin)⌋.toNat⟩ := by
  cases p <;> simp [encodeFields, encodeInterchange, encodeExtended, storedSignificand, integerBit, Precision.fracBits,
    Precision.emin, Precision.bias]

theorem abs_scaledValue (p : Precision) (s : Bool) (n e : ℕ) :
    |scaledValue p s n e| = n * 2 ^ ((e : ℤ) - p.bias - p.fracBits) := by
  rw [scaledValue, abs_signed, abs_of_nonneg (by positivity)]

/-- The sign bit of a finite number that is not zero. -/
theorem scaledValue_neg (p : Precision) (s : Bool) {n : ℕ} (pos : 0 < n) (e : ℕ) :
    decide (scaledValue p s n e < 0) = s := by
  have magnitude : (0 : ℚ) < n * 2 ^ ((e : ℤ) - p.bias - p.fracBits) := by positivity
  cases s with
  | false => exact decide_eq_false (not_lt.2 magnitude.le)
  | true => exact decide_eq_true (neg_lt_zero.2 magnitude)

/-- The binary exponent of a normal number is its exponent field without the bias. -/
theorem floorLog2_scaledValue (p : Precision) (s : Bool) {g : ℕ} (fit : g < 2 ^ p.fracBits) (e : ℕ) :
    Exact.floorLog2 |scaledValue p s (2 ^ p.fracBits + g) e| = e - p.bias := by
  have split : (2 : ℚ) ^ ((e : ℤ) - p.bias - p.fracBits) = 2 ^ ((e : ℤ) - p.bias) / 2 ^ p.fracBits := by
    rw [zpow_sub₀ two_ne_zero, zpow_natCast]
  have lower : (2 : ℚ) ^ p.fracBits ≤ (2 ^ p.fracBits + g : ℕ) := by exact_mod_cast Nat.le_add_right _ g
  have upper : ((2 ^ p.fracBits + g : ℕ) : ℚ) < 2 ^ p.fracBits * 2 := by exact_mod_cast (by omega)
  rw [abs_scaledValue, split, ← mul_div_assoc]
  apply Exact.floorLog2_unique
  · rw [le_div_iff₀ (by positivity), mul_comm]
    gcongr
  · rw [div_lt_iff₀ (by positivity), zpow_add_one₀ two_ne_zero, mul_assoc, mul_comm (2 : ℚ) (_ ^ _), mul_comm]
    gcongr

/-- Scaling back by the quantum leaves the significand. -/
theorem floor_significand {n : ℕ} {q r : ℤ} (h : q + r = 0) : ⌊(n : ℚ) * 2 ^ q * 2 ^ r⌋.toNat = n := by
  rw [mul_assoc, ← zpow_add₀ two_ne_zero, h, zpow_zero, mul_one, Int.floor_natCast, Int.toNat_natCast]

theorem emin_le_normal (s : Bool) {e g : ℕ} (pos : 0 < e) (fit : g < 2 ^ p.fracBits) :
    2 ^ p.emin ≤ |scaledValue p s (2 ^ p.fracBits + g) e| := by
  have positive : 0 < |scaledValue p s (2 ^ p.fracBits + g) e| := by rw [abs_scaledValue]; positivity
  refine le_trans (zpow_le_zpow_right₀ one_le_two ?_) (Exact.floorLog2_spec positive).1
  rw [floorLog2_scaledValue p s fit, Precision.emin]
  omega

theorem subnormal_lt_emin (s : Bool) {g : ℕ} (fit : g < 2 ^ p.fracBits) : |scaledValue p s g 1| < 2 ^ p.emin := by
  have bound : (g : ℚ) < 2 ^ p.fracBits := by exact_mod_cast fit
  have quantum : (2 : ℚ) ^ (((1 : ℕ) : ℤ) - p.bias - p.fracBits) * 2 ^ p.fracBits = 2 ^ p.emin := by
    rw [← zpow_natCast, ← zpow_add₀ two_ne_zero, sub_add_cancel]; rfl
  rw [abs_scaledValue, ← quantum, mul_comm]
  gcongr

theorem encodeFields_subnormal (s : Bool) {g : ℕ} (pos : 0 < g) (fit : g < 2 ^ p.fracBits) :
    encodeFields p (.fin (scaledValue p s g 1)) = ⟨s, 0, g⟩ := by
  rw [encodeFields_fin, if_neg (not_le.2 (subnormal_lt_emin s fit)), scaledValue_neg p s pos, abs_scaledValue,
    floor_significand (by unfold Precision.emin; push_cast; ring)]

theorem encodeFields_normal (s : Bool) {e g : ℕ} (pos : 0 < e) (fit : g < 2 ^ p.fracBits) :
    encodeFields p (.fin (scaledValue p s (2 ^ p.fracBits + g) e)) = ⟨s, e, integerBit p + g⟩ := by
  have stored : storedSignificand p (2 ^ p.fracBits + g) = integerBit p + g := by
    cases p <;> simp only [storedSignificand, integerBit, Precision.fracBits] <;> omega
  have exponent : ((e : ℤ) - p.bias + p.bias).toNat = e := by omega
  rw [encodeFields_fin, if_pos (emin_le_normal s pos fit), scaledValue_neg p s (by positivity),
    floorLog2_scaledValue p s fit, abs_scaledValue, floor_significand (by ring), stored, exponent]

/-- The encoding of a NaN adds the integer bit that is clear in its fraction. -/
theorem encodeFields_nan (s q : Bool) {pl : ℕ} (fit : pl < 2 ^ p.fracBits) :
    encodeFields p (.nan s q pl) = ⟨s, p.maxExp, integerBit p + pl⟩ := by
  cases p with
  | single | double => rw [integerBit, zero_add]; rfl
  | extended => exact congrArg (Fields.mk s 0x7FFF) (Nat.two_pow_add_eq_or_of_lt fit 1).symm

theorem Codes.encode (h : Codes p f v) : encodeFields p v = f := by
  cases h with
  | zero | inf => cases p <;> rfl
  | subnormal s pos fit => exact encodeFields_subnormal s pos fit
  | normal s pos _ fit => exact encodeFields_normal s pos fit
  | nan s _ fit => exact encodeFields_nan s _ fit

/-! ### The values of the table are the encodable ones (R106, R107) -/

theorem maxExp_eq (p : Precision) : p.maxExp = 2 * p.bias + 1 := by cases p <;> decide

theorem prec_sub_one (p : Precision) : p.prec - 1 = p.fracBits := by cases p <;> rfl

/-- The exponent of the last bit, from the exponent field: in `Rep_p` it is counted from `emin - (P - 1)` (R106). -/
theorem exponent_eq (p : Precision) (e : ℕ) : (e : ℤ) - p.bias - p.fracBits = p.emin - (p.prec - 1) + (e - 1) := by
  rw [Precision.emin, Precision.prec_eq]
  push_cast
  ring

theorem scaledValue_eq_ite (p : Precision) (s : Bool) (n e : ℕ) :
    scaledValue p s n e = (if s then -1 else 1) * n * 2 ^ (p.emin - (p.prec - 1) + (e - 1) : ℤ) := by
  rw [scaledValue, exponent_eq]
  cases s <;> simp

theorem representable_subnormal (s : Bool) {g : ℕ} (pos : 0 < g) (fit : g < 2 ^ p.fracBits) :
    Representable p (scaledValue p s g 1) := by
  refine ⟨s, g, _, scaledValue_eq_ite p s g 1, .inr ⟨pos, ?_, by simp⟩⟩
  rwa [prec_sub_one]

theorem representable_normal (s : Bool) {e g : ℕ} (pos : 0 < e) (finite : e < p.maxExp) (fit : g < 2 ^ p.fracBits) :
    Representable p (scaledValue p s (2 ^ p.fracBits + g) e) := by
  rw [maxExp_eq] at finite
  refine ⟨s, _, _, scaledValue_eq_ite p s _ e, .inl ⟨?_, ?_, by omega, ?_⟩⟩
  · rw [prec_sub_one]
    omega
  · rw [Precision.prec_eq, pow_succ]
    omega
  · unfold Precision.emin Precision.emax
    omega

/-- A subnormal significand on the least quantum stands in the table (R106). -/
theorem codes_scaled_subnormal (s : Bool) {n : ℕ} (pos : 0 < n) (upper : n < 2 ^ p.fracBits) :
    Codes p ⟨s, 0, n⟩ (.fin ((if s then -1 else 1) * n * 2 ^ (p.emin - (p.prec - 1)))) := by
  have row := Codes.subnormal (p := p) s pos upper
  rwa [scaledValue_eq_ite, Nat.cast_one, sub_self, add_zero] at row

/-- A normal significand on a quantum of the format stands in the table (R106). -/
theorem codes_scaled_normal (s : Bool) {n : ℕ} {q : ℤ} (lower : 2 ^ p.fracBits ≤ n) (upper : n < 2 ^ (p.fracBits + 1))
    (least : p.emin - (p.prec - 1) ≤ q) (greatest : q ≤ p.emax - (p.prec - 1)) :
    ∃ e, Codes p ⟨s, e, integerBit p + (n - 2 ^ p.fracBits)⟩ (.fin ((if s then -1 else 1) * n * 2 ^ q)) := by
  obtain ⟨k, hk⟩ := Int.eq_ofNat_of_zero_le (sub_nonneg.2 least)
  have weight : p.emin - (p.prec - 1) + ((k + 1 : ℕ) - 1) = q := by push_cast; omega
  obtain ⟨g, rfl⟩ := Nat.exists_eq_add_of_le lower
  have finite : k + 1 < p.maxExp := by
    rw [maxExp_eq]
    unfold Precision.emin Precision.emax at *
    omega
  have row := Codes.normal s k.succ_pos finite (g := g) (by rw [pow_succ] at upper; omega)
  rw [scaledValue_eq_ite, weight] at row
  rw [Nat.add_sub_cancel_left]
  exact ⟨_, row⟩

theorem exists_codes_of_representable {x : ℚ} (h : Representable p x) : ∃ f, Codes p f (.fin x) := by
  obtain ⟨s, n, q, rfl, ⟨lower, upper, least, greatest⟩ | ⟨pos, upper, rfl⟩⟩ := h
  · rw [prec_sub_one] at lower
    rw [Precision.prec_eq] at upper
    obtain ⟨e, row⟩ := codes_scaled_normal s lower upper least greatest
    exact ⟨_, row⟩
  · rw [prec_sub_one] at upper
    exact ⟨_, codes_scaled_subnormal s pos upper⟩

theorem Codes.encodable (h : Codes p f v) : v.Encodable p := by
  cases h with
  | zero | inf => trivial
  | subnormal s pos fit => exact representable_subnormal s pos fit
  | normal s pos finite fit => exact representable_normal s pos finite fit
  | nan s pos fit => exact ⟨pos, fit, rfl⟩

theorem exists_codes_of_encodable (h : v.Encodable p) : ∃ f, Codes p f v := by
  cases v with
  | zero s => exact ⟨_, .zero s⟩
  | inf s => exact ⟨_, .inf s⟩
  | fin x => exact exists_codes_of_representable h
  | nan s q pl =>
    obtain ⟨pos, fit, rfl⟩ := h
    exact ⟨_, .nan s pos fit⟩

/-! ### The round trips (R110) -/

/-- The pair that the table gives a value is its encoding. -/
theorem codes_encodeValue (h : v.Encodable p) : Codes p (fields p (encodeValue p v)) v := by
  obtain ⟨f, row⟩ := exists_codes_of_encodable h
  rwa [encodeValue_eq, row.encode, fields_packFields row.fit]

theorem decodeValue_encodeValue (h : v.Encodable p) : decodeValue p (encodeValue p v) = some v := by
  rw [decodeValue_eq]
  exact (codes_encodeValue h).decode

/-- What a pair denotes stands in the table with the fields of the pair. -/
theorem codes_of_decodeValue {b : Pair} (h : decodeValue p b = some v) : Codes p (fields p b) v :=
  codes_of_decode (fields_fit p b) ((decodeValue_eq p b).symm.trans h)

theorem encodeValue_of_decodeValue {b : Pair} (h : decodeValue p b = some v) : encodeValue p v = canonPair p b := by
  rw [encodeValue_eq, (codes_of_decodeValue h).encode, packFields_fields]

end Table

/-- Settles O24: the fields of an encoding stand in the table with the value, and both functions follow the table. -/
theorem codecRoundTrips : Obligations.CodecRoundTrips := by
  refine ⟨fun p v => decodeValue_encodeValue, fun t p b v h => ?_⟩
  obtain ⟨code, decoded⟩ := reads_iff.1 h
  rw [usedOnly_eq code, encodeValue_of_decodeValue decoded]

/-- Settles O25: the values of the table are encodable. -/
theorem decodedValuesAreEncodable : Obligations.DecodedValuesAreEncodable := fun _ _ _ h =>
  (codes_of_decodeValue h).encodable

/-! ### Generated NaNs (R118) -/

section QuietNaN
variable {p : Precision} {b : Pair} {v : Value}

/-- Every quiet NaN is built from some word. -/
theorem exists_quietNaN (h : QuietNaN p v) : ∃ r, quietNaN p r = v := by
  obtain ⟨s, pl, rfl, lower, upper⟩ := h
  obtain ⟨free, rfl⟩ := Nat.exists_eq_add_of_le lower
  have fit : free < 2 ^ (p.fracBits - 1) ∧ free < 2 ^ 63 := by
    cases p <;> simp only [Precision.fracBits] at upper ⊢ <;> omega
  obtain ⟨fit, word⟩ := fit
  have whole : s.toNat * 2 ^ 63 + free < 2 ^ 64 := by cases s <;> simp <;> omega
  have sign : (BitVec.ofNat 64 (s.toNat * 2 ^ 63 + free)).getLsbD 63 = s := by
    have clear : free.testBit 63 = false := Nat.testBit_lt_two_pow word
    rw [BitVec.getLsbD_ofNat]
    cases s
    · rw [Bool.toNat_false, zero_mul, zero_add, clear]; rfl
    · rw [Bool.toNat_true, one_mul, Nat.testBit_two_pow_add_eq, clear]; rfl
  have fraction : (s.toNat * 2 ^ 63 + free) % 2 ^ (p.fracBits - 1) = free := by
    have multiple : 2 ^ (p.fracBits - 1) ∣ s.toNat * 2 ^ 63 :=
      (pow_dvd_pow 2 (by cases p <;> decide)).mul_left _
    rw [Nat.add_mod, Nat.mod_eq_zero_of_dvd multiple, zero_add, Nat.mod_mod, Nat.mod_eq_of_lt fit]
  refine ⟨BitVec.ofNat 64 (s.toNat * 2 ^ 63 + free), ?_⟩
  rw [quietNaN, sign, BitVec.toNat_ofNat, Nat.mod_eq_of_lt whole, fraction]

/-- A field of ones is a field of ones above a bit that is one. -/
theorem field_ones_succ (x k w : ℕ) :
    x / 2 ^ k % 2 ^ (w + 1) = 2 ^ (w + 1) - 1 ↔ x / 2 ^ (k + 1) % 2 ^ w = 2 ^ w - 1 ∧ 2 ^ k ≤ x % 2 ^ (k + 1) := by
  have field : x / 2 ^ k % 2 ^ (w + 1) = x / 2 ^ k % 2 + 2 * (x / 2 ^ (k + 1) % 2 ^ w) := by
    rw [pow_succ' 2 w, Nat.mod_mul, Nat.div_div_eq_div_mul, pow_succ]
  have bit : 2 ^ k ≤ x % 2 ^ (k + 1) ↔ x / 2 ^ k % 2 = 1 := by
    have below : x % 2 ^ k < 2 ^ k := Nat.mod_lt _ (by positivity)
    rw [Nat.mod_pow_succ]
    rcases Nat.mod_two_eq_zero_or_one (x / 2 ^ k) with h | h <;> simp [h, below]
  have positive : 0 < 2 ^ w := by positivity
  rw [field, bit, pow_succ]
  omega

/-- The bits of a quiet NaN, by the fields: the greatest exponent, the quiet bit, and no unused bit (R118). -/
theorem isQuietNaN_iff :
    b.isQuietNaN p = true ↔
      (fields p b).exp = p.maxExp ∧ integerBit p + 2 ^ (p.fracBits - 1) ≤ (fields p b).sig ∧ canonPair p b = b := by
  obtain ⟨m, es⟩ := b
  have mantissa := m.isLt
  have expSign := es.isLt
  cases p <;> simp only [Pair.isQuietNaN, fields, canonPair, integerBit, Precision.maxExp, Precision.expBits,
    Precision.fracBits, Pair.mk.injEq, Bool.and_eq_true, beq_iff_eq, ← BitVec.toNat_inj, BitVec.extractLsb'_toNat,
    BitVec.toNat_setWidth, BitVec.toNat_ofNat, Nat.shiftRight_eq_div_pow, pow_zero, Nat.div_one, zero_add]
  · omega
  · have top := field_ones_succ m.toNat 51 11
    norm_num at top ⊢
    rw [top, and_assoc, eq_comm (a := es.toNat)]
  · have top : m.toNat / 2 ^ 62 % 2 ^ 2 = 3 ↔ 2 ^ 63 + 2 ^ 62 ≤ m.toNat := by omega
    have unused : es.toNat / 2 ^ 16 % 2 ^ 48 = 0 ↔ es.toNat % 2 ^ 16 % 2 ^ 64 = es.toNat := by omega
    norm_num at top unused ⊢
    rw [top, unused, and_assoc]

theorem testBit_quiet {pl : ℕ} (lower : 2 ^ (p.fracBits - 1) ≤ pl) (upper : pl < 2 ^ p.fracBits) :
    pl.testBit (p.fracBits - 1) = true :=
  Nat.testBit_of_two_pow_le_and_two_pow_add_one_gt lower (by cases p <;> exact upper)

theorem QuietNaN.encodable (h : QuietNaN p v) : v.Encodable p := by
  obtain ⟨s, pl, rfl, lower, upper⟩ := h
  exact ⟨lower.trans_lt' (by positivity), upper, (testBit_quiet lower upper).symm⟩

theorem isQuietNaN_encodeValue (h : QuietNaN p v) : (encodeValue p v).isQuietNaN p = true := by
  have row := codes_encodeValue h.encodable
  have clear := encodeValue_of_decodeValue (decodeValue_encodeValue h.encodable)
  obtain ⟨s, pl, rfl, lower, upper⟩ := h
  rw [isQuietNaN_iff, ← row.encode, encodeFields_nan s true upper]
  exact ⟨rfl, Nat.add_le_add_left lower _, clear.symm⟩

/-- A pair with the bits of a quiet NaN is the encoding of one. -/
theorem exists_quietNaN_of_isQuietNaN (h : b.isQuietNaN p = true) : ∃ v, QuietNaN p v ∧ encodeValue p v = b := by
  obtain ⟨exponent, significand, clear⟩ := isQuietNaN_iff.1 h
  have fit := (fields_fit p b).2
  rcases hf : fields p b with ⟨s, e, g⟩
  rw [hf] at exponent significand fit
  simp only at exponent significand fit
  obtain ⟨pl, rfl⟩ := Nat.exists_eq_add_of_le (Nat.le_of_add_right_le significand)
  have lower : 2 ^ (p.fracBits - 1) ≤ pl := Nat.add_le_add_iff_left.1 significand
  have upper : pl < 2 ^ p.fracBits := by
    cases p <;> simp only [integerBit, Fields.sigBits, Precision.fracBits] at fit ⊢ <;> omega
  have row := Codes.nan (p := p) s (lower.trans_lt' (by positivity)) upper
  rw [← exponent, testBit_quiet lower upper, ← hf] at row
  refine ⟨_, ⟨s, pl, rfl, lower, upper⟩, ?_⟩
  rw [encodeValue_eq, row.encode, packFields_fields, clear]

end QuietNaN

/-- Settles O31: the quiet NaNs of a precision are the values built from the words, and their encodings are the pairs
with the bits of R118. -/
theorem generatedNaNsAreQuiet : Obligations.GeneratedNaNsAreQuiet := by
  refine ⟨fun o p operands => ?_, fun p b h => ?_⟩
  · have quiet := qNaN_quiet o p operands
    exact ⟨quiet, isQuietNaN_encodeValue quiet, decodeValue_encodeValue quiet.encodable⟩
  · obtain ⟨v, quiet, rfl⟩ := exists_quietNaN_of_isQuietNaN h
    obtain ⟨r, rfl⟩ := exists_quietNaN quiet
    exact ⟨r, rfl⟩

end Sys2Proof.Machine

/-! The checks. A request that a check stops has one outcome: UNSUPPORTED_TYPE for an illegal type code, DOMAIN for a
negative exponent, and the refusal for a slot that holds no value. A request that no check stops completes. -/

namespace Sys2Proof.Machine

section Checks
variable {s : State} {t ta tb tc : TypeCode} {p : Precision} {a b c : Pair} {es : List Elem} {result : Result}

/-! ### What a frame comes to, when all its branches come to the same -/

theorem withPrecision_eq {k : Precision → Result} (illegal : t.isPrecision = false → raise .unsupportedType s = result)
    (legal : ∀ p, Precision.ofCode? t = some p → k p = result) : withPrecision t s k = result := by
  unfold withPrecision
  split
  next code => exact legal _ code
  next code => exact illegal (Precision.ofCode?_eq_none.1 code)

theorem withWidth_eq {k : Width → Result} (illegal : t.isWidth = false → raise .unsupportedType s = result)
    (legal : ∀ w, Width.ofCode? t = some w → k w = result) : withWidth t s k = result := by
  unfold withWidth
  split
  next code => exact legal _ code
  next code => exact illegal (Width.ofCode?_eq_none.1 code)

theorem withElems_eq {k : List (Precision × Pair) → Result}
    (illegal : typedElems es = none → raise .unsupportedType s = result)
    (legal : ∀ ds, typedElems es = some ds → k ds = result) : withElems es s k = result := by
  unfold withElems
  split
  next typed => exact legal _ typed
  next untyped => exact illegal untyped

theorem withValue_refuses {k : Value → Result} (h : ∀ x, decodeValue p a = some x → k x = .refused .extNonCanonical) :
    withValue p a k = .refused .extNonCanonical := by
  unfold withValue
  split
  next decoded => exact h _ decoded
  next => rfl

theorem withValues_refuses {ds : List (Precision × Pair)} {k : List Value → Result}
    (h : ∀ xs, decodeAll ds = some xs → k xs = .refused .extNonCanonical) :
    withValues ds k = .refused .extNonCanonical := by
  unfold withValues
  split
  next decoded => exact h _ decoded
  next => rfl

theorem isPrecision_of_ofCode? (h : Precision.ofCode? t = some p) : t.isPrecision = true := isPrecision_iff.2 ⟨p, h⟩

theorem isWidth_of_ofCode? {w : Width} (h : Width.ofCode? t = some w) : t.isWidth = true := isWidth_iff.2 ⟨w, h⟩

/-- The elements have precisions exactly when every tag is legal (R162). -/
theorem typedElems_eq_none : typedElems es = none ↔ (es.all fun e => e.t.isPrecision) = false := by
  induction es with
  | nil => simp [typedElems]
  | cons e es ih =>
    cases code : Precision.ofCode? e.t with
    | none => simp [typedElems, code, Precision.ofCode?_eq_none.1 code]
    | some q =>
      rw [List.all_cons, isPrecision_of_ofCode? code, Bool.true_and, ← ih]
      cases rest : typedElems es <;> simp [typedElems, code, rest]

/-- A sequence that is read has elements that can be read, each by itself. -/
theorem readable_of_decodeAll {ds : List (Precision × Pair)} {xs : List Value} (typed : typedElems es = some ds)
    (decoded : decodeAll ds = some xs) : ∀ e ∈ es, Readable e.t e.v := by
  induction es generalizing ds xs with
  | nil => nofun
  | cons e es ih =>
    obtain ⟨q, ds, code, rest, rfl⟩ := typedElems_cons_eq_some.1 typed
    cases hx : decodeValue q e.v with
    | none => simp [decodeAll, hx] at decoded
    | some x =>
      cases hxs : decodeAll ds with
      | none => simp [decodeAll, hx, hxs] at decoded
      | some xs => exact List.forall_mem_cons.2 ⟨⟨q, x, code, hx⟩, ih rest hxs⟩

/-! ### An illegal type code is answered with UNSUPPORTED_TYPE (R62 steps 4 and 5) -/

theorem unaryFloat_unsupported (o : Op) (f : Precision → Value → Value → Value) (h : ta.isPrecision = false) :
    unaryFloat o f ta a s = raise .unsupportedType s :=
  withPrecision_eq (fun _ => rfl) fun p hp => by simp [isPrecision_of_ofCode? hp] at h

theorem unaryBool_unsupported (f : Value → Bool) (h : ta.isPrecision = false) :
    unaryBool f ta a s = raise .unsupportedType s :=
  withPrecision_eq (fun _ => rfl) fun p hp => by simp [isPrecision_of_ofCode? hp] at h

theorem binaryFloat_unsupported (o : Op) (f : Precision → Value → Value → Value → Value)
    (h : (ta.isPrecision && tb.isPrecision) = false) : binaryFloat o f ta tb a b s = raise .unsupportedType s :=
  withPrecision_eq (fun _ => rfl) fun p hp => withPrecision_eq (fun _ => rfl) fun q hq => by
    simp [isPrecision_of_ofCode? hp, isPrecision_of_ofCode? hq] at h

theorem binaryBool_unsupported (f : Value → Value → Bool) (h : (ta.isPrecision && tb.isPrecision) = false) :
    binaryBool f ta tb a b s = raise .unsupportedType s :=
  withPrecision_eq (fun _ => rfl) fun p hp => withPrecision_eq (fun _ => rfl) fun q hq => by
    simp [isPrecision_of_ofCode? hp, isPrecision_of_ofCode? hq] at h

theorem variadicFold_unsupported (o : Op) (step : Precision → Value → Value → Value → Value)
    (h : (ta.isPrecision && es.all fun e => e.t.isPrecision) = false) :
    variadicFold o step ta a es s = raise .unsupportedType s :=
  withPrecision_eq (fun _ => rfl) fun p hp => withElems_eq (fun _ => rfl) fun ds hd => by
    rw [isPrecision_of_ofCode? hp, Bool.true_and, ← typedElems_eq_none, hd] at h
    cases h

theorem execAdd3_unsupported (h : (ta.isPrecision && tb.isPrecision && tc.isPrecision) = false) :
    execAdd3 ta tb tc a b c s = raise .unsupportedType s :=
  withPrecision_eq (fun _ => rfl) fun p hp => withPrecision_eq (fun _ => rfl) fun q hq =>
    withPrecision_eq (fun _ => rfl) fun r hr => by
      simp [isPrecision_of_ofCode? hp, isPrecision_of_ofCode? hq, isPrecision_of_ofCode? hr] at h

theorem execPowi_unsupported (n : Word) (h : ta.isPrecision = false) :
    execPowi ta a n s = raise .unsupportedType s :=
  withPrecision_eq (fun _ => rfl) fun p hp => by simp [isPrecision_of_ofCode? hp] at h

theorem execCopysign_unsupported (h : ta.isPrecision = false) : execCopysign ta a b s = raise .unsupportedType s :=
  withPrecision_eq (fun _ => rfl) fun p hp => by simp [isPrecision_of_ofCode? hp] at h

theorem execCvtff_unsupported (h : (ta.isPrecision && tc.isPrecision) = false) :
    execCvtff ta tc a s = raise .unsupportedType s :=
  withPrecision_eq (fun _ => rfl) fun p hp => withPrecision_eq (fun _ => rfl) fun q hq => by
    simp [isPrecision_of_ofCode? hp, isPrecision_of_ofCode? hq] at h

theorem execCvtif_unsupported (n : Word) (h : (ta.isWidth && tc.isPrecision) = false) :
    execCvtif ta tc n s = raise .unsupportedType s :=
  withPrecision_eq (fun _ => rfl) fun p hp => withWidth_eq (fun _ => rfl) fun w hw => by
    simp [isPrecision_of_ofCode? hp, isWidth_of_ofCode? hw] at h

theorem execCvtfi_unsupported (h : (ta.isPrecision && tc.isWidth) = false) :
    execCvtfi ta tc a s = raise .unsupportedType s :=
  withPrecision_eq (fun _ => rfl) fun p hp => withWidth_eq (fun _ => rfl) fun w hw => by
    simp [isPrecision_of_ofCode? hp, isWidth_of_ofCode? hw] at h

/-! ### A slot without a value is refused, once the type codes are legal (R62 step 7) -/

/-- A frame that passes the check of a legal code comes to what follows it. -/
theorem withPrecision_refuses {k : Precision → Result} (legal : t.isPrecision = true)
    (h : ∀ p, Precision.ofCode? t = some p → k p = .refused .extNonCanonical) :
    withPrecision t s k = .refused .extNonCanonical :=
  withPrecision_eq (fun illegal => by simp [legal] at illegal) h

theorem withWidth_refuses {k : Width → Result} (legal : t.isWidth = true)
    (h : ∀ w, Width.ofCode? t = some w → k w = .refused .extNonCanonical) :
    withWidth t s k = .refused .extNonCanonical :=
  withWidth_eq (fun illegal => by simp [legal] at illegal) h

theorem withElems_refuses {k : List (Precision × Pair) → Result} (legal : (es.all fun e => e.t.isPrecision) = true)
    (h : ∀ ds, typedElems es = some ds → k ds = .refused .extNonCanonical) :
    withElems es s k = .refused .extNonCanonical :=
  withElems_eq (fun untyped => by simp [typedElems_eq_none.1 untyped] at legal) h

theorem unaryFloat_refuses (o : Op) (f : Precision → Value → Value → Value) (legal : ta.isPrecision = true)
    (h : ¬Readable ta a) : unaryFloat o f ta a s = .refused .extNonCanonical :=
  withPrecision_refuses legal fun p hp => withValue_refuses fun x hx => absurd ⟨p, x, hp, hx⟩ h

theorem unaryBool_refuses (f : Value → Bool) (legal : ta.isPrecision = true) (h : ¬Readable ta a) :
    unaryBool f ta a s = .refused .extNonCanonical :=
  withPrecision_refuses legal fun p hp => withValue_refuses fun x hx => absurd ⟨p, x, hp, hx⟩ h

theorem binaryFloat_refuses (o : Op) (f : Precision → Value → Value → Value → Value) (legalA : ta.isPrecision = true)
    (legalB : tb.isPrecision = true) (h : ¬(Readable ta a ∧ Readable tb b)) :
    binaryFloat o f ta tb a b s = .refused .extNonCanonical :=
  withPrecision_refuses legalA fun p hp => withPrecision_refuses legalB fun q hq =>
    withValue_refuses fun x hx => withValue_refuses fun y hy => absurd ⟨⟨p, x, hp, hx⟩, q, y, hq, hy⟩ h

theorem binaryBool_refuses (f : Value → Value → Bool) (legalA : ta.isPrecision = true)
    (legalB : tb.isPrecision = true) (h : ¬(Readable ta a ∧ Readable tb b)) :
    binaryBool f ta tb a b s = .refused .extNonCanonical :=
  withPrecision_refuses legalA fun p hp => withPrecision_refuses legalB fun q hq =>
    withValue_refuses fun x hx => withValue_refuses fun y hy => absurd ⟨⟨p, x, hp, hx⟩, q, y, hq, hy⟩ h

theorem variadicFold_refuses (o : Op) (step : Precision → Value → Value → Value → Value)
    (legal : ta.isPrecision = true) (legalElems : (es.all fun e => e.t.isPrecision) = true)
    (h : ¬(Readable ta a ∧ ∀ e ∈ es, Readable e.t e.v)) :
    variadicFold o step ta a es s = .refused .extNonCanonical :=
  withPrecision_refuses legal fun p hp => withElems_refuses legalElems fun _ hd =>
    withValue_refuses fun x hx => withValues_refuses fun _ hy =>
      absurd ⟨⟨p, x, hp, hx⟩, readable_of_decodeAll hd hy⟩ h

theorem execAdd3_refuses (legalA : ta.isPrecision = true) (legalB : tb.isPrecision = true)
    (legalC : tc.isPrecision = true) (h : ¬(Readable ta a ∧ Readable tb b ∧ Readable tc c)) :
    execAdd3 ta tb tc a b c s = .refused .extNonCanonical :=
  withPrecision_refuses legalA fun p hp => withPrecision_refuses legalB fun q hq =>
    withPrecision_refuses legalC fun r hr =>
      withValue_refuses fun x hx => withValue_refuses fun y hy => withValue_refuses fun z hz =>
        absurd ⟨⟨p, x, hp, hx⟩, ⟨q, y, hq, hy⟩, r, z, hr, hz⟩ h

theorem execPowi_refuses {n : Word} (legal : ta.isPrecision = true) (exponent : ¬n.toInt < 0) (h : ¬Readable ta a) :
    execPowi ta a n s = .refused .extNonCanonical :=
  withPrecision_refuses legal fun p hp => by
    rw [if_neg exponent]
    exact withValue_refuses fun x hx => absurd ⟨p, x, hp, hx⟩ h

theorem execCopysign_refuses (legal : ta.isPrecision = true) (h : ¬(Readable ta a ∧ Readable ta b)) :
    execCopysign ta a b s = .refused .extNonCanonical :=
  withPrecision_refuses legal fun p hp => withValue_refuses fun x hx => withValue_refuses fun y hy =>
    absurd ⟨⟨p, x, hp, hx⟩, p, y, hp, hy⟩ h

theorem execCvtff_refuses (legalA : ta.isPrecision = true) (legalC : tc.isPrecision = true) (h : ¬Readable ta a) :
    execCvtff ta tc a s = .refused .extNonCanonical :=
  withPrecision_refuses legalA fun p hp => withPrecision_refuses legalC fun _ _ =>
    withValue_refuses fun x hx => absurd ⟨p, x, hp, hx⟩ h

theorem execCvtfi_refuses (legalA : ta.isPrecision = true) (legalC : tc.isWidth = true) (h : ¬Readable ta a) :
    execCvtfi ta tc a s = .refused .extNonCanonical :=
  withPrecision_refuses legalA fun p hp => withWidth_refuses legalC fun _ _ =>
    withValue_refuses fun x hx => absurd ⟨p, x, hp, hx⟩ h

end Checks

/-! ### The checks of every request (R62 steps 4 to 7) -/

section Requests
variable {i : Instr} (s : State)

theorem exec_of_illegal (h : i.typesLegal = false) : exec i s = raise .unsupportedType s := by
  cases i with
  | add | sub | mul | div | pow => exact binaryFloat_unsupported _ _ h
  | add3 => exact execAdd3_unsupported h
  | addmany | mulmany => exact variadicFold_unsupported _ _ h
  | powi => exact execPowi_unsupported _ h
  | log | exp | sqrt | round | trunc | ceil | floor => exact unaryFloat_unsupported _ _ h
  | abs => exact unaryFloat_unsupported .abs (fun _ _ x => withSign false x) h
  | copysign => exact execCopysign_unsupported h
  | iszero | isone | isnan | isinf | isneg => exact unaryBool_unsupported _ h
  | isgt => exact binaryBool_unsupported _ h
  | cvtff => exact execCvtff_unsupported h
  | cvtif => exact execCvtif_unsupported _ h
  | cvtfi => exact execCvtfi_unsupported h

theorem exec_of_negativeExponent (legal : i.typesLegal = true) (h : i.negativeExponent = true) :
    exec i s = raise .domain s := by
  cases i with
  | powi ta a n =>
    obtain ⟨p, hp⟩ := isPrecision_iff.1 legal
    exact (withPrecision_legal _ hp).trans (if_pos (toInt_neg_iff.2 h))
  | add | sub | mul | div | add3 | addmany | mulmany | pow | log | exp | sqrt | round | trunc | ceil | floor | abs
  | copysign | iszero | isone | isnan | isinf | isneg | isgt | cvtff | cvtif | cvtfi => cases h

/-- A non-canonical slot among those that a request reads cannot be read. -/
theorem not_readable_of_readsNonCanonical (h : i.readsNonCanonical = true) : ¬∀ d ∈ i.data, Readable d.1 d.2 := by
  obtain ⟨d, member, nonCanonical⟩ := List.any_eq_true.1 h
  intro readable
  have canonical := (readable_iff.1 (readable d member)).2
  rw [nonCanonical] at canonical
  cases canonical

theorem exec_of_readsNonCanonical (legal : i.typesLegal = true) (exponent : i.negativeExponent = false)
    (h : i.readsNonCanonical = true) : exec i s = .refused .extNonCanonical := by
  have unreadable := not_readable_of_readsNonCanonical h
  cases i with
  | add | sub | mul | div | pow =>
    obtain ⟨legalA, legalB⟩ := Bool.and_eq_true_iff.1 legal
    exact binaryFloat_refuses _ _ legalA legalB (by simpa [Instr.data] using unreadable)
  | add3 =>
    obtain ⟨legalAB, legalC⟩ := Bool.and_eq_true_iff.1 legal
    obtain ⟨legalA, legalB⟩ := Bool.and_eq_true_iff.1 legalAB
    exact execAdd3_refuses legalA legalB legalC (by simpa [Instr.data] using unreadable)
  | addmany | mulmany =>
    obtain ⟨legalA, legalElems⟩ := Bool.and_eq_true_iff.1 legal
    exact variadicFold_refuses _ _ legalA legalElems (by simpa [Instr.data] using unreadable)
  | powi ta a n =>
    have natural : ¬n.toInt < 0 := by rw [toInt_neg_iff]; exact Bool.eq_false_iff.1 exponent
    exact execPowi_refuses legal natural (by simpa [Instr.data] using unreadable)
  | log | exp | sqrt | round | trunc | ceil | floor =>
    exact unaryFloat_refuses _ _ legal (by simpa [Instr.data] using unreadable)
  | abs =>
    exact unaryFloat_refuses .abs (fun _ _ x => withSign false x) legal (by simpa [Instr.data] using unreadable)
  | copysign => exact execCopysign_refuses legal (by simpa [Instr.data] using unreadable)
  | iszero | isone | isnan | isinf | isneg =>
    exact unaryBool_refuses _ legal (by simpa [Instr.data] using unreadable)
  | isgt =>
    obtain ⟨legalA, legalB⟩ := Bool.and_eq_true_iff.1 legal
    exact binaryBool_refuses _ legalA legalB (by simpa [Instr.data] using unreadable)
  | cvtff =>
    obtain ⟨legalA, legalC⟩ := Bool.and_eq_true_iff.1 legal
    exact execCvtff_refuses legalA legalC (by simpa [Instr.data] using unreadable)
  | cvtif => simp [Instr.data] at unreadable
  | cvtfi =>
    obtain ⟨legalA, legalC⟩ := Bool.and_eq_true_iff.1 legal
    exact execCvtfi_refuses legalA legalC (by simpa [Instr.data] using unreadable)

end Requests

/-- Settles O19: each of the checks before the last is answered with an error response, and a request that passes them
all completes; so the refusal is left for the last check alone. -/
theorem refusedExactly : Obligations.RefusedExactly := by
  intro i s
  constructor
  · nofun
  intro e
  constructor
  · intro refused
    have notAnswered {r : Response} (answered : exec i s = .next (s.deliver r)) : False := by
      rw [answered] at refused
      cases refused
    have legal : i.typesLegal = true := by
      by_contra illegal
      exact notAnswered (exec_of_illegal s (Bool.eq_false_iff.2 illegal))
    have exponent : i.negativeExponent = false := by
      by_contra negative
      exact notAnswered (exec_of_negativeExponent s legal (Bool.eq_true_of_not_eq_false negative))
    have nonCanonical : i.readsNonCanonical = true := by
      by_contra canonical
      obtain ⟨r, answered, -⟩ :=
        executingRequestsComplete i s (executes_iff.2 ⟨legal, exponent, Bool.eq_false_iff.2 canonical⟩)
      exact notAnswered answered
    rw [exec_of_readsNonCanonical s legal exponent nonCanonical] at refused
    cases refused
    exact ⟨rfl, legal, exponent, nonCanonical⟩
  · rintro ⟨rfl, legal, exponent, nonCanonical⟩
    exact exec_of_readsNonCanonical s legal exponent nonCanonical

end Sys2Proof.Machine

/-! The rounding family. The rounded multiple of the quantum is the integer nearest to the scaled magnitude, and every
representable number near it is a multiple of the same quantum: what is said of the rounding follows from that. -/

namespace Sys2Proof.Machine

variable {p : Precision} {a x : ℚ} {s0 : Bool}

/-! ### The nearest integer -/

/-- No integer is nearer than one that is at most a half away, and another one as near makes a tie. -/
theorem nearest_of_half {t : ℚ} {n : ℤ} (h : |t - n| ≤ 1 / 2) (m : ℤ) :
    |t - n| ≤ |t - m| ∧ (m ≠ n → |t - n| = |t - m| → |t - n| = 1 / 2) := by
  rcases eq_or_ne m n with rfl | other
  · exact ⟨le_rfl, fun h => absurd rfl h⟩
  have apart : (1 : ℚ) ≤ |(m : ℚ) - n| := by exact_mod_cast Int.one_le_abs (sub_ne_zero.2 other)
  have triangle : |(m : ℚ) - n| ≤ |t - m| + |t - n| := by
    rw [abs_sub_comm t m]
    exact abs_sub_le _ t _
  exact ⟨by linarith, fun _ tie => by linarith⟩

theorem nearestEven_of_half {t : ℚ} {n : ℤ} (h : |t - n| ≤ 1 / 2) (even : |t - n| = 1 / 2 → n % 2 = 0) :
    NearestEven t n :=
  h.lt_or_eq.imp_right fun tie => ⟨tie, even tie⟩

/-- A nearest integer does not pass an integer bound. -/
theorem le_of_nearest {t : ℚ} {n m : ℕ} (near : |t - n| ≤ 1 / 2) (h : t < m) : n ≤ m := by
  have := (abs_le.1 near).1
  have : (n : ℚ) < m + 1 := by linarith
  exact Nat.lt_succ_iff.1 (by exact_mod_cast this)

/-- Nor does it pass one from above. -/
theorem ge_of_nearest {t : ℚ} {n m : ℕ} (near : |t - n| ≤ 1 / 2) (h : m ≤ t) : m ≤ n := by
  have := (abs_le.1 near).2
  have : (m : ℚ) < n + 1 := by linarith
  exact Nat.lt_succ_iff.1 (by exact_mod_cast this)

/-! ### The quantum and the rounded multiple (R113) -/

theorem two_pow_mul_zpow {k : ℕ} {q r : ℤ} (h : k + q = r) : (2 : ℚ) ^ k * 2 ^ q = 2 ^ r := by
  rw [← h, zpow_add₀ two_ne_zero, zpow_natCast]

theorem floorLog2_eq_log (h : 0 < a) : Exact.floorLog2 a = Int.log 2 a :=
  Exact.floorLog2_unique (by exact_mod_cast Int.zpow_log_le_self one_lt_two h)
    (by exact_mod_cast Int.lt_zpow_succ_log_self one_lt_two a)

theorem quantum_eq_log (h : 0 < a) : quantum p a = max (Int.log 2 a) p.emin - (p.prec - 1) := by
  rw [quantum, floorLog2_eq_log h]

theorem emin_lt_emax (p : Precision) : p.emin < p.emax := by cases p <;> decide

theorem emin_le_quantum (p : Precision) (a : ℚ) : p.emin - (p.prec - 1) ≤ quantum p a := by
  unfold quantum
  omega

/-- Above the least quantum the magnitude is normal. -/
theorem quantum_cases (p : Precision) (a : ℚ) :
    quantum p a = p.emin - (p.prec - 1) ∨
      p.emin ≤ Exact.floorLog2 a ∧ quantum p a = Exact.floorLog2 a - (p.prec - 1) := by
  unfold quantum
  omega

theorem roundedMultiple_near (h : 0 ≤ a) : |a / 2 ^ quantum p a - roundedMultiple p a| ≤ 1 / 2 :=
  (roundedMultiple_nearest h).1

theorem roundedMultiple_le (h : 0 < a) : roundedMultiple p a ≤ 2 ^ p.prec :=
  le_of_nearest (roundedMultiple_near h.le) (by exact_mod_cast scaled_lt h)

theorem le_roundedMultiple (h : 0 < a) (normal : p.emin ≤ Exact.floorLog2 a) :
    2 ^ (p.prec - 1) ≤ roundedMultiple p a :=
  ge_of_nearest (roundedMultiple_near h.le) (by exact_mod_cast le_scaled h normal)

theorem nearestEven_roundedMultiple (h : 0 ≤ a) : NearestEven (a / 2 ^ quantum p a) (roundedMultiple p a : ℕ) := by
  obtain ⟨near, even⟩ := roundedMultiple_nearest (p := p) h
  exact nearestEven_of_half (by exact_mod_cast near) fun tie => by exact_mod_cast even (by exact_mod_cast tie)

/-! ### The rounded value -/

/-- The rounded magnitude with the sign of the exact value (R113). -/
def roundedValue (p : Precision) (x : ℚ) : ℚ :=
  (if x < 0 then -1 else 1) * (roundedMultiple p |x| * 2 ^ quantum p |x|)

theorem abs_roundedValue (p : Precision) (x : ℚ) : |roundedValue p x| = roundedMultiple p |x| * 2 ^ quantum p |x| := by
  have magnitude : (0 : ℚ) ≤ roundedMultiple p |x| * 2 ^ quantum p |x| := by positivity
  unfold roundedValue
  split_ifs
  · rw [neg_one_mul, abs_neg, abs_of_nonneg magnitude]
  · rw [one_mul, abs_of_nonneg magnitude]

/-- The error is that of the magnitude. -/
theorem abs_sub_roundedValue (p : Precision) (x : ℚ) : |x - roundedValue p x| = abs (|x| - |roundedValue p x|) := by
  rw [abs_roundedValue, roundedValue]
  split_ifs with negative
  · rw [abs_of_neg negative, neg_one_mul, ← abs_neg]
    ring_nf
  · rw [abs_of_nonneg (not_lt.1 negative), one_mul]

theorem roundedValue_eq_zero_iff : roundedValue p x = 0 ↔ roundedMultiple p |x| = 0 := by
  have quantum : (2 : ℚ) ^ quantum p |x| ≠ 0 := by positivity
  rw [← abs_eq_zero, abs_roundedValue, mul_eq_zero, or_iff_left quantum, Nat.cast_eq_zero]

theorem roundTo_of_overflow (h : x ≠ 0) (overflow : 2 ^ (p.emax + 1) ≤ |roundedValue p x|) :
    roundTo p x s0 = .inf (decide (x < 0)) := by
  rw [abs_roundedValue, ← roundedMagnitude_eq] at overflow
  obtain ⟨-, result⟩ | ⟨finite, -⟩ | ⟨finite, -⟩ := roundTo_cases (p := p) (s0 := s0) h
  · exact result
  · exact absurd finite (not_lt.2 overflow)
  · exact absurd finite (not_lt.2 overflow)

theorem roundTo_of_underflow (h : x ≠ 0) (under : roundedValue p x = 0) : roundTo p x s0 = .zero (decide (x < 0)) := by
  have none : roundedMagnitude p |x| = 0 := by rw [roundedMagnitude_eq, ← abs_roundedValue, under, abs_zero]
  obtain ⟨overflow, -⟩ | ⟨-, -, result⟩ | ⟨-, some, -⟩ := roundTo_cases (p := p) (s0 := s0) h
  · rw [none] at overflow
    exact absurd overflow (not_le.2 (by positivity))
  · exact result
  · exact absurd none some

theorem roundTo_of_finite (h : x ≠ 0) (finite : |roundedValue p x| < 2 ^ (p.emax + 1))
    (nonzero : roundedValue p x ≠ 0) : roundTo p x s0 = .fin (roundedValue p x) := by
  rw [abs_roundedValue, ← roundedMagnitude_eq] at finite
  obtain ⟨overflow, -⟩ | ⟨-, none, -⟩ | ⟨-, -, result⟩ := roundTo_cases (p := p) (s0 := s0) h
  · exact absurd finite (not_lt.2 overflow)
  · rw [roundedMagnitude_eq, ← abs_roundedValue, abs_eq_zero] at none
    exact absurd none nonzero
  · rw [result, roundedMagnitude_eq, roundedValue]
    split_ifs
    · rw [neg_one_mul]
    · rw [one_mul]

/-! ### The rounded value is representable (R106), and its encoding is even if its multiple is -/

theorem prec_succ (p : Precision) : 2 ^ p.prec = 2 * 2 ^ p.fracBits := by rw [Precision.prec_eq, pow_succ']

theorem integerBit_even (p : Precision) : integerBit p % 2 = 0 := by cases p <;> decide

theorem two_pow_fracBits_even (p : Precision) : 2 ^ p.fracBits % 2 = 0 := by cases p <;> decide

/-- A magnitude below the range, with its highest bit in the significand, is on a quantum of the format. -/
theorem exponent_le_of_lt {n : ℕ} {q : ℤ} (lower : 2 ^ p.fracBits ≤ n) (finite : (n : ℚ) * 2 ^ q < 2 ^ (p.emax + 1)) :
    q ≤ p.emax - (p.prec - 1) := by
  have highest : (2 : ℚ) ^ (p.fracBits + q : ℤ) ≤ n * 2 ^ q := by
    rw [← two_pow_mul_zpow rfl]
    gcongr
    exact_mod_cast lower
  have := (zpow_lt_zpow_iff_right₀ (one_lt_two (α := ℚ))).1 (highest.trans_lt finite)
  rw [Precision.prec_eq]
  push_cast
  omega

/-- At most `2 ^ P` quanta stand in the table, when they fill the significand or the quantum is the least one. The count
`2 ^ P` is half as many of the next quantum. -/
theorem exists_codes_of_multiple (s : Bool) {n : ℕ} {q : ℤ} (pos : 0 < n) (upper : n ≤ 2 ^ p.prec)
    (least : p.emin - (p.prec - 1) ≤ q) (full : q = p.emin - (p.prec - 1) ∨ 2 ^ p.fracBits ≤ n)
    (finite : (n : ℚ) * 2 ^ q < 2 ^ (p.emax + 1)) :
    ∃ f, Codes p f (.fin ((if s then -1 else 1) * n * 2 ^ q)) ∧ (n % 2 = 0 → f.sig % 2 = 0) := by
  have even := two_pow_fracBits_even p
  have bit := integerBit_even p
  rcases Nat.lt_or_ge n (2 ^ p.fracBits) with small | lower
  · obtain rfl := full.resolve_right (not_le.2 small)
    exact ⟨_, codes_scaled_subnormal s pos small, id⟩
  rcases upper.lt_or_eq with small | rfl
  · rw [Precision.prec_eq] at small
    obtain ⟨e, row⟩ := codes_scaled_normal s lower small least (exponent_le_of_lt lower finite)
    exact ⟨_, row, fun _ => by simp only; omega⟩
  · have carry (t : ℚ) : t * (2 ^ p.prec : ℕ) * 2 ^ q = t * (2 ^ p.fracBits : ℕ) * 2 ^ (q + 1) := by
      rw [prec_succ, zpow_add_one₀ two_ne_zero]
      push_cast
      ring
    have finite' : ((2 ^ p.fracBits : ℕ) : ℚ) * 2 ^ (q + 1) < 2 ^ (p.emax + 1) := by
      have := carry 1
      rw [one_mul, one_mul] at this
      rwa [← this]
    obtain ⟨e, row⟩ := codes_scaled_normal s le_rfl (Nat.pow_lt_pow_succ one_lt_two) (by omega)
      (exponent_le_of_lt le_rfl finite')
    rw [carry]
    exact ⟨_, row, fun _ => by simpa using bit⟩

/-- The rounded value stands in the table. -/
theorem exists_codes_roundedValue (h : x ≠ 0) (finite : |roundedValue p x| < 2 ^ (p.emax + 1))
    (nonzero : roundedValue p x ≠ 0) :
    ∃ f, Codes p f (.fin (roundedValue p x)) ∧ (roundedMultiple p |x| % 2 = 0 → f.sig % 2 = 0) := by
  have positive := abs_pos.2 h
  have full : quantum p |x| = p.emin - (p.prec - 1) ∨ 2 ^ p.fracBits ≤ roundedMultiple p |x| := by
    rw [← prec_sub_one]
    exact (quantum_cases p |x|).imp_right fun ⟨normal, _⟩ => le_roundedMultiple positive normal
  have pos : 0 < roundedMultiple p |x| := Nat.pos_of_ne_zero (mt roundedValue_eq_zero_iff.2 nonzero)
  rw [abs_roundedValue] at finite
  obtain ⟨f, row, even⟩ := exists_codes_of_multiple (decide (x < 0)) pos (roundedMultiple_le positive)
    (emin_le_quantum p |x|) full finite
  refine ⟨f, ?_, even⟩
  rw [roundedValue, ← mul_assoc]
  simpa using row

theorem representable_roundedValue (h : x ≠ 0) (finite : |roundedValue p x| < 2 ^ (p.emax + 1))
    (nonzero : roundedValue p x ≠ 0) : Representable p (roundedValue p x) := by
  obtain ⟨f, row, -⟩ := exists_codes_roundedValue h finite nonzero
  exact row.encodable

/-- Settles O27: the multiple is the one that the model rounds to, and each row is one of the outcomes of rounding. -/
theorem roundingFollowsTheFormula : Obligations.RoundingFollowsTheFormula := by
  intro p x s0
  refine ⟨?_, fun h q hq => ?_⟩
  · rintro rfl
    exact roundTo_zero p s0
  have positive := abs_pos.2 h
  obtain rfl : q = quantum p |x| := hq.trans (quantum_eq_log positive).symm
  refine ⟨roundedMultiple p |x|, nearestEven_roundedMultiple positive.le, ?_⟩
  rw [Int.cast_natCast, ← abs_roundedValue]
  by_cases overflow : 2 ^ (p.emax + 1) ≤ |roundedValue p x|
  · exact firstMatch_of_holds overflow (roundTo_of_overflow h overflow)
  refine firstMatch_of_fails overflow ?_
  by_cases under : roundedValue p x = 0
  · exact firstMatch_of_holds (abs_eq_zero.2 under) (roundTo_of_underflow h under)
  refine firstMatch_of_fails (mt abs_eq_zero.1 under) (firstMatch_of_holds trivial ?_)
  rw [abs_roundedValue]
  exact ⟨_, rfl, roundTo_of_finite h (not_le.1 overflow) under, representable_roundedValue h (not_le.1 overflow) under⟩

/-! ### Underflow (R115) -/

/-- The scaled value is as far from the signed multiple as the scaled magnitude from the multiple. -/
theorem abs_scaled_sub (p : Precision) (x : ℚ) :
    abs (x / 2 ^ quantum p |x| - roundedValue p x / 2 ^ quantum p |x|) =
      abs (|x| / 2 ^ quantum p |x| - roundedMultiple p |x|) := by
  have positive : (0 : ℚ) < 2 ^ quantum p |x| := by positivity
  rw [← sub_div, abs_div, abs_sub_roundedValue, abs_roundedValue, ← abs_div, sub_div,
    mul_div_cancel_right₀ _ positive.ne']

/-- The rounded multiple with the sign of the exact value. -/
def signedMultiple (p : Precision) (x : ℚ) : ℤ := (if x < 0 then -1 else 1) * roundedMultiple p |x|

theorem signedMultiple_mul (p : Precision) (x : ℚ) :
    (signedMultiple p x : ℚ) * 2 ^ quantum p |x| = roundedValue p x := by
  unfold signedMultiple roundedValue
  push_cast
  rw [mul_assoc]

theorem signedMultiple_eq_zero_iff : signedMultiple p x = 0 ↔ roundedValue p x = 0 := by
  rw [← signedMultiple_mul, mul_eq_zero, or_iff_left (by positivity), Int.cast_eq_zero]

theorem signedMultiple_mod_two (p : Precision) (x : ℚ) : signedMultiple p x % 2 = (roundedMultiple p |x| : ℤ) % 2 := by
  unfold signedMultiple
  split_ifs <;> omega

theorem nearestEven_signedMultiple (p : Precision) (x : ℚ) :
    NearestEven (x / 2 ^ quantum p |x|) (signedMultiple p x) := by
  have multiple : (signedMultiple p x : ℚ) = roundedValue p x / 2 ^ quantum p |x| := by
    rw [eq_div_iff (by positivity), signedMultiple_mul]
  have near := nearestEven_roundedMultiple (p := p) (abs_nonneg x)
  rw [NearestEven] at near ⊢
  rw [multiple, abs_scaled_sub, signedMultiple_mod_two]
  exact_mod_cast near

/-- Below the least normal magnitude the quantum is the least subnormal number. -/
theorem quantum_of_subnormal (h : 0 < a) (small : a < 2 ^ p.emin) : quantum p a = p.emin - p.prec + 1 := by
  have below : Exact.floorLog2 a < p.emin :=
    (zpow_lt_zpow_iff_right₀ (one_lt_two (α := ℚ))).1 ((Exact.floorLog2_spec h).1.trans_lt small)
  unfold quantum
  omega

/-- A subnormal magnitude does not round past the least normal one. -/
theorem roundedValue_le_of_subnormal (h : x ≠ 0) (small : |x| < 2 ^ p.emin) : |roundedValue p x| ≤ 2 ^ p.emin := by
  have leastQuantum := quantum_of_subnormal (abs_pos.2 h) small
  have least : (2 ^ (p.prec - 1) : ℕ) * 2 ^ quantum p |x| = (2 : ℚ) ^ p.emin := by
    have := p.prec_pos
    rw [leastQuantum, Nat.cast_pow, Nat.cast_two]
    exact two_pow_mul_zpow (by omega)
  have multiple : roundedMultiple p |x| ≤ 2 ^ (p.prec - 1) := by
    refine le_of_nearest (roundedMultiple_near (abs_nonneg x)) ?_
    rwa [div_lt_iff₀ (by positivity), least]
  rw [abs_roundedValue, ← least]
  gcongr

/-- Settles O30: the signed multiple of the least quantum is the one that the rule asks for. -/
theorem underflowIsGradual : Obligations.UnderflowIsGradual := by
  intro p x s0 h small
  have bound := roundedValue_le_of_subnormal h small
  rw [← quantum_of_subnormal (abs_pos.2 h) small]
  refine ⟨signedMultiple p x, nearestEven_signedMultiple p x, ?_, ?_⟩
  · rwa [signedMultiple_mul]
  rw [signedMultiple_mul]
  split_ifs with none
  · exact roundTo_of_underflow h (signedMultiple_eq_zero_iff.1 none)
  · have range : p.emin < p.emax + 1 := (emin_lt_emax p).trans (lt_add_one _)
    exact roundTo_of_finite h (bound.trans_lt (zpow_lt_zpow_right₀ one_lt_two range))
      (mt signedMultiple_eq_zero_iff.2 none)

/-! ### Overflow (R114) -/

theorem two_pow_emax (p : Precision) : (2 : ℚ) ^ p.emax = 2 ^ p.prec / 2 * 2 ^ (p.emax - (p.prec - 1)) := by
  rw [← zpow_natCast, div_eq_mul_inv, ← zpow_sub_one₀ (two_ne_zero (α := ℚ)), ← zpow_add₀ two_ne_zero, add_sub_cancel]

/-- The threshold of overflow, counted in the quanta of the greatest numbers. -/
theorem threshold_eq (p : Precision) :
    (2 - 2 ^ (-(p.prec : ℤ)) : ℚ) * 2 ^ p.emax = (2 ^ p.prec - 1 / 2) * 2 ^ (p.emax - (p.prec - 1)) := by
  rw [two_pow_emax, zpow_neg, zpow_natCast]
  field_simp

/-- The greatest representable number, counted in its quanta. -/
theorem greatest_eq (p : Precision) :
    (2 - 2 ^ (1 - (p.prec : ℤ)) : ℚ) * 2 ^ p.emax = (2 ^ p.prec - 1 : ℕ) * 2 ^ (p.emax - (p.prec - 1)) := by
  rw [two_pow_emax, zpow_sub₀ two_ne_zero, zpow_natCast, zpow_one, Nat.cast_sub Nat.one_le_two_pow]
  push_cast
  field_simp

theorem representable_greatest (p : Precision) : Representable p ((2 - 2 ^ (1 - (p.prec : ℤ))) * 2 ^ p.emax) := by
  have significand : 2 ^ (p.prec - 1) ≤ 2 ^ p.prec - 1 := by cases p <;> decide
  have exponent : p.emin ≤ p.emax := by cases p <;> decide
  refine ⟨false, 2 ^ p.prec - 1, p.emax - (p.prec - 1), ?_, .inl ⟨significand, ?_, by omega, le_rfl⟩⟩
  · rw [greatest_eq, if_neg Bool.false_ne_true, one_mul]
  · exact Nat.sub_lt (by positivity) one_pos

theorem quantum_of_normal (normal : p.emin ≤ Exact.floorLog2 a) : quantum p a = Exact.floorLog2 a - (p.prec - 1) := by
  rw [quantum, max_eq_left normal]

/-- The multiple for the binary exponent `emax` is the full count at the threshold: one less would be odd on a tie. -/
theorem roundedMultiple_of_threshold (h : 0 ≤ a) (threshold : 2 ^ p.prec - 1 / 2 ≤ a / 2 ^ quantum p a) :
    2 ^ p.prec ≤ roundedMultiple p a := by
  obtain ⟨near, even⟩ := roundedMultiple_nearest (p := p) h
  have odd : (2 ^ p.prec - 1) % 2 = 1 := by cases p <;> decide
  by_contra! less
  have cast : (roundedMultiple p a : ℚ) + 1 ≤ 2 ^ p.prec := by exact_mod_cast less
  have bounds := abs_le.1 near
  have tie : |a / 2 ^ quantum p a - roundedMultiple p a| = 1 / 2 :=
    le_antisymm near ((by linarith : _ ≤ _).trans (le_abs_self _))
  have last : roundedMultiple p a = 2 ^ p.prec - 1 := by
    have : (2 ^ p.prec : ℚ) ≤ roundedMultiple p a + 1 := by linarith
    have : 2 ^ p.prec ≤ roundedMultiple p a + 1 := by exact_mod_cast this
    omega
  have := even tie
  rw [last, odd] at this
  cases this

/-- At the threshold and above, rounding reaches `2 ^ (emax + 1)`. -/
theorem overflow_of_threshold (h : 0 < a) (threshold : (2 - 2 ^ (-(p.prec : ℤ))) * 2 ^ p.emax ≤ a) :
    (2 : ℚ) ^ (p.emax + 1) ≤ roundedMultiple p a * 2 ^ quantum p a := by
  have prec := p.prec_pos
  have large : (2 : ℚ) ^ p.emax ≤ a := by
    have fraction : (2 : ℚ) ^ (-(p.prec : ℤ)) ≤ 1 := zpow_le_one_of_nonpos₀ one_le_two (by omega)
    refine le_trans (le_mul_of_one_le_left (by positivity) ?_) threshold
    linarith
  have exponent : p.emax < Exact.floorLog2 a + 1 :=
    (zpow_lt_zpow_iff_right₀ (one_lt_two (α := ℚ))).1 (large.trans_lt (Exact.floorLog2_spec h).2)
  have normal : p.emin ≤ Exact.floorLog2 a := by
    have := emin_lt_emax p
    omega
  rw [threshold_eq] at threshold
  rcases (Int.lt_add_one_iff.1 exponent).eq_or_lt with last | beyond
  · have quantum : quantum p a = p.emax - (p.prec - 1) := by rw [quantum_of_normal normal, last]
    have full : 2 ^ p.prec ≤ roundedMultiple p a := by
      refine roundedMultiple_of_threshold h.le ?_
      rwa [quantum, le_div_iff₀ (by positivity)]
    rw [quantum, ← two_pow_mul_zpow (k := p.prec) (q := p.emax - (p.prec - 1)) (by omega)]
    gcongr
    exact_mod_cast full
  · have full := le_roundedMultiple h normal
    refine le_trans (zpow_le_zpow_right₀ one_le_two beyond) ?_
    have power : (2 : ℚ) ^ (p.prec - 1) * 2 ^ quantum p a = 2 ^ Exact.floorLog2 a := by
      rw [quantum_of_normal normal]
      exact two_pow_mul_zpow (by omega)
    rw [← power]
    gcongr
    exact_mod_cast full

/-- Below the threshold, rounding does not pass the greatest representable number. -/
theorem roundedValue_le_greatest (h : x ≠ 0) (threshold : |x| < (2 - 2 ^ (-(p.prec : ℤ))) * 2 ^ p.emax) :
    |roundedValue p x| ≤ (2 - 2 ^ (1 - (p.prec : ℤ))) * 2 ^ p.emax := by
  have positive := abs_pos.2 h
  have prec := p.prec_pos
  have range := emin_lt_emax p
  have small : |x| < 2 ^ (p.emax + 1) := by
    refine threshold.trans_le ?_
    rw [zpow_add_one₀ two_ne_zero, mul_comm]
    gcongr
    linarith [show (0 : ℚ) < 2 ^ (-(p.prec : ℤ)) by positivity]
  have exponent : Exact.floorLog2 |x| < p.emax + 1 :=
    (zpow_lt_zpow_iff_right₀ (one_lt_two (α := ℚ))).1 ((Exact.floorLog2_spec positive).1.trans_lt small)
  rw [abs_roundedValue, greatest_eq]
  rw [threshold_eq] at threshold
  rcases (Int.lt_add_one_iff.1 exponent).eq_or_lt with last | below
  · have quantum : quantum p |x| = p.emax - (p.prec - 1) := by
      rw [quantum_of_normal (by omega), last]
    have multiple : roundedMultiple p |x| ≤ 2 ^ p.prec - 1 := by
      have near := (abs_le.1 (roundedMultiple_near (p := p) positive.le)).1
      rw [← div_lt_iff₀ (by positivity), ← quantum] at threshold
      have : (roundedMultiple p |x| : ℚ) < 2 ^ p.prec := by linarith
      exact Nat.le_sub_one_of_lt (by exact_mod_cast this)
    rw [quantum]
    gcongr
  · have finer : quantum p |x| + 1 ≤ p.emax - (p.prec - 1) := by
      unfold quantum
      omega
    have multiple : roundedMultiple p |x| ≤ (2 ^ p.prec - 1) * 2 := by
      have := roundedMultiple_le (p := p) positive
      have := prec_succ p
      have := Nat.one_le_two_pow (n := p.fracBits)
      omega
    calc (roundedMultiple p |x| : ℚ) * 2 ^ quantum p |x|
        ≤ ((2 ^ p.prec - 1) * 2 : ℕ) * 2 ^ quantum p |x| := by gcongr
      _ = (2 ^ p.prec - 1 : ℕ) * 2 ^ (quantum p |x| + 1) := by
        rw [zpow_add_one₀ two_ne_zero, Nat.cast_mul, Nat.cast_two]
        ring
      _ ≤ (2 ^ p.prec - 1 : ℕ) * 2 ^ (p.emax - (p.prec - 1)) := by
        gcongr
        exact one_le_two

theorem greatest_lt (p : Precision) : ((2 - 2 ^ (1 - (p.prec : ℤ))) * 2 ^ p.emax : ℚ) < 2 ^ (p.emax + 1) := by
  rw [zpow_add_one₀ two_ne_zero, mul_comm]
  gcongr
  linarith [show (0 : ℚ) < 2 ^ (1 - (p.prec : ℤ)) by positivity]

/-- Below the threshold the result is the rounded value, or the zero of the sign in its place. -/
theorem roundTo_of_lt_threshold (s0 : Bool) (h : x ≠ 0) (threshold : |x| < (2 - 2 ^ (-(p.prec : ℤ))) * 2 ^ p.emax) :
    (roundTo p x s0 = .fin (roundedValue p x) ∧ roundedValue p x ≠ 0 ∧ |roundedValue p x| < 2 ^ (p.emax + 1)) ∨
      (roundTo p x s0 = .zero (decide (x < 0)) ∧ roundedValue p x = 0) := by
  have finite := (roundedValue_le_greatest h threshold).trans_lt (greatest_lt p)
  by_cases under : roundedValue p x = 0
  · exact .inr ⟨roundTo_of_underflow h under, under⟩
  · exact .inl ⟨roundTo_of_finite h finite under, under, finite⟩

/-- Settles O29: at the threshold rounding reaches the range of overflow, and below it does not pass the greatest
number. -/
theorem overflowBeginsAtTheThreshold : Obligations.OverflowBeginsAtTheThreshold := by
  intro p x s0 h
  refine ⟨fun threshold => ?_, fun threshold => ?_, representable_greatest p⟩
  · refine roundTo_of_overflow h ?_
    rw [abs_roundedValue]
    exact overflow_of_threshold (abs_pos.2 h) threshold
  · have bound := roundedValue_le_greatest h threshold
    obtain ⟨result, -⟩ | ⟨result, none⟩ := roundTo_of_lt_threshold s0 h threshold
    · rw [result]
      exact ⟨rfl, rfl, bound⟩
    · rw [none] at bound
      rw [result]
      exact ⟨rfl, rfl, bound⟩

/-! ### To nearest, ties to even (R113, R116) -/

/-- A representable number is a multiple of the quantum of `a`, or it lies below the power of two under a normal `a`,
where the quanta are finer. -/
theorem multiple_or_below {z : ℚ} (hz : Representable p z) (a : ℚ) :
    (∃ k : ℕ, |z| = k * 2 ^ quantum p a) ∨ p.emin ≤ Exact.floorLog2 a ∧ |z| < 2 ^ Exact.floorLog2 a := by
  obtain ⟨s, m, r, rfl, row⟩ := hz
  have magnitude : |(if s then -1 else 1) * (m : ℚ) * 2 ^ r| = m * 2 ^ r := by
    rw [abs_mul, abs_mul, abs_of_pos (show (0 : ℚ) < 2 ^ r by positivity), Nat.abs_cast]
    cases s <;> simp
  have significand : m < 2 ^ p.prec := by
    have := Nat.pow_le_pow_right two_pos (Nat.sub_le p.prec 1)
    omega
  rw [magnitude]
  rcases le_or_gt (quantum p a) r with coarser | finer
  · obtain ⟨d, hd⟩ := Int.eq_ofNat_of_zero_le (sub_nonneg.2 coarser)
    refine .inl ⟨m * 2 ^ d, ?_⟩
    rw [Nat.cast_mul, Nat.cast_pow, Nat.cast_two, mul_assoc, two_pow_mul_zpow (r := r) (by omega)]
  · obtain least | ⟨normal, quantum⟩ := quantum_cases p a
    · omega
    refine .inr ⟨normal, ?_⟩
    calc (m : ℚ) * 2 ^ r < 2 ^ p.prec * 2 ^ r := by gcongr; exact_mod_cast significand
      _ = 2 ^ (p.prec + r) := two_pow_mul_zpow rfl
      _ ≤ 2 ^ Exact.floorLog2 a := zpow_le_zpow_right₀ one_le_two (by omega)

theorem abs_sub_multiple (p : Precision) (a : ℚ) (k : ℕ) :
    |a - k * 2 ^ quantum p a| = |a / 2 ^ quantum p a - k| * 2 ^ quantum p a := by
  have positive : (0 : ℚ) < 2 ^ quantum p a := by positivity
  rw [← abs_of_pos positive, ← abs_mul, abs_of_pos positive, sub_mul, div_mul_cancel₀ _ positive.ne']

/-- No multiple of the quantum is nearer than the rounded one, and another one as near makes a tie. -/
theorem roundedMultiple_nearest_multiple (h : 0 ≤ a) (k : ℕ) :
    |a - roundedMultiple p a * 2 ^ quantum p a| ≤ |a - k * 2 ^ quantum p a| ∧
      (k ≠ roundedMultiple p a →
        |a - roundedMultiple p a * 2 ^ quantum p a| = |a - k * 2 ^ quantum p a| → roundedMultiple p a % 2 = 0) := by
  obtain ⟨near, even⟩ := roundedMultiple_nearest (p := p) h
  obtain ⟨least, tie⟩ := nearest_of_half (n := roundedMultiple p a) (by exact_mod_cast near) k
  rw [abs_sub_multiple, abs_sub_multiple]
  refine ⟨mul_le_mul_of_nonneg_right (by exact_mod_cast least) (by positivity), fun other same => even ?_⟩
  have same := mul_right_cancel₀ (show (2 : ℚ) ^ quantum p a ≠ 0 by positivity) same
  exact_mod_cast tie (by exact_mod_cast other) (by exact_mod_cast same)

/-- The magnitudes of zero and of the representable numbers are no nearer than the rounded one, and another one as near
makes a tie. A magnitude below the power of two under `a` is further away than that power. -/
theorem roundedMagnitude_nearest (h : 0 < a) {z : ℚ} (hz : z = 0 ∨ Representable p z) :
    |a - roundedMultiple p a * 2 ^ quantum p a| ≤ abs (a - |z|) ∧
      (|z| ≠ roundedMultiple p a * 2 ^ quantum p a →
        |a - roundedMultiple p a * 2 ^ quantum p a| = abs (a - |z|) → roundedMultiple p a % 2 = 0) := by
  have multiples : (∃ k : ℕ, |z| = k * 2 ^ quantum p a) ∨ p.emin ≤ Exact.floorLog2 a ∧ |z| < 2 ^ Exact.floorLog2 a := by
    rcases hz with rfl | representable
    · exact .inl ⟨0, by simp⟩
    · exact multiple_or_below representable a
  obtain ⟨k, multiple⟩ | ⟨normal, below⟩ := multiples
  · obtain ⟨least, tie⟩ := roundedMultiple_nearest_multiple (p := p) h.le k
    rw [multiple]
    exact ⟨least, fun other => tie fun same => other (by rw [same])⟩
  · have prec := p.prec_pos
    have power : (2 ^ (p.prec - 1) : ℕ) * 2 ^ quantum p a = (2 : ℚ) ^ Exact.floorLog2 a := by
      rw [Nat.cast_pow, Nat.cast_two, quantum_of_normal normal]
      exact two_pow_mul_zpow (by omega)
    have lower := (Exact.floorLog2_spec h).1
    have nearer := (roundedMultiple_nearest_multiple (p := p) h.le (2 ^ (p.prec - 1))).1
    rw [power, abs_of_nonneg (sub_nonneg.2 lower)] at nearer
    have further : a - 2 ^ Exact.floorLog2 a < abs (a - |z|) := by
      refine lt_of_lt_of_le ?_ (le_abs_self _)
      linarith
    exact ⟨nearer.trans further.le, fun _ same => absurd same (nearer.trans_lt further).ne⟩

/-- No representable number and no zero is nearer than the rounded value, and another one as near makes a tie. A number
on the other side of zero is further away than its magnitude. -/
theorem roundedValue_nearest (h : x ≠ 0) {z : ℚ} (hz : z = 0 ∨ Representable p z) :
    |x - roundedValue p x| ≤ |x - z| ∧
      (z ≠ roundedValue p x → |x - roundedValue p x| = |x - z| → roundedMultiple p |x| % 2 = 0) := by
  obtain ⟨least, tie⟩ := roundedMagnitude_nearest (abs_pos.2 h) hz
  rw [← abs_roundedValue, ← abs_sub_roundedValue] at least tie
  have magnitude : abs (|x| - |z|) ≤ |x - z| := abs_abs_sub_abs_le_abs_sub x z
  refine ⟨least.trans magnitude, fun other same => ?_⟩
  refine tie (fun opposite => ?_) (least.antisymm (magnitude.trans same.ge))
  obtain rfl := (abs_eq_abs.1 opposite).resolve_left other
  rcases abs_eq_abs.1 same with sums | sums
  · have : roundedValue p x = 0 := by linarith
    simp [this] at other
  · exact h (by linarith)

/-- The last bit of the mantissa word is that of the significand. -/
theorem getLsbD_zero_eq (p : Precision) (b : Pair) : b.m.getLsbD 0 = (fields p b).sig.testBit 0 := by
  cases p with
  | single => exact (BitVec.getLsbD_extractLsb' (start := 0) (len := 23) (x := b.m) (i := 0)).symm
  | double => exact (BitVec.getLsbD_extractLsb' (start := 0) (len := 52) (x := b.m) (i := 0)).symm
  | extended => rfl

/-- The encoding of a rounded value is even if its multiple is (R106). -/
theorem encodeValue_even (h : x ≠ 0) (finite : |roundedValue p x| < 2 ^ (p.emax + 1)) (nonzero : roundedValue p x ≠ 0)
    (even : roundedMultiple p |x| % 2 = 0) : (encodeValue p (.fin (roundedValue p x))).m.getLsbD 0 = false := by
  obtain ⟨f, row, evenField⟩ := exists_codes_roundedValue h finite nonzero
  rw [getLsbD_zero_eq p, encodeValue_eq, row.encode, fields_packFields row.fit, Nat.testBit_zero, evenField even]
  rfl

theorem encodeValue_zero_even (p : Precision) (s : Bool) : (encodeValue p (.zero s)).m.getLsbD 0 = false := by
  cases p <;> cases s <;> rfl

/-- Settles O28: the rounded value is the nearest, and a tie makes its multiple even, hence its encoding. -/
theorem roundingIsToNearestEven : Obligations.RoundingIsToNearestEven := by
  intro p x s0 h threshold
  refine ⟨roundedValue p x, ?_⟩
  obtain ⟨result, nonzero, finite⟩ | ⟨result, none⟩ := roundTo_of_lt_threshold s0 h threshold
  · refine ⟨.inl ⟨result, representable_roundedValue h finite nonzero⟩, fun z hz => ?_⟩
    obtain ⟨least, tie⟩ := roundedValue_nearest h hz
    rw [result]
    exact ⟨least, fun other same => encodeValue_even h finite nonzero (tie other same)⟩
  · refine ⟨.inr ⟨result, none⟩, fun z hz => ?_⟩
    rw [result]
    exact ⟨(roundedValue_nearest h hz).1, fun _ _ => encodeValue_zero_even p _⟩

end Sys2Proof.Machine

/-! The promotion family. A type code names one precision, so the ordinals tell the precisions apart, and the laws of
promotion are those of the maximum of natural numbers. -/

namespace Sys2Proof.Machine

theorem ordinal_injective : Function.Injective Precision.ordinal := by
  intro p q same
  have code := Precision.ofCode?_ordinal p
  rw [same, Precision.ofCode?_ordinal] at code
  exact (Option.some.inj code).symm

@[simp] theorem ordinal_promote (p q : Precision) : (promote p q).ordinal = max p.ordinal q.ordinal :=
  (apply_ite Precision.ordinal _ q p).trans (max_def _ _).symm

theorem promote_comm (p q : Precision) : promote p q = promote q p :=
  ordinal_injective (by simp only [ordinal_promote, max_comm])

theorem promote_self (p : Precision) : promote p p = p :=
  ordinal_injective (by rw [ordinal_promote, max_self])

theorem promote_assoc (p q r : Precision) : promote (promote p q) r = promote p (promote q r) :=
  ordinal_injective (by simp only [ordinal_promote, max_assoc])

theorem promote_single (p : Precision) : promote .single p = p :=
  ordinal_injective ((ordinal_promote _ p).trans (Nat.zero_max _))

/-- Settles O26: the ordinal of a promotion is the maximum, and precisions of one ordinal are the same. -/
theorem promotionIsTheMaximum : Obligations.PromotionIsTheMaximum :=
  fun p q r => ⟨ordinal_promote p q, promote_comm p q, promote_self p, promote_assoc p q r, promote_single p⟩

end Sys2Proof.Machine

/-! The arithmetic family: each step function follows its table for all operands, whatever quiet NaN the request returns,
and does not look at that NaN. So a request, a fold included, follows the table at each step, and two requests that take the
same steps agree but for the free bits of a NaN. -/

namespace Sys2Proof.Machine

/-! ### The step functions follow their tables (R141, R142) -/

section Tables
variable {p : Precision} {nan x y : Value}

theorem addFinite_eq (p : Precision) (x y : Value) :
    addFinite p x y = if x.val + y.val = 0 then .zero false else roundTo p (x.val + y.val) false := by
  simp only [addFinite, Exact.add_eq]

/-- Finite operands that are not both zero fall in the last two rows of the table of a sum. -/
theorem sumRule_addFinite (hx : x.isNaN = false ∧ x.isInf = false) (hy : y.isNaN = false ∧ y.isInf = false)
    (notZeros : ¬(x.isZero ∧ y.isZero)) : SumRule p x y (addFinite p x y) := by
  rw [addFinite_eq]
  simp only [SumRule, FirstMatch, hx, hy, notZeros]
  split_ifs with cancels <;> simp [cancels]

theorem sumRule_fadd (quiet : QuietNaN p nan) (x y : Value) : SumRule p x y (fadd p nan x y) := by
  cases x with
  | nan => exact firstMatch_of_holds (.inl rfl) quiet
  | inf s =>
    cases y with
    | nan => exact firstMatch_of_holds (.inr rfl) quiet
    | inf t => by_cases same : s = t <;> simp [SumRule, FirstMatch, Value.isNaN, Value.isInf, fadd, same, quiet]
    | zero | fin => simp [SumRule, FirstMatch, Value.isNaN, Value.isInf, fadd]
  | zero s =>
    cases y with
    | nan => exact firstMatch_of_holds (.inr rfl) quiet
    | inf => simp [SumRule, FirstMatch, Value.isNaN, Value.isInf, fadd]
    | zero t =>
      by_cases same : s = t <;> simp [SumRule, FirstMatch, Value.isNaN, Value.isInf, Value.isZero, fadd, same]
    | fin => exact sumRule_addFinite ⟨rfl, rfl⟩ ⟨rfl, rfl⟩ (by simp [Value.isZero])
  | fin u =>
    cases y with
    | nan => exact firstMatch_of_holds (.inr rfl) quiet
    | inf => simp [SumRule, FirstMatch, Value.isNaN, Value.isInf, fadd]
    | zero | fin => exact sumRule_addFinite ⟨rfl, rfl⟩ ⟨rfl, rfl⟩ (by simp [Value.isZero])

theorem negates_neg (x : Value) : x.Negates (neg x) := by
  cases x <;> rfl

theorem productRule_fmul (quiet : QuietNaN p nan) (x y : Value) : ProductRule p x y (fmul p nan x y) := by
  cases x with
  | nan => exact firstMatch_of_holds (.inl rfl) quiet
  | zero | inf | fin =>
    cases y with
    | nan => exact firstMatch_of_holds (.inr rfl) quiet
    | zero | inf | fin =>
      simp [ProductRule, FirstMatch, Value.isNaN, Value.isInf, Value.isZero, Value.sign, Value.val, fmul, quiet]

theorem quotientRule_fdiv (quiet : QuietNaN p nan) (x y : Value) : QuotientRule p x y (fdiv p nan x y) := by
  cases x with
  | nan => exact firstMatch_of_holds (.inl rfl) quiet
  | zero | inf | fin =>
    cases y with
    | nan => exact firstMatch_of_holds (.inr rfl) quiet
    | zero | inf | fin =>
      simp [QuotientRule, FirstMatch, Value.isNaN, Value.isInf, Value.isZero, Value.sign, Value.val, fdiv, quiet]

end Tables

/-! ### The NaN of a request is not looked at (R118, R144) -/

section Agreement
variable {p : Precision} {nan nan' x x' : Value}

/-- The values are equal, or both are quiet NaNs of the precision. -/
def AgreeButForNaN (p : Precision) (v v' : Value) : Prop := v = v' ∨ QuietNaN p v ∧ QuietNaN p v'

theorem AgreeButForNaN.respondFloat {v v' : Value} (h : AgreeButForNaN p v v') :
    (respondFloat p v).sameButNaN (respondFloat p v') := by
  obtain rfl | ⟨quiet, quiet'⟩ := h
  · exact .inl rfl
  · exact .inr ⟨rfl, rfl, rfl, rfl, rfl, p, rfl, isQuietNaN_encodeValue quiet, isQuietNaN_encodeValue quiet'⟩

theorem addFinite_comm (p : Precision) (x y : Value) : addFinite p x y = addFinite p y x := by
  simp only [addFinite_eq, add_comm]

theorem fadd_comm (p : Precision) (nan x y : Value) : fadd p nan x y = fadd p nan y x := by
  cases x with
  | nan => cases y <;> rfl
  | inf s =>
    cases y with
    | inf t => by_cases same : s = t <;> simp [fadd, same, eq_comm]
    | zero | fin | nan => rfl
  | zero s =>
    cases y with
    | zero t => by_cases same : s = t <;> simp [fadd, same, eq_comm]
    | fin => exact addFinite_comm ..
    | inf | nan => rfl
  | fin =>
    cases y with
    | zero | fin => exact addFinite_comm ..
    | inf | nan => rfl

/-- Which NaN a request returns decides nothing else: a sum is that NaN, or the same value whatever that NaN is. -/
theorem fadd_nan_or_same (p : Precision) (x y : Value) :
    (∀ nan, fadd p nan x y = nan) ∨ ∃ v, ∀ nan, fadd p nan x y = v := by
  cases x with
  | nan => exact .inl fun _ => rfl
  | inf s =>
    cases y with
    | nan => exact .inl fun _ => rfl
    | inf t =>
      by_cases same : s = t
      · exact .inr ⟨.inf s, fun _ => if_pos same⟩
      · exact .inl fun _ => if_neg same
    | zero | fin => exact .inr ⟨_, fun _ => rfl⟩
  | zero | fin =>
    cases y with
    | nan => exact .inl fun _ => rfl
    | zero | inf | fin => exact .inr ⟨_, fun _ => rfl⟩

/-- Sums under two NaNs agree, and so do the sums from two accumulators that agree. -/
theorem fadd_agree (quiet : QuietNaN p nan) (quiet' : QuietNaN p nan') (h : AgreeButForNaN p x x') (y : Value) :
    AgreeButForNaN p (fadd p nan x y) (fadd p nan' x' y) := by
  obtain rfl | ⟨⟨_, _, rfl, -⟩, ⟨_, _, rfl, -⟩⟩ := h
  · obtain isNaN | ⟨v, same⟩ := fadd_nan_or_same p x y
    · exact .inr ⟨(isNaN nan).symm ▸ quiet, (isNaN nan').symm ▸ quiet'⟩
    · exact .inl ((same nan).trans (same nan').symm)
  · exact .inr ⟨quiet, quiet'⟩

end Agreement

/-! ### Two operands (R143, R145, R147, R149) -/

section Binary
variable {s : State} {ta tb : TypeCode} {a b : Pair} {p q : Precision} {x y : Value}

/-- The answer of an operation of format B on operands that can be read. -/
theorem binaryFloat_reads (o : Op) (f : Precision → Value → Value → Value → Value) (hx : Reads ta a p x)
    (hy : Reads tb b q y) :
    binaryFloat o f ta tb a b s =
      .next (s.deliver (respondFloat (promote p q)
        (f (promote p q) (qNaN o (promote p q) [datum p a, datum q b]) x y))) :=
  binaryFloat_answer o f (reads_iff.1 hx).1 (reads_iff.1 hy).1 (reads_iff.1 hx).2 (reads_iff.1 hy).2

end Binary

/-- Settles O33: ADD answers with a sum, SUB with a sum of the first operand and the second negated, and sums follow the
table. -/
theorem addAndSubFollowTheTable : Obligations.AddAndSubFollowTheTable := fun _ _ _ _ _ _ _ x y hx hy =>
  ⟨⟨_, binaryFloat_reads .add fadd hx hy, sumRule_fadd (qNaN_quiet ..) x y⟩,
    ⟨_, neg y, binaryFloat_reads .sub fsub hx hy, negates_neg y, sumRule_fadd (qNaN_quiet ..) x (neg y)⟩⟩

/-- Settles O34: MUL answers with a product and DIV with a quotient, and both follow their tables. -/
theorem mulAndDivFollowTheTables : Obligations.MulAndDivFollowTheTables := fun _ _ _ _ _ _ _ x y hx hy =>
  ⟨⟨_, binaryFloat_reads .mul fmul hx hy, productRule_fmul (qNaN_quiet ..) x y⟩,
    ⟨_, binaryFloat_reads .div fdiv hx hy, quotientRule_fdiv (qNaN_quiet ..) x y⟩⟩

/-- Settles O35: with the operands exchanged the precision is the same, and the sum is the same under another NaN. -/
theorem addCommutesButForNaN : Obligations.AddCommutesButForNaN := by
  intro s ta tb a b p q x y hx hy
  refine ⟨_, _, binaryFloat_reads .add fadd hx hy, binaryFloat_reads .add fadd hy hx, ?_⟩
  rw [promote_comm q p, fadd_comm _ _ y x]
  exact (fadd_agree (qNaN_quiet ..) (qNaN_quiet ..) (.inl rfl) y).respondFloat

/-! ### Three operands (R153) -/

section Ternary
variable {s : State} {ta tb tc : TypeCode} {a b c : Pair} {p q r : Precision} {x y z : Value}

/-- The answer of ADD3 on operands that can be read: two sums, under one NaN. -/
theorem execAdd3_reads (hx : Reads ta a p x) (hy : Reads tb b q y) (hz : Reads tc c r z) :
    execAdd3 ta tb tc a b c s =
      let u := promote (promote p q) r
      let nan := qNaN .add3 u [datum p a, datum q b, datum r c]
      .next (s.deliver (respondFloat u (fadd u nan (fadd u nan x y) z))) := by
  obtain ⟨codeA, valueA⟩ := reads_iff.1 hx
  obtain ⟨codeB, valueB⟩ := reads_iff.1 hy
  obtain ⟨codeC, valueC⟩ := reads_iff.1 hz
  exact execAdd3_answer codeA codeB codeC valueA valueB valueC

end Ternary

/-- Settles O36: both sums are taken at the maximum of the three precisions, and each follows the table. -/
theorem addThreeIsTwoAdditions : Obligations.AddThreeIsTwoAdditions := by
  intro s ta tb tc a b c p q r x y z hx hy hz
  refine ⟨_, _, _, ?_, execAdd3_reads hx hy hz, sumRule_fadd (qNaN_quiet ..) x y, sumRule_fadd (qNaN_quiet ..) _ z⟩
  rw [ordinal_promote, ordinal_promote, max_assoc]

/-! ### A sequence of elements (R158 to R162) -/

section Variadic
variable {s : State} {ta : TypeCode} {a : Pair} {es : List Elem} {p : Precision} {x : Value}
  {ds : List (Precision × Value)}

/-- The elements hold the values at the precisions, in order. -/
def ReadsAll (es : List Elem) (ds : List (Precision × Value)) : Prop :=
  List.Forall₂ (fun e d => Reads e.t e.v d.1 d.2) es ds

/-- The bit pairs of the elements beside the precisions of what they hold. -/
def typedData (es : List Elem) (ds : List (Precision × Value)) : List (Precision × Pair) :=
  List.zipWith (fun e d => (d.1, e.v)) es ds

theorem typedElems_of_reads (h : ReadsAll es ds) : typedElems es = some (typedData es ds) := by
  induction h with
  | nil => rfl
  | cons first _ ih => exact typedElems_cons_eq_some.2 ⟨_, _, (reads_iff.1 first).1, ih, rfl⟩

theorem decodeAll_of_reads (h : ReadsAll es ds) : decodeAll (typedData es ds) = some (ds.map (·.2)) := by
  induction h with
  | nil => rfl
  | cons first _ ih =>
    obtain ⟨-, value⟩ := reads_iff.1 first
    rw [typedData] at ih
    simp [typedData, decodeAll, value, ih]

/-- The working precision is the maximum over the sequence (R158 pass 1). -/
theorem ordinal_maxPrecision (h : ReadsAll es ds) (p : Precision) :
    (maxPrecision p (typedData es ds)).ordinal = ds.foldl (fun k d => max k d.1.ordinal) p.ordinal := by
  induction h generalizing p with
  | nil => rfl
  | cons _ _ ih => exact (ih _).trans (by rw [ordinal_promote, List.foldl_cons])

/-- A fold whose step follows a rule follows the rule step by step (R158 pass 2). -/
theorem foldRule_foldl {rule : Value → Value → Value → Prop} {step : Value → Value → Value}
    (follows : ∀ x y, rule x y (step x y)) (x : Value) (ys : List Value) : FoldRule rule x ys (ys.foldl step x) := by
  induction ys generalizing x with
  | nil => rfl
  | cons y ys ih => exact ⟨step x y, follows x y, ih _⟩

/-- The answer of an operation of format V on a sequence that can be read. -/
theorem variadicFold_reads (o : Op) (step : Precision → Value → Value → Value → Value) (hx : Reads ta a p x)
    (h : ReadsAll es ds) :
    variadicFold o step ta a es s =
      let u := maxPrecision p (typedData es ds)
      let nan := qNaN o u (variadicOperands p a (typedData es ds))
      .next (s.deliver (respondFloat u ((ds.map (·.2)).foldl (step u nan) x))) :=
  variadicFold_answer o step (reads_iff.1 hx).1 (typedElems_of_reads h) (reads_iff.1 hx).2 (decodeAll_of_reads h)

/-- An operand that is given back has its ignored bits cleared, and keeps the others (R107, R160). -/
theorem respondFloat_of_reads (hx : Reads ta a p x) :
    respondFloat p x = ⟨.ok, .float, ta, (a.usedOnly ta).m, (a.usedOnly ta).es⟩ := by
  obtain ⟨code, value⟩ := reads_iff.1 hx
  rw [usedOnly_eq code, ← encodeValue_of_decodeValue value, Precision.ofCode?_eq_some.1 code]
  rfl

/-- Without elements an operation of format V gives the accumulator back (R160). -/
theorem variadicFold_nil (o : Op) (step : Precision → Value → Value → Value → Value) (hx : Reads ta a p x) :
    variadicFold o step ta a [] s =
      .next (s.deliver ⟨.ok, .float, ta, (a.usedOnly ta).m, (a.usedOnly ta).es⟩) := by
  rw [← respondFloat_of_reads hx]
  exact variadicFold_reads o step hx .nil

end Variadic

/-- Settles O37: the fold is taken at the maximum precision, and each step follows its table. -/
theorem variadicRequestsFold : Obligations.VariadicRequestsFold := fun _ _ _ _ p x _ hx hes =>
  ⟨_, ordinal_maxPrecision hes p,
    ⟨_, variadicFold_reads .addmany fadd hx hes, foldRule_foldl (sumRule_fadd (qNaN_quiet ..)) x _⟩,
    ⟨_, variadicFold_reads .mulmany fmul hx hes, foldRule_foldl (productRule_fmul (qNaN_quiet ..)) x _⟩⟩

/-- Settles O38: without elements the accumulator comes back; with one or two, ADDMANY takes the sums of ADD or of ADD3,
under another NaN. -/
theorem shortVariadicRequests : Obligations.ShortVariadicRequests := by
  intro s ta a e f p q r x y z hx hy hz
  have agree {P : Precision} {nan nan' : Value} (quiet : QuietNaN P nan) (quiet' : QuietNaN P nan') :
      AgreeButForNaN P (fadd P nan x y) (fadd P nan' x y) := fadd_agree quiet quiet' (.inl rfl) y
  have one : ReadsAll [e] [(q, y)] := .cons hy .nil
  have two : ReadsAll [e, f] [(q, y), (r, z)] := .cons hy (.cons hz .nil)
  refine ⟨variadicFold_nil .addmany fadd hx, variadicFold_nil .mulmany fmul hx, ?_, ?_⟩
  · refine ⟨_, _, variadicFold_reads .addmany fadd hx one, binaryFloat_reads .add fadd hx hy, ?_⟩
    exact (agree (qNaN_quiet ..) (qNaN_quiet ..)).respondFloat
  · refine ⟨_, _, variadicFold_reads .addmany fadd hx two, execAdd3_reads hx hy hz, ?_⟩
    have quiet (o : Op) (operands : List Operand) := qNaN_quiet o (promote (promote p q) r) operands
    exact (fadd_agree (quiet ..) (quiet ..) (agree (quiet ..) (quiet ..)) z).respondFloat

end Sys2Proof.Machine

/-! The power family, the tables. POW, LOG and EXP are chains of tests in the order of their tables: where a test holds, the
row of the table does, and the NaN that the request returns is quiet. -/

namespace Sys2Proof.Machine

/-! ### Two operands (R178, R179) -/

/-- A result chosen by a test follows a table whose first row is for that test, if it follows the rest of the table where
the test fails. -/
theorem firstMatch_of_ite {test condition result : Prop} [Decidable test] {rest : List (Prop × Prop)} {v a b : Value}
    (chosen : v = if test then a else b) (same : condition ↔ test) (hit : v = a → result)
    (miss : ¬test → v = b → FirstMatch rest) : FirstMatch ((condition, result) :: rest) := by
  by_cases h : test
  · exact firstMatch_of_holds (same.2 h) (hit (chosen.trans (if_pos h)))
  · exact firstMatch_of_fails (mt same.1 h) (miss h (chosen.trans (if_neg h)))

/-- The same for a row that says which value the result is. -/
theorem firstMatch_of_row {test : Prop} [Decidable test] {rest : List (Prop × Prop)} {v a b : Value}
    (chosen : v = if test then a else b) (miss : ¬test → v = b → FirstMatch rest) :
    FirstMatch ((test, v = a) :: rest) :=
  firstMatch_of_ite chosen .rfl id miss

/-- The two tests for a negative number differ at minus infinity alone, which has no real value. -/
theorem val_neg_iff {x : Value} (finite : x ≠ .inf true) : x.val < 0 ↔ x.isBelowZero = true := by
  cases x with
  | fin => simp [Value.val, Value.isBelowZero]
  | zero | nan => simp [Value.val, Value.isBelowZero]
  | inf s =>
    cases s
    · simp [Value.val, Value.isBelowZero]
    · contradiction

theorem powerRule_fpow {p : Precision} {nan : Value} (quiet : QuietNaN p nan) (x y : Value) :
    PowerRule p x y (fpow p nan x y) := by
  generalize chosen : fpow p nan x y = v
  rw [fpow, eq_comm] at chosen
  simp only [PowerRule, Value.signalling_iff, Value.below_iff, Value.oddInteger_iff, Value.insideUnit_iff,
    Value.integer_iff]
  -- Cases 1 and 2, and case 3, where the choice is open.
  iterate 2 refine firstMatch_of_row chosen fun _ chosen => ?_
  refine firstMatch_of_ite chosen (by tauto) ?_ fun _ chosen => ?_
  · rintro rfl
    split_ifs
    · exact .inl rfl
    · exact .inr quiet
  -- Case 4, the NaN, and cases 5 to 20, each with its value; case 18 leaves no minus infinity for case 21.
  refine firstMatch_of_ite chosen .rfl (fun result => result ▸ quiet) fun _ chosen => ?_
  iterate 13 refine firstMatch_of_row chosen fun _ chosen => ?_
  refine firstMatch_of_row chosen fun notMinusInf chosen => ?_
  iterate 2 refine firstMatch_of_row chosen fun _ chosen => ?_
  refine firstMatch_of_ite chosen (and_congr_left' (val_neg_iff notMinusInf)) (fun result => result ▸ quiet)
    fun _ chosen => ?_
  exact firstMatch_of_holds trivial chosen

/-- Settles O41: the tests of POW are the conditions of the rule, in the same order. -/
theorem powFollowsItsCases : Obligations.PowFollowsItsCases := fun _ _ _ _ _ _ _ x y hx hy =>
  ⟨_, binaryFloat_reads .pow fpow hx hy, powerRule_fpow (qNaN_quiet ..) x y⟩

/-! ### One operand (R181, R183) -/

section Unary
variable {s : State} {ta : TypeCode} {a : Pair} {p : Precision} {nan x : Value}

/-- The answer of an operation of format U on an operand that can be read. -/
theorem unaryFloat_reads (o : Op) (f : Precision → Value → Value → Value) (hx : Reads ta a p x) :
    unaryFloat o f ta a s = .next (s.deliver (respondFloat p (f p (qNaN o p [datum p a]) x))) :=
  unaryFloat_answer o f (reads_iff.1 hx).1 (reads_iff.1 hx).2

/-- The table of LOG (R181). -/
def LogRule (p : Precision) (x v : Value) : Prop :=
  FirstMatch [
    (x.isNaN, QuietNaN p v),
    (x.isZero, v = .inf true),
    (x = .fin 1, v = .zero false),
    (x.val < 0, QuietNaN p v),
    (x = .inf true, QuietNaN p v),
    (x = .inf false, v = .inf false),
    (True, v = transValue p (Config.transLog p x))]

theorem logRule_flog (quiet : QuietNaN p nan) (x : Value) : LogRule p x (flog p nan x) := by
  cases x with
  | nan => exact firstMatch_of_holds rfl quiet
  | zero => simp [LogRule, FirstMatch, flog, Value.isNaN, Value.isZero]
  | inf t => cases t <;> simp [LogRule, FirstMatch, flog, Value.isNaN, Value.isZero, Value.val, quiet]
  | fin u =>
    generalize chosen : flog p nan (.fin u) = v
    rw [flog, eq_comm] at chosen
    refine firstMatch_of_fails Bool.false_ne_true (firstMatch_of_fails Bool.false_ne_true ?_)
    refine firstMatch_of_ite chosen (iff_of_eq (Value.fin.injEq ..)) id fun _ chosen => ?_
    refine firstMatch_of_ite chosen .rfl (fun result => result ▸ quiet) fun _ chosen => ?_
    simpa [FirstMatch] using chosen

/-- The table of EXP (R183). -/
def ExpRule (p : Precision) (x v : Value) : Prop :=
  FirstMatch [
    (x.isNaN, QuietNaN p v),
    (x.isZero, v = .fin 1),
    (x = .inf true, v = .zero false),
    (x = .inf false, v = .inf false),
    (True, v = transValue p (Config.transExp p x))]

theorem expRule_fexp (quiet : QuietNaN p nan) (x : Value) : ExpRule p x (fexp p nan x) := by
  cases x with
  | nan => exact firstMatch_of_holds rfl quiet
  | zero | fin => simp [ExpRule, FirstMatch, fexp, Value.isNaN, Value.isZero]
  | inf t => cases t <;> simp [ExpRule, FirstMatch, fexp, Value.isNaN, Value.isZero]

end Unary

/-- Settles O42: each function follows its table. -/
theorem logAndExpFollowTheirCases : Obligations.LogAndExpFollowTheirCases := fun _ _ _ _ x hx =>
  ⟨⟨_, unaryFloat_reads .log flog hx, logRule_flog (qNaN_quiet ..) x⟩,
    ⟨_, unaryFloat_reads .exp fexp hx, expRule_fexp (qNaN_quiet ..) x⟩⟩

end Sys2Proof.Machine

/-! The power family, the integer power. The loop of POWI multiplies by the rule of a product, a number of the format is its
own rounding, and the magnitudes of the loop stay on one side of 1, so that no infinity meets a zero there. -/

namespace Sys2Proof.Machine

/-! ### The loop (R172) -/

section Loop
variable {p : Precision} {nan : Value}

@[simp] theorem powiLoop_zero (K : ℕ) (b r : Value) : powiLoop p nan K 0 b r = r := by
  cases K with
  | zero => rfl
  | succ K => exact if_pos rfl

/-- A round with a bit left to read. -/
theorem powiLoop_succ {n : ℕ} (K : ℕ) (nonzero : n ≠ 0) (b r : Value) :
    powiLoop p nan (K + 1) n b r =
      powiLoop p nan K (n / 2) (if n / 2 = 0 then b else fmul p nan b b) (if n % 2 = 1 then fmul p nan r b else r) :=
  if_neg nonzero

/-- The loop needs as many rounds as the exponent has bits (R172). -/
theorem squaringRule_powiLoop (quiet : QuietNaN p nan) {k K n : ℕ} (bits : n < 2 ^ k) (enough : k ≤ K) (b r : Value) :
    SquaringRule p k n b r (powiLoop p nan K n b r) := by
  induction k generalizing K n b r with
  | zero =>
    obtain rfl : n = 0 := Nat.lt_one_iff.1 bits
    exact ⟨rfl, powiLoop_zero ..⟩
  | succ k ih =>
    rcases eq_or_ne n 0 with rfl | nonzero
    · exact .inl ⟨rfl, powiLoop_zero ..⟩
    obtain ⟨K, rfl⟩ := Nat.exists_eq_add_of_le' enough
    rw [show K + (k + 1) = K + k + 1 from rfl, powiLoop_succ _ nonzero]
    have half : n / 2 < 2 ^ k := by rw [pow_succ] at bits; omega
    refine .inr ⟨nonzero, _, _, ?_, ?_, ih half (Nat.le_add_left k K) _ _⟩
    · split_ifs with odd
      · exact .inl ⟨odd, productRule_fmul quiet r b⟩
      · exact .inr ⟨by omega, rfl⟩
    · split_ifs with last
      · exact .inl last
      · exact .inr (productRule_fmul quiet b b)

end Loop

/-- An exponent that is not negative has 63 bits (R170). -/
theorem toNat_toInt_lt {n : Word} : n.toInt.toNat < 2 ^ 63 := by
  have := BitVec.toInt_lt (x := n)
  omega

/-- The answer of POWI on a base that can be read. -/
theorem execPowi_reads {s : State} {ta : TypeCode} {a : Pair} {n : Word} {p : Precision} {x : Value}
    (hx : Reads ta a p x) (hn : 0 ≤ n.toInt) :
    execPowi ta a n s =
      .next (s.deliver (respondFloat p (fpowi p (qNaN .powi p [datum p a, .int n]) x n.toInt.toNat))) :=
  execPowi_answer (reads_iff.1 hx).1 (not_lt.2 hn) (reads_iff.1 hx).2

/-- Settles O39: the loop follows the rule, and an exponent of 63 bits takes at most 63 of its 64 rounds. -/
theorem powiSquaresAndCollects : Obligations.PowiSquaresAndCollects := fun _ _ _ _ _ x hx hn =>
  ⟨_, execPowi_reads hx hn, squaringRule_powiLoop (qNaN_quiet ..) toNat_toInt_lt (by decide) x (.fin 1)⟩

/-! ### A number of the format is its own rounding (R113) -/

section Representable
variable {p : Precision} {x : ℚ}

/-- The magnitude of a representable number as a significand on a quantum of the format (R106). -/
theorem abs_of_representable (h : Representable p x) :
    ∃ (n : ℕ) (q : ℤ), |x| = n * 2 ^ q ∧ 0 < n ∧ n < 2 ^ p.prec ∧ p.emin - (p.prec - 1) ≤ q ∧
      q ≤ p.emax - (p.prec - 1) := by
  obtain ⟨s, n, q, rfl, row⟩ := h
  have positive : 0 < 2 ^ (p.prec - 1) := by positivity
  have half : 2 ^ (p.prec - 1) ≤ 2 ^ p.prec := Nat.pow_le_pow_right two_pos (Nat.sub_le ..)
  have range := emin_lt_emax p
  refine ⟨n, q, ?_, by omega, by omega, by omega, by omega⟩
  rw [abs_mul, abs_mul, abs_of_pos (show (0 : ℚ) < 2 ^ q by positivity), Nat.abs_cast]
  cases s <;> simp

theorem ne_zero_of_representable (h : Representable p x) : x ≠ 0 := by
  obtain ⟨n, q, magnitude, pos, -⟩ := abs_of_representable h
  rw [← abs_pos, magnitude]
  positivity

theorem abs_lt_of_representable (h : Representable p x) : |x| < 2 ^ (p.emax + 1) := by
  obtain ⟨n, q, magnitude, -, upper, -, greatest⟩ := abs_of_representable h
  calc |x| = n * 2 ^ q := magnitude
    _ < 2 ^ p.prec * 2 ^ q := by gcongr; exact_mod_cast upper
    _ = 2 ^ (p.prec + q) := two_pow_mul_zpow rfl
    _ ≤ 2 ^ (p.emax + 1) := zpow_le_zpow_right₀ one_le_two (by omega)

theorem representable_one (p : Precision) : Representable p 1 := by
  refine ⟨false, 2 ^ (p.prec - 1), -(p.prec - 1 : ℕ), by simp, .inl ⟨le_rfl, ?_, ?_⟩⟩
  · exact Nat.pow_lt_pow_right one_lt_two (Nat.sub_lt p.prec_pos one_pos)
  · cases p <;> decide

/-- Rounding takes a number of the format to itself, since none is nearer. -/
theorem roundTo_of_representable (s0 : Bool) (h : Representable p x) : roundTo p x s0 = .fin x := by
  have nonzero := ne_zero_of_representable h
  have same : roundedValue p x = x := by
    have nearest := (roundedValue_nearest nonzero (.inr h)).1
    rw [sub_self, abs_zero] at nearest
    exact (sub_eq_zero.1 (abs_nonpos_iff.1 nearest)).symm
  rw [roundTo_of_finite nonzero (same.symm ▸ abs_lt_of_representable h) (same.symm ▸ nonzero), same]

end Representable

/-! ### Exponent 1, and a NaN as base (R173) -/

section Base
variable {p : Precision} {nan b r x : Value}

/-- The product of 1 and a value of the format is that value. -/
theorem one_fmul (encodable : x.Encodable p) (number : x.isNaN = false) : fmul p nan (.fin 1) x = x := by
  cases x with
  | nan => contradiction
  | zero | inf =>
    have positive : ¬(1 : ℚ) < 0 := not_lt.2 zero_le_one
    simp [fmul, Value.sign, positive]
  | fin u =>
    rw [fmul, Exact.mul_eq, one_mul]
    exact roundTo_of_representable _ encodable

theorem fmul_of_isNaN (isNaN : x.isNaN = true) (r : Value) : fmul p nan r x = nan := by
  cases x with
  | nan => cases r <;> rfl
  | zero | inf | fin => contradiction

theorem powiLoop_one (K : ℕ) (b r : Value) : powiLoop p nan (K + 1) 1 b r = fmul p nan r b := by
  rw [powiLoop_succ K one_ne_zero]
  exact powiLoop_zero ..

/-- With a NaN as base the last round, whose bit is set, gives the NaN of the request. -/
theorem powiLoop_of_isNaN (quiet : nan.isNaN = true) {K n : ℕ} (nonzero : n ≠ 0) (bits : n < 2 ^ K)
    (isNaN : b.isNaN = true) (r : Value) : powiLoop p nan K n b r = nan := by
  induction K generalizing n b r with
  | zero => exact absurd (Nat.lt_one_iff.1 bits) nonzero
  | succ K ih =>
    rcases eq_or_ne (n / 2) 0 with last | more
    · obtain rfl : n = 1 := by omega
      rw [powiLoop_one, fmul_of_isNaN isNaN]
    · rw [powiLoop_succ K nonzero, if_neg more, fmul_of_isNaN isNaN]
      exact ih more (by rw [pow_succ] at bits; omega) quiet _

theorem QuietNaN.isNaN {v : Value} (h : QuietNaN p v) : v.isNaN = true := by
  obtain ⟨_, _, rfl, -⟩ := h
  rfl

end Base

/-! ### The sign (R173) -/

section Sign
variable {p : Precision} {nan x y : Value}

theorem sign_roundTo {u : ℚ} (s0 : Bool) (h : u ≠ 0) : (roundTo p u s0).sign = decide (u < 0) := by
  have nonneg : 0 ≤ roundedMagnitude p |u| := by rw [roundedMagnitude_eq]; positivity
  obtain ⟨-, result⟩ | ⟨-, -, result⟩ | ⟨-, nonzero, result⟩ := roundTo_cases (p := p) (s0 := s0) h
  · rw [result]; rfl
  · rw [result]; rfl
  · rw [result]
    generalize roundedMagnitude p |u| = m at nonneg nonzero
    have positive : 0 < m := lt_of_le_of_ne nonneg nonzero.symm
    split_ifs with negative <;> simp [Value.sign, negative, positive, nonneg]

/-- A product of numbers that are not 0 is negative when just one of them is. -/
theorem decide_mul_neg {u w : ℚ} (hu : u ≠ 0) (hw : w ≠ 0) :
    decide (u * w < 0) = (decide (u < 0) != decide (w < 0)) := by
  rcases hu.lt_or_gt with hu | hu <;> rcases hw.lt_or_gt with hw | hw <;>
    simp [mul_neg_iff, hu, hw, hu.not_gt, hw.not_gt]

/-- The sign of a product is the product of the signs, unless it is a NaN (R142). -/
theorem sign_fmul (isNaN : nan.isNaN = true) (number : (fmul p nan x y).isNaN = false) :
    (fmul p nan x y).sign = (x.sign ^^ y.sign) := by
  have invalid : ¬nan.isNaN = false := by simp [isNaN]
  cases x with
  | nan => exact absurd number invalid
  | zero =>
    cases y with
    | inf | nan => exact absurd number invalid
    | zero | fin => rfl
  | inf =>
    cases y with
    | zero | nan => exact absurd number invalid
    | inf | fin => rfl
  | fin u =>
    cases y with
    | nan => exact absurd number invalid
    | zero | inf => rfl
    | fin w =>
      rw [fmul, Exact.mul_eq]
      rcases eq_or_ne (u * w) 0 with none | nonzero
      · rw [none, roundTo_zero]
        rfl
      · obtain ⟨hu, hw⟩ := mul_ne_zero_iff.1 nonzero
        rw [sign_roundTo _ nonzero, decide_mul_neg hu hw]
        rfl

/-- A class of values that products do not leave. -/
def ClosedUnderProducts (p : Precision) (nan : Value) (C : Value → Prop) : Prop :=
  ∀ x y, C x → C y → C (fmul p nan x y)

/-- The loop does not leave such a class of numbers, and its result is negative when the exponent is odd and the base
negative, if the product collected so far was not. -/
theorem powiLoop_of_closed {C : Value → Prop} (closed : ClosedUnderProducts p nan C)
    (numbers : ∀ x, C x → x.isNaN = false) (isNaN : nan.isNaN = true) {K n : ℕ} (bits : n < 2 ^ K) {b r : Value}
    (hb : C b) (hr : C r) :
    C (powiLoop p nan K n b r) ∧
      (powiLoop p nan K n b r).sign = (r.sign ^^ (b.sign && decide (n % 2 = 1))) := by
  have sign {x y : Value} (hx : C x) (hy : C y) : (fmul p nan x y).sign = (x.sign ^^ y.sign) :=
    sign_fmul isNaN (numbers _ (closed x y hx hy))
  induction K generalizing n b r with
  | zero =>
    obtain rfl : n = 0 := Nat.lt_one_iff.1 bits
    exact ⟨hr, by simp⟩
  | succ K ih =>
    rcases eq_or_ne n 0 with rfl | nonzero
    · exact ⟨hr, by simp⟩
    have half : n / 2 < 2 ^ K := by rw [pow_succ] at bits; omega
    have collected : C (if n % 2 = 1 then fmul p nan r b else r) ∧
        (if n % 2 = 1 then fmul p nan r b else r).sign = (r.sign ^^ (b.sign && decide (n % 2 = 1))) := by
      split_ifs with odd
      · exact ⟨closed r b hr hb, by simp [odd, sign hr hb]⟩
      · exact ⟨hr, by simp [odd]⟩
    obtain ⟨member, collected⟩ := collected
    rw [powiLoop_succ K nonzero]
    rcases eq_or_ne (n / 2) 0 with last | more
    · rw [last, powiLoop_zero]
      exact ⟨member, collected⟩
    · obtain ⟨member', result⟩ := ih half (closed b b hb hb) member
      rw [if_neg more]
      refine ⟨member', ?_⟩
      rw [result, collected, sign hb hb, Bool.xor_self, Bool.false_and, Bool.xor_false]

end Sign

/-! ### Both sides of 1 -/

section Sides
variable {p : Precision} {nan x y : Value} {u : ℚ}

/-- A zero, or a number that is not 0 and whose magnitude is at most 1. -/
def WithinOne : Value → Prop
  | .zero _ => True
  | .fin u => u ≠ 0 ∧ |u| ≤ 1
  | .inf _ | .nan .. => False

/-- An infinity, or a number whose magnitude is at least 1. -/
def BeyondOne : Value → Prop
  | .inf _ => True
  | .fin u => 1 ≤ |u|
  | .zero _ | .nan .. => False

/-- Rounding does not cross 1, which is a number of the format. -/
theorem abs_roundedValue_near_one (p : Precision) (h : u ≠ 0) : abs (|u| - |roundedValue p u|) ≤ abs (|u| - 1) := by
  have nearest := (roundedMagnitude_nearest (abs_pos.2 h) (.inr (representable_one p))).1
  rwa [← abs_roundedValue, abs_one] at nearest

theorem withinOne_roundTo (s0 : Bool) (h : u ≠ 0) (within : |u| ≤ 1) : WithinOne (roundTo p u s0) := by
  have near := abs_roundedValue_near_one p h
  rw [abs_of_nonpos (sub_nonpos.2 within)] at near
  have side : |roundedValue p u| ≤ 1 := by linarith [neg_le_abs (|u| - |roundedValue p u|)]
  have finite : |roundedValue p u| < 2 ^ (p.emax + 1) :=
    (side.trans_eq abs_one.symm).trans_lt (abs_lt_of_representable (representable_one p))
  rcases eq_or_ne (roundedValue p u) 0 with none | nonzero
  · rw [roundTo_of_underflow h none]
    trivial
  · rw [roundTo_of_finite h finite nonzero]
    exact ⟨nonzero, side⟩

theorem beyondOne_roundTo (s0 : Bool) (beyond : 1 ≤ |u|) : BeyondOne (roundTo p u s0) := by
  have h : u ≠ 0 := abs_pos.1 (one_pos.trans_le beyond)
  have near := abs_roundedValue_near_one p h
  rw [abs_of_nonneg (sub_nonneg.2 beyond)] at near
  have side : 1 ≤ |roundedValue p u| := by linarith [le_abs_self (|u| - |roundedValue p u|)]
  rcases le_or_gt (2 ^ (p.emax + 1)) |roundedValue p u| with overflow | finite
  · rw [roundTo_of_overflow h overflow]
    trivial
  · rw [roundTo_of_finite h finite (abs_pos.1 (one_pos.trans_le side))]
    exact side

theorem closed_withinOne (p : Precision) (nan : Value) : ClosedUnderProducts p nan WithinOne := by
  intro x y hx hy
  cases x with
  | inf | nan => contradiction
  | zero =>
    cases y with
    | inf | nan => contradiction
    | zero | fin => trivial
  | fin u =>
    cases y with
    | inf | nan => contradiction
    | zero => trivial
    | fin w =>
      obtain ⟨hu, hu'⟩ := hx
      obtain ⟨hw, hw'⟩ := hy
      rw [fmul, Exact.mul_eq]
      refine withinOne_roundTo _ (mul_ne_zero hu hw) ?_
      rw [abs_mul]
      exact mul_le_one₀ hu' (abs_nonneg w) hw'

theorem closed_beyondOne (p : Precision) (nan : Value) : ClosedUnderProducts p nan BeyondOne := by
  intro x y hx hy
  cases x with
  | zero | nan => contradiction
  | inf =>
    cases y with
    | zero | nan => contradiction
    | inf | fin => trivial
  | fin u =>
    cases y with
    | zero | nan => contradiction
    | inf => trivial
    | fin w =>
      rw [fmul, Exact.mul_eq]
      refine beyondOne_roundTo _ ?_
      rw [abs_mul]
      exact one_le_mul_of_one_le_of_one_le hx hy

theorem withinOne_number (h : WithinOne x) : x.isNaN = false := by
  cases x with
  | nan => contradiction
  | zero | inf | fin => rfl

theorem beyondOne_number (h : BeyondOne x) : x.isNaN = false := by
  cases x with
  | nan => contradiction
  | zero | inf | fin => rfl

theorem within_or_beyond (encodable : x.Encodable p) (number : x.isNaN = false) : WithinOne x ∨ BeyondOne x := by
  cases x with
  | nan => contradiction
  | zero => exact .inl trivial
  | inf => exact .inr trivial
  | fin u => exact (le_total |u| 1).imp (fun h => ⟨ne_zero_of_representable encodable, h⟩) id

/-- The power of a number is a number, negative when the base is and the exponent is odd (R173). -/
theorem fpowi_number (isNaN : nan.isNaN = true) {n : ℕ} (bits : n < 2 ^ 64) (encodable : x.Encodable p)
    (number : x.isNaN = false) :
    (fpowi p nan x n).isNaN = false ∧ (fpowi p nan x n).sign = (x.sign && decide (n % 2 = 1)) := by
  have positive : (Value.fin 1).sign = false := decide_eq_false (not_lt.2 (zero_le_one' ℚ))
  obtain within | beyond := within_or_beyond encodable number
  · have one : WithinOne (.fin 1) := ⟨one_ne_zero, abs_one.le⟩
    obtain ⟨member, sign⟩ :=
      powiLoop_of_closed (closed_withinOne p nan) (fun _ => withinOne_number) isNaN bits within one
    exact ⟨withinOne_number member, by rw [fpowi, sign, positive, Bool.false_xor]⟩
  · have one : BeyondOne (.fin 1) := abs_one.ge
    obtain ⟨member, sign⟩ :=
      powiLoop_of_closed (closed_beyondOne p nan) (fun _ => beyondOne_number) isNaN bits beyond one
    exact ⟨beyondOne_number member, by rw [fpowi, sign, positive, Bool.false_xor]⟩

end Sides

/-- Settles O40: the loop starts from 1; a NaN is taken by the last round; the squares and the product collected stay on
the side of 1 where the base is. -/
theorem powiConsequences : Obligations.PowiConsequences := by
  intro s ta a n p x hx hn
  have encodable := decodedValuesAreEncodable p a x (reads_iff.1 hx).2
  have quiet : QuietNaN p (qNaN .powi p [datum p a, .int n]) := qNaN_quiet ..
  have bits : n.toInt.toNat < 2 ^ 64 := toNat_toInt_lt.trans (by decide)
  refine ⟨_, execPowi_reads hx hn, fun none => ?_, fun one number => ?_, fun pos isNaN => ?_, fun pos number => ?_⟩
  · rw [none]
    rfl
  · rw [one]
    exact (powiLoop_one 63 x _).trans (one_fmul encodable number)
  · rw [fpowi, powiLoop_of_isNaN quiet.isNaN (by omega) bits isNaN]
    exact quiet
  · obtain ⟨result, sign⟩ := fpowi_number quiet.isNaN bits encodable number
    refine ⟨result, ?_⟩
    rw [sign, Bool.and_eq_true, decide_eq_true_iff]
    exact and_congr_right' (by omega)

end Sys2Proof.Machine

/-! The power family, the open values. Setting the integer bit of raw bits makes a pair that decodes, and setting the quiet
bit of a NaN keeps its value encodable; on the encoding of a value that TRANS may give, both change nothing. -/

namespace Sys2Proof.Machine

section Open
variable {p : Precision} {b : Pair} {v : Value}

/-- A pair is canonical when its integer bit is set exactly for an exponent field that is not zero (R104). -/
theorem canonical_iff : b.nonCanonical = false ↔ b.m.getLsbD 63 = (b.es.extractLsb' 0 15 != 0#15) := by
  have field : (b.es.extractLsb' 0 15 != 0#15) = decide ((b.es.extractLsb' 0 15).toNat ≠ 0) := by
    rw [Bool.eq_iff_iff, bne_iff_ne, decide_eq_true_iff, Ne, ← BitVec.toNat_inj]
    rfl
  have fit := (b.es.extractLsb' 0 15).isLt
  rw [field, Pair.nonCanonical]
  generalize (b.es.extractLsb' 0 15).toNat = e at fit
  rcases Nat.eq_zero_or_pos e with rfl | pos
  · simp
  · cases b.m.getLsbD 63 with
    | false => simp; omega
    | true => simp [pos.ne']

/-- The integer bit above the other bits of the significand. -/
theorem getLsbD_integerBit (j : Bool) (g : BitVec 63) : (BitVec.ofBool j ++ g).getLsbD 63 = j := by
  rw [BitVec.getLsbD_append]
  simp

theorem integerBit_append (m : Word) : BitVec.ofBool (m.getLsbD 63) ++ m.extractLsb' 0 63 = m := by
  ext i hi; simp; grind

theorem decodeValue_forceCanonical (p : Precision) (b : Pair) : ∃ v, decodeValue p (forceCanonical p b) = some v := by
  rw [← Option.ne_none_iff_exists', Ne, decodeValue_eq_none]
  rintro ⟨rfl, nonCanonical⟩
  have canonical : (forceCanonical .extended b).nonCanonical = false := canonical_iff.2 (getLsbD_integerBit ..)
  simp [canonical] at nonCanonical

/-- A pair that has a value is left as it is. -/
theorem forceCanonical_of_decodeValue (h : decodeValue p b = some v) : forceCanonical p b = b := by
  cases p with
  | single | double => rfl
  | extended =>
    have canonical : b.nonCanonical = false := by
      by_contra nonCanonical
      have none := (decodeValue_eq_none .extended b).2 ⟨rfl, Bool.not_eq_false _ ▸ nonCanonical⟩
      simp [none] at h
    rw [forceCanonical, ← canonical_iff.1 canonical, integerBit_append]

/-- The value of raw bits is the value that the canonical pair denotes, a NaN made quiet. -/
theorem transValue_eq (h : decodeValue p (forceCanonical p b) = some v) : transValue p b = quieten p v := by
  rw [transValue, h, Option.getD_some]

theorem encodable_quieten (h : v.Encodable p) : (quieten p v).Encodable p := by
  cases v with
  | zero | inf | fin => exact h
  | nan s q pl =>
    obtain ⟨pos, fit, -⟩ := h
    have quietBit : 2 ^ (p.fracBits - 1) < 2 ^ p.fracBits := by cases p <;> decide
    refine ⟨pos.trans_le Nat.left_le_or, Nat.or_lt_two_pow fit quietBit, ?_⟩
    rw [Nat.testBit_or, Nat.testBit_two_pow_self, Bool.or_true]

theorem not_signalling_quieten (p : Precision) (v : Value) : ¬(quieten p v).Signalling := by
  cases v <;> simp [quieten, Value.Signalling]

/-- Setting a bit that is set changes nothing. -/
theorem or_two_pow_of_testBit {n i : ℕ} (h : n.testBit i = true) : n ||| 2 ^ i = n := by
  apply Nat.eq_of_testBit_eq
  intro j
  rw [Nat.testBit_or, Nat.testBit_two_pow]
  rcases eq_or_ne i j with rfl | other
  · simp [h]
  · simp [other]

/-- A NaN whose quiet bit is set is left as it is. -/
theorem quieten_of_not_signalling (h : v.Encodable p) (quiet : ¬v.Signalling) : quieten p v = v := by
  cases v with
  | zero | inf | fin => rfl
  | nan s q pl =>
    obtain ⟨-, -, bit⟩ := h
    cases q with
    | false => exact absurd ⟨s, pl, rfl⟩ quiet
    | true => rw [quieten, or_two_pow_of_testBit bit.symm]

end Open

/-- Settles O32: whatever the raw bits, the value is that of a canonical pair made quiet; and the encoding of a value comes
back as that value. -/
theorem transResultsAreEncodable : Obligations.TransResultsAreEncodable := by
  refine ⟨fun p raw => ?_, fun p v encodable quiet => ⟨encodeValue p v, ?_⟩⟩
  · obtain ⟨v, decoded⟩ := decodeValue_forceCanonical p raw
    rw [transValue_eq decoded]
    exact ⟨encodable_quieten (decodedValuesAreEncodable _ _ _ decoded), not_signalling_quieten p v⟩
  · have decoded := decodeValue_encodeValue encodable
    rw [transValue_eq (v := v) (by rw [forceCanonical_of_decodeValue decoded, decoded]),
      quieten_of_not_signalling encodable quiet]

end Sys2Proof.Machine

/-! The power family, the square root. The scaled operand is an integer, and no integer has a root halfway between two
integers: so the digits are the one integer nearest to the root, and every other number of the format is further away. -/

namespace Sys2Proof.Machine

/-! ### The nearest integer to the root of an integer -/

/-- Between `n * (n - 1)` and `n * (n + 1)` the root is less than a half away from `n`. -/
theorem sqrt_near {m n : ℕ} (lower : n ^ 2 < m + n) (upper : m ≤ n ^ 2 + n) : |√(m : ℝ) - n| < 1 / 2 := by
  have lower : (n : ℝ) ^ 2 + 1 ≤ m + n := by exact_mod_cast lower
  have upper : (m : ℝ) ≤ n ^ 2 + n := by exact_mod_cast upper
  have below : (n : ℝ) - 1 / 2 < √m := Real.lt_sqrt_of_sq_lt (by linarith [sub_sq (n : ℝ) (1 / 2)])
  have above : √(m : ℝ) < n + 1 / 2 := (Real.sqrt_lt' (by positivity)).2 (by linarith [add_sq (n : ℝ) (1 / 2)])
  rw [abs_lt]
  constructor <;> linarith

/-- There the root does not pass an integer that bounds it. -/
theorem range_of_near {m n k l : ℕ} (lower : n ^ 2 < m + n) (upper : m ≤ n ^ 2 + n) (least : k ^ 2 ≤ m)
    (greatest : m < l ^ 2) : k ≤ n ∧ n ≤ l := by
  constructor
  · by_contra! less
    have := Nat.pow_le_pow_left (Nat.succ_le_of_lt less) 2
    rw [Nat.succ_eq_add_one, add_sq, mul_one, one_pow] at this
    omega
  · by_contra! more
    obtain ⟨n, rfl⟩ := Nat.exists_eq_succ_of_ne_zero more.ne_bot
    have := Nat.pow_le_pow_left (Nat.le_of_lt_succ more) 2
    rw [Nat.succ_eq_add_one, add_sq, mul_one, one_pow] at lower
    omega

/-- Every other integer is further away. -/
theorem lt_of_near {r : ℝ} {n j : ℕ} (near : |r - n| < 1 / 2) (other : j ≠ n) : |r - n| < |r - j| := by
  have apart : (1 : ℝ) ≤ |(j : ℝ) - n| := by
    exact_mod_cast Int.one_le_abs (sub_ne_zero.2 (Nat.cast_injective.ne other : (j : ℤ) ≠ n))
  have triangle : |(j : ℝ) - n| ≤ |r - j| + |r - n| := by
    rw [abs_sub_comm r j]
    exact abs_sub_le _ r _
  linarith

/-! ### The exponent and the scaled operand (R187) -/

section Root
variable {p : Precision} {u : ℚ}

/-- The exponent is that of the root: the root lies between its power of two and the next. -/
theorem sqrtExponent_spec (h : 0 < u) :
    ((2 : ℚ) ^ sqrtExponent u) ^ 2 ≤ u ∧ u < (2 ^ (sqrtExponent u + 1)) ^ 2 := by
  obtain ⟨lower, upper⟩ := Exact.floorLog2_spec h
  have square (k : ℤ) : ((2 : ℚ) ^ k) ^ 2 = 2 ^ (k * 2) := by rw [zpow_mul]; rfl
  rw [square, square]
  unfold sqrtExponent
  exact ⟨(zpow_le_zpow_right₀ one_le_two (by omega)).trans lower,
    upper.trans_le (zpow_le_zpow_right₀ one_le_two (by omega))⟩

/-- The power of the exponent, counted in units of the last digit. -/
theorem two_pow_mul_sqrtUnit (p : Precision) (u : ℚ) :
    (2 : ℚ) ^ (p.prec - 1) * sqrtUnit p u = 2 ^ sqrtExponent u := by
  have := p.prec_pos
  exact two_pow_mul_zpow (by omega)

/-- The power above it, counted in the same units. -/
theorem two_pow_prec_mul_sqrtUnit (p : Precision) (u : ℚ) :
    (2 : ℚ) ^ p.prec * sqrtUnit p u = 2 ^ (sqrtExponent u + 1) :=
  two_pow_mul_zpow (by omega)

/-- The binary exponent of a positive number of the format, from those of its quantum and its significand. -/
theorem floorLog2_range (h : Representable p u) (pos : 0 < u) :
    ∃ (n : ℕ) (q : ℤ), u = n * 2 ^ q ∧ Exact.floorLog2 u < p.prec + q ∧ q ≤ Exact.floorLog2 u ∧
      p.emin - (p.prec - 1) ≤ q ∧ q ≤ p.emax - (p.prec - 1) := by
  obtain ⟨n, q, magnitude, nonzero, upper, least, greatest⟩ := abs_of_representable h
  rw [abs_of_pos pos] at magnitude
  obtain ⟨lower', upper'⟩ := Exact.floorLog2_spec pos
  have below : u < 2 ^ (p.prec + q : ℤ) := by
    rw [magnitude, ← two_pow_mul_zpow rfl]
    gcongr
    exact_mod_cast upper
  have above : (2 : ℚ) ^ q ≤ u := by
    rw [magnitude]
    exact le_mul_of_one_le_left (by positivity) (by exact_mod_cast nonzero)
  have least' := (zpow_lt_zpow_iff_right₀ (one_lt_two (α := ℚ))).1 (lower'.trans_lt below)
  have greatest' := (zpow_lt_zpow_iff_right₀ (one_lt_two (α := ℚ))).1 (above.trans_lt upper')
  exact ⟨n, q, magnitude, least', Int.lt_add_one_iff.1 greatest', least, greatest⟩

theorem sqrtExponent_range (h : Representable p u) (pos : 0 < u) :
    p.emin ≤ sqrtExponent u ∧ sqrtExponent u < p.emax := by
  obtain ⟨n, q, -, upper, lower, least, greatest⟩ := floorLog2_range h pos
  unfold sqrtExponent
  cases p <;> simp only [Precision.emin, Precision.emax, Precision.bias, Precision.prec] at * <;> omega

/-- The scaled operand is an integer: it has more digits than its significand. -/
theorem exists_sqrtScaled (h : Representable p u) (pos : 0 < u) : ∃ m : ℕ, sqrtScaled p u = m := by
  obtain ⟨n, q, magnitude, upper, -⟩ := floorLog2_range h pos
  have prec := p.prec_pos
  have shift : 0 ≤ q + -2 * (sqrtExponent u - (p.prec - 1)) := by
    unfold sqrtExponent
    omega
  obtain ⟨d, hd⟩ := Int.eq_ofNat_of_zero_le shift
  refine ⟨n * 2 ^ d, ?_⟩
  rw [sqrtScaled, Exact.mul_eq, Exact.pow2_eq]
  nth_rw 1 [magnitude]
  rw [mul_assoc, ← zpow_add₀ two_ne_zero, hd]
  push_cast
  rw [zpow_natCast]

/-- The root of the scaled operand has as many digits as the format. -/
theorem sqrtScaled_bounds {m : ℕ} (pos : 0 < u) (scaled : sqrtScaled p u = m) :
    (2 ^ (p.prec - 1)) ^ 2 ≤ m ∧ m < (2 ^ p.prec) ^ 2 := by
  have unit := pow_pos (sqrtUnit_pos p u) 2
  have count := sqrtScaled_mul p u
  obtain ⟨lower, upper⟩ := sqrtExponent_spec pos
  rw [scaled] at count
  rw [← two_pow_mul_sqrtUnit p, mul_pow] at lower
  rw [← two_pow_prec_mul_sqrtUnit p, mul_pow] at upper
  have lower := le_of_mul_le_mul_right (lower.trans_eq count.symm) unit
  have upper := lt_of_mul_lt_mul_right (count.trans_lt upper) unit.le
  exact ⟨by exact_mod_cast lower, by exact_mod_cast upper⟩

/-! ### The digits (R187) -/

theorem sqrtDigits_eq {m : ℕ} (scaled : sqrtScaled p u = m) :
    sqrtDigits p u =
      if m ≤ Exact.isqrt m ^ 2 + Exact.isqrt m then Exact.isqrt m else Exact.isqrt m + 1 := by
  have test (n : ℕ) : (m : ℚ) < mkRat (4 * n ^ 2 + 4 * n + 1) 4 ↔ m ≤ n ^ 2 + n := by
    rw [Rat.mkRat_eq_div, Nat.cast_ofNat, lt_div_iff₀ (by norm_num)]
    push_cast
    rw [← Nat.lt_add_one_iff]
    constructor
    · intro h
      have : m * 4 < 4 * n ^ 2 + 4 * n + 1 := by exact_mod_cast h
      omega
    · intro h
      have : m * 4 < 4 * n ^ 2 + 4 * n + 1 := by omega
      exact_mod_cast this
  simp only [sqrtDigits, scaled, Exact.floor_eq, Int.floor_natCast, Int.toNat_natCast, test]

/-- The scaled operand lies in the range of its digits. -/
theorem sqrtDigits_spec {m : ℕ} (scaled : sqrtScaled p u = m) (pos : 0 < m) :
    sqrtDigits p u ^ 2 < m + sqrtDigits p u ∧ m ≤ sqrtDigits p u ^ 2 + sqrtDigits p u := by
  obtain ⟨lower, upper⟩ := Exact.isqrt_spec m
  rw [add_sq, mul_one, one_pow] at upper
  rw [sqrtDigits_eq scaled]
  split_ifs with below
  · have : Exact.isqrt m ≠ 0 := by
      intro none
      rw [none] at below
      omega
    omega
  · rw [add_sq, mul_one, one_pow]
    omega

/-- The root, the digits and the power below the root, in units of the last digit (R187). -/
theorem sqrtDigits_near (h : Representable p u) (pos : 0 < u) :
    ∃ r : ℝ, √(u : ℝ) = r * (sqrtUnit p u : ℝ) ∧ |r - sqrtDigits p u| < 1 / 2 ∧
      2 ^ (p.prec - 1) ≤ sqrtDigits p u ∧ sqrtDigits p u ≤ 2 ^ p.prec := by
  obtain ⟨m, scaled⟩ := exists_sqrtScaled h pos
  obtain ⟨least, greatest⟩ := sqrtScaled_bounds pos scaled
  obtain ⟨lower, upper⟩ := sqrtDigits_spec scaled (least.trans_lt' (by positivity))
  have unit : (0 : ℝ) ≤ sqrtUnit p u := by exact_mod_cast (sqrtUnit_pos p u).le
  have count : (m : ℝ) * (sqrtUnit p u : ℝ) ^ 2 = u := by
    rw [← Rat.cast_natCast, ← scaled]
    exact_mod_cast sqrtScaled_mul p u
  refine ⟨√m, ?_, sqrt_near lower upper, range_of_near lower upper least greatest⟩
  rw [← count, Real.sqrt_mul' _ (sq_nonneg _), Real.sqrt_sq unit]

/-! ### The rounded root (R186, R187) -/

/-- The digits on the unit of the last one. -/
def roundedRoot (p : Precision) (u : ℚ) : ℚ := sqrtDigits p u * sqrtUnit p u

theorem fsqrt_of_pos (p : Precision) (nan : Value) (pos : 0 < u) : fsqrt p nan (.fin u) = .fin (roundedRoot p u) := by
  rw [fsqrt, if_neg pos.not_gt, Exact.mul_eq, Exact.ofNat_eq, Exact.pow2_eq]
  rfl

theorem representable_roundedRoot (h : Representable p u) (pos : 0 < u) : Representable p (roundedRoot p u) := by
  obtain ⟨-, -, -, least, greatest⟩ := sqrtDigits_near h pos
  obtain ⟨lowest, highest⟩ := sqrtExponent_range h pos
  have finite : (sqrtDigits p u : ℚ) * sqrtUnit p u < 2 ^ (p.emax + 1) := by
    calc (sqrtDigits p u : ℚ) * sqrtUnit p u ≤ 2 ^ p.prec * sqrtUnit p u := by
          gcongr
          · exact (sqrtUnit_pos p u).le
          · exact_mod_cast greatest
      _ = 2 ^ (sqrtExponent u + 1) := two_pow_prec_mul_sqrtUnit p u
      _ < 2 ^ (p.emax + 1) := zpow_lt_zpow_right₀ one_lt_two (by omega)
  obtain ⟨f, row, -⟩ := exists_codes_of_multiple false (least.trans_lt' (by positivity)) greatest
    (show p.emin - (p.prec - 1) ≤ sqrtExponent u - (p.prec - 1) by omega) (.inr (prec_sub_one p ▸ least)) finite
  have encodable := row.encodable
  rwa [if_neg Bool.false_ne_true, one_mul] at encodable

/-- Where the root lies the quantum of the format is the unit of the last digit, so a number of the format is a multiple of
it or lies below the power of two under the root (R106). -/
theorem multiple_of_unit_or_below {z : ℚ} (h : Representable p u) (pos : 0 < u) (hz : Representable p z) :
    (∃ k : ℕ, |z| = k * sqrtUnit p u) ∨ |z| < 2 ^ sqrtExponent u := by
  have exponent : Exact.floorLog2 (2 ^ sqrtExponent u) = sqrtExponent u :=
    Exact.floorLog2_unique le_rfl (zpow_lt_zpow_right₀ one_lt_two (lt_add_one _))
  have unit : (2 : ℚ) ^ quantum p (2 ^ sqrtExponent u) = sqrtUnit p u := by
    rw [quantum_of_normal (exponent.symm ▸ (sqrtExponent_range h pos).1), exponent]
    rfl
  have cases := multiple_or_below hz (2 ^ sqrtExponent u)
  rw [unit, exponent] at cases
  exact cases.imp_right And.right

/-- Every other multiple of the unit is further away from the root. -/
theorem roundedRoot_nearest_multiple (h : Representable p u) (pos : 0 < u) {k : ℕ} (other : k ≠ sqrtDigits p u) :
    |√(u : ℝ) - roundedRoot p u| < |√(u : ℝ) - (k * sqrtUnit p u : ℚ)| := by
  obtain ⟨r, root, near, -⟩ := sqrtDigits_near h pos
  have unit : (0 : ℝ) < sqrtUnit p u := by exact_mod_cast sqrtUnit_pos p u
  have distance (n : ℕ) : |√(u : ℝ) - (n * sqrtUnit p u : ℚ)| = |r - n| * sqrtUnit p u := by
    rw [root, Rat.cast_mul, Rat.cast_natCast, ← sub_mul, abs_mul, abs_of_pos unit]
  rw [roundedRoot, distance, distance]
  exact mul_lt_mul_of_pos_right (lt_of_near near other) unit

/-- Below the root, what lies below another is further away. -/
theorem abs_sub_lt_of_lt {r : ℝ} {y z : ℚ} (below : z < y) (under : (y : ℝ) ≤ r) : |r - y| < |r - z| := by
  have below : (z : ℝ) < y := by exact_mod_cast below
  rw [abs_of_nonneg (sub_nonneg.2 under)]
  exact (sub_lt_sub_left below r).trans_le (le_abs_self _)

theorem two_pow_le_sqrt (pos : 0 < u) : ((2 ^ sqrtExponent u : ℚ) : ℝ) ≤ √(u : ℝ) :=
  Real.le_sqrt_of_sq_le (by exact_mod_cast (sqrtExponent_spec pos).1)

/-- Every other number of the format is further away from the root. A number below the power of two under the root is
further away than that power, and a negative one further than 0. -/
theorem roundedRoot_nearest {z : ℚ} (h : Representable p u) (pos : 0 < u) (hz : Representable p z)
    (other : z ≠ roundedRoot p u) : |√(u : ℝ) - roundedRoot p u| < |√(u : ℝ) - z| := by
  rcases lt_or_ge z 0 with negative | nonneg
  · obtain ⟨-, -, -, least, -⟩ := sqrtDigits_near h pos
    have zero := roundedRoot_nearest_multiple h pos (k := 0) (least.trans_lt' (by positivity)).ne
    rw [Nat.cast_zero, zero_mul] at zero
    exact zero.trans (abs_sub_lt_of_lt negative (by simp))
  obtain ⟨k, multiple⟩ | below := multiple_of_unit_or_below h pos hz
  · rw [abs_of_nonneg nonneg] at multiple
    rw [multiple]
    exact roundedRoot_nearest_multiple h pos fun same => other (by rw [multiple, same]; rfl)
  · rw [abs_of_nonneg nonneg] at below
    refine lt_of_le_of_lt ?_ (abs_sub_lt_of_lt below (two_pow_le_sqrt pos))
    have power : ((2 ^ (p.prec - 1) : ℕ) : ℚ) * sqrtUnit p u = 2 ^ sqrtExponent u := by
      rw [Nat.cast_pow, Nat.cast_two, two_pow_mul_sqrtUnit]
    rw [← power]
    rcases eq_or_ne (2 ^ (p.prec - 1)) (sqrtDigits p u) with same | apart
    · rw [same]
      rfl
    · exact (roundedRoot_nearest_multiple h pos apart).le

end Root

/-- The table of SQRT (R186). -/
def SqrtRule (p : Precision) (x v : Value) : Prop :=
  FirstMatch [
    (x.isNaN, QuietNaN p v),
    (x.isZero, v = x),
    (x.val < 0, QuietNaN p v),
    (x = .inf true, QuietNaN p v),
    (x = .inf false, v = .inf false),
    (True, ∃ y : ℚ, v = .fin y ∧ Representable p y ∧
      ∀ z : ℚ, Representable p z → z ≠ y → |Real.sqrt x.val - y| < |Real.sqrt x.val - z|)]

theorem sqrtRule_fsqrt {p : Precision} {nan x : Value} (quiet : QuietNaN p nan) (encodable : x.Encodable p) :
    SqrtRule p x (fsqrt p nan x) := by
  cases x with
  | nan => exact firstMatch_of_holds rfl quiet
  | zero => simp [SqrtRule, FirstMatch, fsqrt, Value.isNaN, Value.isZero]
  | inf t => cases t <;> simp [SqrtRule, FirstMatch, fsqrt, Value.isNaN, Value.isZero, Value.val, quiet]
  | fin u =>
    refine firstMatch_of_fails Bool.false_ne_true (firstMatch_of_fails Bool.false_ne_true ?_)
    rcases (ne_zero_of_representable encodable).lt_or_gt with negative | pos
    · refine firstMatch_of_holds negative ?_
      rw [fsqrt, if_pos negative]
      exact quiet
    · refine firstMatch_of_fails pos.not_gt (firstMatch_of_fails nofun (firstMatch_of_fails nofun ?_))
      exact firstMatch_of_holds trivial ⟨_, fsqrt_of_pos p nan pos, representable_roundedRoot encodable pos,
        fun z => roundedRoot_nearest encodable pos⟩

/-- Settles O43: the rounded root is a number of the format, and every other one is further away from the root. -/
theorem sqrtIsCorrectlyRounded : Obligations.SqrtIsCorrectlyRounded := fun _ _ a p x hx =>
  ⟨_, unaryFloat_reads .sqrt fsqrt hx,
    sqrtRule_fsqrt (qNaN_quiet ..) (decodedValuesAreEncodable p a x (reads_iff.1 hx).2)⟩

end Sys2Proof.Machine

/-! The sign and integral rounding family, the integral values. The machine's integer functions are those of the rules.
All four return an integer as it is and stay within the integers around their argument, and an integer of at most `P` bits
is representable, so that an integral value needs no rounding. -/

namespace Sys2Proof.Machine

/-! ### The integer functions (R203 to R206) -/

section Functions
variable {I : ℚ → ℤ}

theorem truncate_eq_towardZero : Exact.truncate = towardZero := by
  funext u
  rw [Exact.truncate_eq, towardZero]
  split_ifs with negative
  · rw [abs_of_neg negative, Int.floor_neg, neg_neg]
  · rw [abs_of_nonneg (not_lt.1 negative)]

theorem roundAway_eq_roundHalfAway : roundAway = roundHalfAway := by
  funext u
  have half : mkRat 1 2 = 1 / 2 := by norm_num
  simp only [roundAway, roundHalfAway, Exact.floor_eq, Exact.add_eq, Exact.abs_eq, half]
  split_ifs with negative
  · rfl
  · rw [abs_of_nonneg (not_lt.1 negative)]

/-- One of the four integer functions that an integral value is made by (R201). -/
def IntegerFunction (I : ℚ → ℤ) : Prop := I = roundHalfAway ∨ I = towardZero ∨ I = Int.ceil ∨ I = Int.floor

theorem IntegerFunction.staysWithin (h : IntegerFunction I) : StaysWithin I := by
  obtain rfl | rfl | rfl | rfl := h
  · exact roundAway_eq_roundHalfAway ▸ staysWithin_roundAway
  · exact truncate_eq_towardZero ▸ staysWithin_truncate
  · exact funext Exact.ceil_eq ▸ staysWithin_ceil
  · exact funext Exact.floor_eq ▸ staysWithin_floor

/-- An integer from its sign and its magnitude, as ROUND and TRUNC put them together. -/
theorem signed_abs_intCast (k : ℤ) : (if (k : ℚ) < 0 then -|k| else |k|) = k := by
  split_ifs with negative
  · rw [abs_of_neg (Int.cast_lt_zero.1 negative), neg_neg]
  · exact abs_of_nonneg (Int.cast_nonneg_iff.1 (not_lt.1 negative))

/-- All four return an integer as it is. -/
theorem IntegerFunction.intCast (h : IntegerFunction I) (k : ℤ) : I k = k := by
  obtain rfl | rfl | rfl | rfl := h
  · have rounded : ⌊|(k : ℚ)| + 1 / 2⌋ = |k| := by
      rw [← Int.cast_abs, Int.floor_intCast_add, show ⌊(1 / 2 : ℚ)⌋ = 0 by norm_num, add_zero]
    rw [roundHalfAway, rounded, signed_abs_intCast]
  · rw [towardZero, ← Int.cast_abs, Int.floor_intCast, signed_abs_intCast]
  · exact Int.ceil_intCast k
  · exact Int.floor_intCast k

end Functions

/-! ### The operations (R200) -/

/-- The frame of the four operations follows the table of R200 for every integer function. -/
theorem integralRule_integral {p : Precision} {nan : Value} (quiet : QuietNaN p nan) (I : ℚ → ℤ) (x : Value) :
    IntegralRule I p x (integral I p nan x) := by
  cases x with
  | nan => exact firstMatch_of_holds rfl quiet
  | zero => exact firstMatch_of_fails Bool.false_ne_true (firstMatch_of_holds (.inl rfl) rfl)
  | inf => exact firstMatch_of_fails Bool.false_ne_true (firstMatch_of_holds (.inr rfl) rfl)
  | fin u =>
    refine firstMatch_of_fails Bool.false_ne_true (firstMatch_of_fails (by simp [Value.isZero, Value.isInf]) ?_)
    by_cases none : I u = 0
    · exact firstMatch_of_holds none (if_pos none)
    · refine firstMatch_of_fails none (firstMatch_of_holds trivial ?_)
      rw [integral, if_neg none, Exact.ofInt_eq]
      rfl

/-- Settles O44: the operations share one frame, and the integer function of each is that of its rule. -/
theorem integralRoundings : Obligations.IntegralRoundings := by
  intro s ta a p x hx
  have completes (o : Op) {J I : ℚ → ℤ} (same : J = I) :
      ∃ v, unaryFloat o (integral J) ta a s = .next (s.deliver (respondFloat p v)) ∧ IntegralRule I p x v :=
    ⟨_, unaryFloat_reads o (integral J) hx, same ▸ integralRule_integral (qNaN_quiet ..) J x⟩
  exact ⟨completes .round roundAway_eq_roundHalfAway, completes .trunc truncate_eq_towardZero,
    completes .ceil (funext Exact.ceil_eq), completes .floor (funext Exact.floor_eq)⟩

/-! ### Why no rounding is needed (R201) -/

section Representable
variable {p : Precision} {u : ℚ}

/-- From `2^(P-1)` on the quantum of a representable number is at least 1 (R201). -/
theorem exists_intCast_of_representable (h : Representable p u) (large : 2 ^ (p.prec - 1) ≤ |u|) : ∃ k : ℤ, u = k := by
  obtain ⟨n, q, magnitude, -, upper, -⟩ := abs_of_representable h
  have whole : 0 ≤ q := by
    by_contra fraction
    have small : |u| < 2 ^ (p.prec - 1) := by
      calc |u| = n * 2 ^ q := magnitude
        _ < 2 ^ p.prec * 2 ^ q := by gcongr; exact_mod_cast upper
        _ = 2 ^ (p.prec + q) := two_pow_mul_zpow rfl
        _ ≤ 2 ^ ((p.prec - 1 : ℕ) : ℤ) := zpow_le_zpow_right₀ one_le_two (by omega)
        _ = 2 ^ (p.prec - 1) := zpow_natCast ..
    exact absurd large (not_le.2 small)
  obtain ⟨k, rfl⟩ := Int.eq_ofNat_of_zero_le whole
  have integer : |u| = ((n * 2 ^ k : ℕ) : ℤ) := by
    rw [magnitude]
    push_cast
    rfl
  obtain same | negated := abs_choice u
  · exact ⟨_, same ▸ integer⟩
  · exact ⟨-(n * 2 ^ k : ℕ), by rw [Int.cast_neg, ← integer, negated, neg_neg]⟩

/-- A number of at most `F + 1` bits can be shifted up until its highest bit is bit `F`. -/
theorem exists_shift {n F : ℕ} (nonzero : n ≠ 0) (upper : n ≤ 2 ^ (F + 1)) :
    ∃ k ≤ F, 2 ^ F ≤ n * 2 ^ k ∧ n * 2 ^ k ≤ 2 ^ (F + 1) := by
  rcases Nat.lt_or_ge n (2 ^ F) with small | full
  · have length : n.log2 < F := (Nat.log2_lt nonzero).2 small
    obtain ⟨k, rfl⟩ := Nat.exists_eq_add_of_le length.le
    refine ⟨k, Nat.le_add_left .., ?_, ?_⟩
    · rw [pow_add]
      exact Nat.mul_le_mul_right _ (Nat.log2_self_le nonzero)
    · rw [add_right_comm, pow_add]
      exact Nat.mul_le_mul_right _ Nat.lt_log2_self.le
  · exact ⟨0, F.zero_le, by simpa using full, by simpa using upper⟩

/-- The least quantum is a fraction and the range holds every integer of `P` bits (R90). -/
theorem range_of_precision (p : Precision) : p.emin ≤ 0 ∧ (p.prec : ℤ) < p.emax + 1 := by
  cases p <;> decide

/-- A number of at most `P` bits, or `2^P` itself, shifted up until it fills the significand, is on a quantum of the
format. -/
theorem representable_natCast (s : Bool) {n : ℕ} (nonzero : n ≠ 0) (upper : n ≤ 2 ^ p.prec) :
    Representable p ((if s then -1 else 1) * n) := by
  obtain ⟨k, short, lower, shifted⟩ := exists_shift nonzero (p.prec_eq ▸ upper)
  obtain ⟨fraction, range⟩ := range_of_precision p
  have value : ((n * 2 ^ k : ℕ) : ℚ) * 2 ^ (-k : ℤ) = n := by
    rw [Nat.cast_mul, Nat.cast_pow, Nat.cast_two, mul_assoc, two_pow_mul_zpow (add_neg_cancel _), zpow_zero, mul_one]
  have least : p.emin - (p.prec - 1) ≤ -k := by
    rw [p.prec_eq]
    omega
  have finite : ((n * 2 ^ k : ℕ) : ℚ) * 2 ^ (-k : ℤ) < 2 ^ (p.emax + 1) := by
    calc ((n * 2 ^ k : ℕ) : ℚ) * 2 ^ (-k : ℤ) = n := value
      _ ≤ 2 ^ p.prec := by exact_mod_cast upper
      _ < 2 ^ (p.emax + 1) := by
        rw [← zpow_natCast]
        exact zpow_lt_zpow_right₀ one_lt_two range
  obtain ⟨f, row, -⟩ := exists_codes_of_multiple s (by positivity) (p.prec_eq ▸ shifted) least (.inr lower) finite
  rw [mul_assoc, value] at row
  exact row.encodable

/-- The integers up to `2^P` are representable (R201). -/
theorem representable_intCast {i : ℤ} (nonzero : i ≠ 0) (upper : |i| ≤ 2 ^ p.prec) : Representable p i := by
  obtain ⟨n, rfl | rfl⟩ := i.eq_nat_or_neg
  · rw [Nat.abs_cast] at upper
    simpa using representable_natCast false (Nat.cast_ne_zero.1 nonzero) (by exact_mod_cast upper)
  · rw [abs_neg, Nat.abs_cast] at upper
    simpa using representable_natCast true (Nat.cast_ne_zero.1 (neg_ne_zero.1 nonzero)) (by exact_mod_cast upper)

end Representable

/-- Settles O45: from `2^(P-1)` on a representable number is an integer, which all four functions return; below, they
stay within the integers around it, all of which are representable. -/
theorem integralValuesAreRepresentable : Obligations.IntegralValuesAreRepresentable := by
  refine ⟨fun p u I hu (function : IntegerFunction I) => ?_, fun p i => representable_intCast⟩
  have within : |u| ≤ 2 ^ (p.prec - 1) → |I u| ≤ 2 ^ (p.prec - 1) := fun small =>
    function.staysWithin u (2 ^ (p.prec - 1)) (by exact_mod_cast small)
  have fixed : 2 ^ (p.prec - 1) ≤ |u| → (I u : ℚ) = u := by
    intro large
    obtain ⟨k, rfl⟩ := exists_intCast_of_representable hu large
    rw [function.intCast]
  refine ⟨fixed, fun small => within small.le, fun nonzero => ?_⟩
  rcases le_or_gt (2 ^ (p.prec - 1)) |u| with large | small
  · rwa [fixed large]
  · refine representable_intCast nonzero ((within small.le).trans ?_)
    exact pow_le_pow_right₀ one_le_two (Nat.sub_le ..)

end Sys2Proof.Machine

/-! The sign and integral rounding family, the sign bit. Giving a value another sign is writing another sign bit into
its fields, so ABS and COPYSIGN work on the bits and do no arithmetic. -/

namespace Sys2Proof.Machine

/-! ### The sign bit of a value (R208, R210) -/

section Sign
variable {p : Precision} {f : Fields} {a b : Pair} {x y : Value}

theorem withSign_scaledValue (p : Precision) (s t : Bool) (n e : ℕ) :
    withSign t (.fin (scaledValue p s n e)) = .fin (scaledValue p t n e) := by
  rw [withSign, Exact.abs_eq, abs_scaledValue]
  rfl

/-- The sign bit of the fields is the sign of the value (R98). -/
theorem Codes.sign (h : Codes p f x) : x.sign = f.sign := by
  cases h with
  | zero | inf | nan => rfl
  | subnormal s pos => exact scaledValue_neg p s pos 1
  | normal s => exact scaledValue_neg p s (by positivity) _

/-- Another sign bit in the fields is another sign of the value, and nothing else changes. -/
theorem Codes.withSign (h : Codes p f x) (t : Bool) : Codes p { f with sign := t } (withSign t x) := by
  cases h with
  | zero => exact .zero t
  | subnormal s pos fit => exact withSign_scaledValue p s t _ _ ▸ .subnormal t pos fit
  | normal s pos finite fit => exact withSign_scaledValue p s t _ _ ▸ .normal t pos finite fit
  | inf => exact .inf t
  | nan _ pos fit => exact .nan t pos fit

/-- A value with the sign that it has is that value (R211). -/
theorem withSign_sign (x : Value) : withSign x.sign x = x := by
  cases x with
  | zero | inf | nan => rfl
  | fin u =>
    rw [withSign, Value.sign, Exact.abs_eq]
    rcases lt_or_ge u 0 with negative | nonneg
    · rw [decide_eq_true negative, Exact.signed_true, abs_of_neg negative, neg_neg]
    · rw [decide_eq_false (not_lt.2 nonneg), Exact.signed_false, abs_of_nonneg nonneg]

theorem isNaN_withSign (t : Bool) (x : Value) : (withSign t x).isNaN = x.isNaN := by
  cases x <;> rfl

theorem sign_of_decodeValue (h : decodeValue p b = some y) : y.sign = (fields p b).sign :=
  (codes_of_decodeValue h).sign

theorem encodeValue_withSign (t : Bool) (h : decodeValue p a = some x) :
    encodeValue p (withSign t x) = packFields p { fields p a with sign := t } := by
  rw [encodeValue_eq, ((codes_of_decodeValue h).withSign t).encode]

/-! ### The sign bit in the words -/

/-- The bits of the low `k` bits of one word below bit `k` of another. -/
theorem getLsbD_masked (m b : Word) {k : ℕ} (hk : k < 64) (i : ℕ) :
    ((m &&& BitVec.ofNat 64 (2 ^ k - 1)) ||| (b &&& BitVec.twoPow 64 k)).getLsbD i =
      ((decide (i < k) && m.getLsbD i) || (decide (i = k) && b.getLsbD k)) := by
  rw [and_mask m hk]
  simp only [BitVec.getLsbD_or, BitVec.getLsbD_and, BitVec.getLsbD_twoPow, BitVec.getLsbD_setWidth]
  grind

/-- Words with the same bits below bit `k` and the same bit `k`, and no others, are the same. -/
theorem eq_masked {w m b : Word} {k : ℕ} (hk : k < 64)
    (bits : ∀ i, w.getLsbD i = ((decide (i < k) && m.getLsbD i) || (decide (i = k) && b.getLsbD k))) :
    w = (m &&& BitVec.ofNat 64 (2 ^ k - 1)) ||| (b &&& BitVec.twoPow 64 k) :=
  BitVec.eq_of_getLsbD_eq fun i _ => (bits i).trans (getLsbD_masked m b hk i).symm

/-- The packing of SINGLE and DOUBLE (R91, R93): a fraction of `g` bits, an exponent of `e` bits, and the sign bit. -/
theorem interchange_pack_signed (m b : Word) {g e : ℕ} (fit : g + e < 64) :
    (BitVec.ofBool (b.getLsbD (g + e)) ++ m.extractLsb' g e ++ m.extractLsb' 0 g).setWidth 64
      = (m &&& BitVec.ofNat 64 (2 ^ (g + e) - 1)) ||| (b &&& BitVec.twoPow 64 (g + e)) :=
  eq_masked fit fun i => by
    simp only [BitVec.getLsbD_setWidth, BitVec.getLsbD_append, BitVec.getLsbD_extractLsb', BitVec.getLsbD_ofBool]
    grind

/-- The packing of the second word of EXTENDED (R94). -/
theorem extended_pack_signed (es b : Word) :
    (BitVec.ofBool (b.getLsbD 15) ++ es.extractLsb' 0 15).setWidth 64 = (es &&& 0x7FFF) ||| (b &&& 0x8000) :=
  eq_masked (k := 15) (by decide) fun i => by
    simp only [BitVec.getLsbD_setWidth, BitVec.getLsbD_append, BitVec.getLsbD_extractLsb', BitVec.getLsbD_ofBool]
    grind

/-- The used bits of the first pair but for the sign bit, which is that of the second. -/
def copySignBit : Precision → Pair → Pair → Pair
  | .single, a, b => ⟨(a.m &&& 0x7FFFFFFF) ||| (b.m &&& 0x80000000), 0⟩
  | .double, a, b => ⟨(a.m &&& 0x7FFFFFFFFFFFFFFF) ||| (b.m &&& 0x8000000000000000), 0⟩
  | .extended, a, b => ⟨a.m, (a.es &&& 0x7FFF) ||| (b.es &&& 0x8000)⟩

/-- Packing the fields of one pair with the sign bit of another puts that bit into its place (R91, R93, R94). -/
theorem packFields_copySign (p : Precision) (a b : Pair) :
    packFields p { fields p a with sign := (fields p b).sign } = copySignBit p a b := by
  cases p with
  | single =>
    simp only [fields, packFields, BitVec.ofNat_toNat, BitVec.setWidth_eq]
    exact congrArg (Pair.mk · 0) (interchange_pack_signed a.m b.m (g := 23) (e := 8) (by decide))
  | double =>
    simp only [fields, packFields, BitVec.ofNat_toNat, BitVec.setWidth_eq]
    exact congrArg (Pair.mk · 0) (interchange_pack_signed a.m b.m (g := 52) (e := 11) (by decide))
  | extended =>
    simp only [fields, packFields, BitVec.ofNat_toNat, BitVec.setWidth_eq, extended_pack_signed]
    rfl

theorem encodeValue_copySign (hx : decodeValue p a = some x) (hy : decodeValue p b = some y) :
    encodeValue p (withSign y.sign x) = copySignBit p a b := by
  rw [encodeValue_withSign _ hx, sign_of_decodeValue hy, packFields_copySign]

/-- A pair has a value unless it is read at EXTENDED and non-canonical (R104). -/
theorem exists_decodeValue_of_canonical (h : p = .extended → b.nonCanonical = false) :
    ∃ y, decodeValue p b = some y := by
  rw [← Option.ne_none_iff_exists', Ne, decodeValue_eq_none]
  rintro ⟨extended, nonCanonical⟩
  simp [h extended] at nonCanonical

/-- COPYSIGN in bits at every precision (R210). -/
theorem exec_copysign_bits (s : State) (p : Precision) (a b : Pair) (ha : p = .extended → a.nonCanonical = false)
    (hb : p = .extended → b.nonCanonical = false) :
    exec (.copysign (BitVec.ofNat 8 p.ordinal) a b) s =
      .next (s.deliver ⟨.ok, .float, BitVec.ofNat 8 p.ordinal, (copySignBit p a b).m, (copySignBit p a b).es⟩) := by
  obtain ⟨x, hx⟩ := exists_decodeValue_of_canonical ha
  obtain ⟨y, hy⟩ := exists_decodeValue_of_canonical hb
  rw [← encodeValue_copySign hx hy]
  exact execCopysign_answer (Precision.ofCode?_ordinal p) hx hy

/-- ABS is COPYSIGN with `+0`, whatever the operand (R211). -/
theorem exec_abs_eq_copysign (s : State) (ta : TypeCode) (a : Pair) :
    exec (.abs ta a) s = exec (.copysign ta a ⟨0, 0⟩) s := by
  have zero (p : Precision) : decodeValue p ⟨0, 0⟩ = some (.zero false) := by cases p <;> rfl
  change unaryFloat .abs (fun _ _ x => withSign false x) ta a s = execCopysign ta a ⟨0, 0⟩ s
  simp only [unaryFloat, execCopysign, withValue_value _ (zero _)]
  rfl

end Sign

/-- Settles O47: the three precisions of COPYSIGN in bits. -/
theorem copysignTakesTheSignBit : Obligations.CopysignTakesTheSignBit := fun s a b =>
  ⟨exec_copysign_bits s .single a b nofun nofun, exec_copysign_bits s .double a b nofun nofun,
    fun ha hb => exec_copysign_bits s .extended a b (fun _ => ha) fun _ => hb⟩

/-- Settles O46: ABS is COPYSIGN with `+0`, whose sign bit is clear. -/
theorem absClearsTheSignBit : Obligations.AbsClearsTheSignBit := by
  intro s a
  obtain ⟨single, double, extended⟩ := copysignTakesTheSignBit s a ⟨0, 0⟩
  have clear (w m : Word) : w ||| (0 &&& m) = w := (congrArg (w ||| ·) BitVec.zero_and).trans BitVec.or_zero
  simp only [clear] at single double extended
  simp only [exec_abs_eq_copysign]
  exact ⟨single, double, fun ha => extended ha (by decide)⟩

/-- Settles O48: the result of COPYSIGN is the encoding of the first value with the sign of the second, so it decodes to
that value again; and the first operand with its own sign is itself. -/
theorem signOperationsAgree : Obligations.SignOperationsAgree := by
  intro s ta a b p x y hx hy
  obtain ⟨code, decodedA⟩ := reads_iff.1 hx
  obtain ⟨-, decodedB⟩ := reads_iff.1 hy
  have row := (codes_of_decodeValue decodedA).withSign y.sign
  have result : Reads ta (encodeValue p (withSign y.sign x)) p (withSign y.sign x) :=
    reads_iff.2 ⟨code, decodeValue_encodeValue row.encodable⟩
  refine ⟨exec_abs_eq_copysign s ta a, ?_, _, _, execCopysign_answer code decodedA decodedB, result,
    isNaN_withSign _ x, ?_⟩
  · rw [← respondFloat_of_reads hx]
    have answered := execCopysign_answer (s := s) code decodedA decodedA
    rwa [withSign_sign] at answered
  · refine (unaryBool_answer Value.sign code (reads_iff.1 result).2).trans ?_
    rw [row.sign]
    exact (unaryBool_answer Value.sign code decodedB).symm

end Sys2Proof.Machine

/-! The predicates family. ISZERO, ISONE, ISNAN and ISINF ask for the exponent field and the significand, ISNEG for the
sign bit; at SINGLE and DOUBLE the exponent field and the fraction are compared as one number. ISGT is a strict order on
the values that are no NaN. -/

namespace Sys2Proof.Machine

/-! ### The classes of a value, by the fields of its encoding (R222 to R226) -/

section Classes
variable {p : Precision} {f g : Fields} {x y : Value}

/-- A value stands in the table with one encoding only, and an encoding with one value only. -/
theorem Codes.value_eq_iff (hx : Codes p f x) (hy : Codes p g y) : x = y ↔ f = g := by
  constructor
  · rintro rfl
    exact hx.encode.symm.trans hy.encode
  · rintro rfl
    exact Option.some.inj (hx.decode.symm.trans hy.decode)

/-- A value is another but for the sign when their encodings agree but for the sign bit. -/
theorem Codes.withSign_eq_iff (hx : Codes p f x) {e n : ℕ} (hy : Codes p ⟨false, e, n⟩ y) :
    Machine.withSign false x = y ↔ f.exp = e ∧ f.sig = n := by
  rw [(hx.withSign false).value_eq_iff hy, Fields.mk.injEq]
  exact and_iff_right rfl

theorem scaledValue_bias (p : Precision) : scaledValue p false (2 ^ p.fracBits) p.bias = 1 := by
  rw [scaledValue, Exact.signed_false, sub_self, zero_sub, Nat.cast_pow, Nat.cast_two,
    two_pow_mul_zpow (add_neg_cancel _), zpow_zero]

/-- The encoding of 1: the bias in the exponent field, and no fraction (R223). -/
theorem codes_one (p : Precision) : Codes p ⟨false, p.bias, integerBit p⟩ (.fin 1) := by
  have row := Codes.normal (p := p) (e := p.bias) (g := 0) false (by cases p <;> decide) (by cases p <;> decide)
    (by positivity)
  rwa [add_zero, add_zero, scaledValue_bias] at row

theorem isZero_iff_withSign : x.isZero = true ↔ withSign false x = .zero false := by
  cases x <;> simp [Value.isZero, withSign]

theorem isOne_iff_withSign : x.isOne = true ↔ withSign false x = .fin 1 := by
  cases x with
  | zero | inf | nan => simp [Value.isOne, withSign]
  | fin u => simp [Value.isOne, withSign, abs_eq (zero_le_one' ℚ)]

theorem isInf_iff_withSign : x.isInf = true ↔ withSign false x = .inf false := by
  cases x <;> simp [Value.isInf, withSign]

theorem Codes.isZero_iff (h : Codes p f x) : x.isZero = true ↔ f.exp = 0 ∧ f.sig = 0 :=
  isZero_iff_withSign.trans (h.withSign_eq_iff (.zero false))

theorem Codes.isOne_iff (h : Codes p f x) : x.isOne = true ↔ f.exp = p.bias ∧ f.sig = integerBit p :=
  isOne_iff_withSign.trans (h.withSign_eq_iff (codes_one p))

theorem Codes.isInf_iff (h : Codes p f x) : x.isInf = true ↔ f.exp = p.maxExp ∧ f.sig = integerBit p :=
  isInf_iff_withSign.trans (h.withSign_eq_iff (.inf false))

theorem Codes.isNaN_iff (h : Codes p f x) : x.isNaN = true ↔ f.exp = p.maxExp ∧ f.sig ≠ integerBit p := by
  cases h with
  | zero | subnormal => simp [Value.isNaN, (maxExp_pos p).ne]
  | normal _ _ finite => simp [Value.isNaN, finite.ne]
  | inf => simp [Value.isNaN]
  | nan _ pos => simp [Value.isNaN, pos.ne']

end Classes

/-! ### The predicates in bits -/

section Bits
variable {s : State} {p : Precision} {a : Pair}

/-- The five class predicates complete on the slot, each with the answer given. -/
def AnswersClasses (s : State) (t : TypeCode) (a : Pair) (zero one nan inf neg : Bool) : Prop :=
  exec (.iszero t a) s = .next (s.deliver (respondBool zero)) ∧
    exec (.isone t a) s = .next (s.deliver (respondBool one)) ∧
    exec (.isnan t a) s = .next (s.deliver (respondBool nan)) ∧
    exec (.isinf t a) s = .next (s.deliver (respondBool inf)) ∧
    exec (.isneg t a) s = .next (s.deliver (respondBool neg))

/-- The predicates answer by the fields of the operand, at every precision. -/
theorem answersClasses_of_fields {zero one nan inf neg : Bool}
    (canonical : p = .extended → a.nonCanonical = false)
    (hzero : zero = true ↔ (fields p a).exp = 0 ∧ (fields p a).sig = 0)
    (hone : one = true ↔ (fields p a).exp = p.bias ∧ (fields p a).sig = integerBit p)
    (hnan : nan = true ↔ (fields p a).exp = p.maxExp ∧ (fields p a).sig ≠ integerBit p)
    (hinf : inf = true ↔ (fields p a).exp = p.maxExp ∧ (fields p a).sig = integerBit p)
    (hneg : neg = (fields p a).sign) :
    AnswersClasses s (BitVec.ofNat 8 p.ordinal) a zero one nan inf neg := by
  obtain ⟨x, hx⟩ := exists_decodeValue_of_canonical canonical
  have row := codes_of_decodeValue hx
  have answer {f : Value → Bool} {r : Bool} (same : f x = r) :
      unaryBool f (BitVec.ofNat 8 p.ordinal) a s = .next (s.deliver (respondBool r)) :=
    same ▸ unaryBool_answer f (Precision.ofCode?_ordinal p) hx
  exact ⟨answer (Bool.eq_iff_iff.2 (row.isZero_iff.trans hzero.symm)),
    answer (Bool.eq_iff_iff.2 (row.isOne_iff.trans hone.symm)),
    answer (Bool.eq_iff_iff.2 (row.isNaN_iff.trans hnan.symm)),
    answer (Bool.eq_iff_iff.2 (row.isInf_iff.trans hinf.symm)),
    answer (row.sign.trans hneg.symm)⟩

/-- The low bits of a word: a field of `k` bits above a field of `n` bits. -/
theorem toNat_extract_add (m : Word) (n k : ℕ) :
    (m.extractLsb' 0 (n + k)).toNat = 2 ^ n * (m.extractLsb' n k).toNat + (m.extractLsb' 0 n).toNat := by
  simp only [BitVec.extractLsb'_toNat, Nat.shiftRight_eq_div_pow, pow_zero, Nat.div_one]
  rw [pow_add, Nat.mod_mul, add_comm]

/-- A number in two fields is `c` times the weight of the higher one when that is `c` and the lower one is zero. -/
theorem two_fields_eq_iff {w h l c : ℕ} (fit : l < w) : w * h + l = w * c ↔ h = c ∧ l = 0 := by
  constructor
  · intro same
    have low : l = 0 := by simpa [Nat.mul_add_mod, Nat.mod_eq_of_lt fit] using congrArg (· % w) same
    exact ⟨Nat.eq_of_mul_eq_mul_left (Nat.zero_lt_of_lt fit) (by omega), low⟩
  · rintro ⟨rfl, rfl⟩
    rfl

/-- A number in two fields, the higher one at most `c`, is above `c` times its weight when the higher one is `c` and the
lower one is not zero. -/
theorem two_fields_gt_iff {w h l c : ℕ} (fit : l < w) (greatest : h ≤ c) : w * c < w * h + l ↔ h = c ∧ l ≠ 0 := by
  obtain rfl | below := greatest.eq_or_lt
  · omega
  · have : w * (h + 1) ≤ w * c := Nat.mul_le_mul_left w below
    rw [Nat.mul_succ] at this
    omega

/-- At SINGLE and DOUBLE the predicates compare the word without its sign bit (R222 to R226). -/
theorem answersClasses_interchange (format : integerBit p = 0)
    (hf : fields p a = ⟨a.m.getLsbD (p.fracBits + p.expBits), (a.m.extractLsb' p.fracBits p.expBits).toNat,
      (a.m.extractLsb' 0 p.fracBits).toNat⟩) :
    AnswersClasses s (BitVec.ofNat 8 p.ordinal) a
      (a.m.extractLsb' 0 (p.fracBits + p.expBits) == BitVec.ofNat _ 0)
      (a.m.extractLsb' 0 (p.fracBits + p.expBits) == BitVec.ofNat _ (2 ^ p.fracBits * p.bias))
      (decide (2 ^ p.fracBits * p.maxExp < (a.m.extractLsb' 0 (p.fracBits + p.expBits)).toNat))
      (a.m.extractLsb' 0 (p.fracBits + p.expBits) == BitVec.ofNat _ (2 ^ p.fracBits * p.maxExp))
      (a.m.getLsbD (p.fracBits + p.expBits)) := by
  have fraction : (a.m.extractLsb' 0 p.fracBits).toNat < 2 ^ p.fracBits := BitVec.isLt _
  have greatest : (a.m.extractLsb' p.fracBits p.expBits).toNat ≤ p.maxExp := Nat.le_pred_of_lt (BitVec.isLt _)
  have eq_iff {c : ℕ} (fit : c ≤ p.maxExp) :
      (a.m.extractLsb' 0 (p.fracBits + p.expBits) == BitVec.ofNat _ (2 ^ p.fracBits * c)) = true ↔
        (fields p a).exp = c ∧ (fields p a).sig = 0 := by
    have small : 2 ^ p.fracBits * c < 2 ^ (p.fracBits + p.expBits) := by
      rw [pow_add]
      exact Nat.mul_lt_mul_of_pos_left (Nat.lt_of_le_pred (by positivity) fit) (by positivity)
    rw [beq_iff_eq, ← BitVec.toNat_inj, BitVec.toNat_ofNat, Nat.mod_eq_of_lt small, toNat_extract_add, hf]
    exact two_fields_eq_iff fraction
  refine answersClasses_of_fields (by rintro rfl; cases format) (eq_iff (Nat.zero_le _)) ?_ ?_ ?_ (by rw [hf])
  · exact format ▸ eq_iff (by rw [maxExp_eq]; omega)
  · rw [decide_eq_true_iff, toNat_extract_add, format, hf]
    exact two_fields_gt_iff fraction greatest
  · exact format ▸ eq_iff le_rfl

theorem beq_ofNat_iff {w k : ℕ} (m : BitVec w) (fit : k < 2 ^ w) : (m == BitVec.ofNat w k) = true ↔ m.toNat = k := by
  rw [beq_iff_eq, ← BitVec.toNat_inj, BitVec.toNat_ofNat, Nat.mod_eq_of_lt fit]

/-- At EXTENDED the predicates compare the exponent field and the significand, integer bit included (R222 to R226). -/
theorem answersClasses_extended (canonical : a.nonCanonical = false) :
    AnswersClasses s (BitVec.ofNat 8 Precision.extended.ordinal) a
      (a.es.extractLsb' 0 15 == 0 && a.m == 0)
      (a.es.extractLsb' 0 15 == 0x3FFF && a.m == 0x8000000000000000)
      (a.es.extractLsb' 0 15 == 0x7FFF && a.m != 0x8000000000000000)
      (a.es.extractLsb' 0 15 == 0x7FFF && a.m == 0x8000000000000000)
      (a.es.getLsbD 15) := by
  have both {e n : ℕ} (exponent : e < 2 ^ 15) (significand : n < 2 ^ 64) :
      (a.es.extractLsb' 0 15 == BitVec.ofNat 15 e && a.m == BitVec.ofNat 64 n) = true ↔
        (fields .extended a).exp = e ∧ (fields .extended a).sig = n :=
    Bool.and_eq_true_iff.trans (and_congr (beq_ofNat_iff _ exponent) (beq_ofNat_iff _ significand))
  refine answersClasses_of_fields (fun _ => canonical) (both (by decide) (by decide)) (both (by decide) (by decide)) ?_
    (both (by decide) (by decide)) rfl
  refine Bool.and_eq_true_iff.trans (and_congr (beq_ofNat_iff _ (by decide)) ?_)
  rw [bne, Bool.not_eq_true', ← Bool.not_eq_true]
  exact not_congr (beq_ofNat_iff _ (by decide))

end Bits

/-- Settles O49: the predicates answer by the fields, and the fields of the three precisions are those bits. -/
theorem classPredicatesReadTheBits : Obligations.ClassPredicatesReadTheBits := fun _ _ =>
  ⟨answersClasses_interchange (p := .single) rfl rfl, answersClasses_interchange (p := .double) rfl rfl,
    answersClasses_extended⟩

/-! ### The order (R228, R229) -/

section Order
variable {s : State} {ta tb : TypeCode} {a b : Pair} {p q : Precision} {x y : Value}

/-- The answer of ISGT on operands that can be read: the order of their values, whatever the precisions. -/
theorem exec_isgt_reads (hx : Reads ta a p x) (hy : Reads tb b q y) :
    exec (.isgt ta tb a b) s = .next (s.deliver (respondBool (x.gt y))) :=
  binaryBool_answer Value.gt (reads_iff.1 hx).1 (reads_iff.1 hy).1 (reads_iff.1 hx).2 (reads_iff.1 hy).2

/-- Where a value that is no NaN stands in the order: the infinities beyond all numbers, and both zeros at 0. -/
def orderKey : Value → WithBot (WithTop ℚ)
  | .inf false => ⊤
  | .inf true => ⊥
  | .zero _ => ((0 : ℚ) : WithTop ℚ)
  | .fin u => (u : WithTop ℚ)
  | .nan .. => ⊥

theorem number_lt_top (u : ℚ) : ((u : WithTop ℚ) : WithBot (WithTop ℚ)) < ⊤ :=
  WithBot.coe_lt_coe.2 (WithTop.coe_lt_top u)

theorem number_lt_number {u v : ℚ} : ((u : WithTop ℚ) : WithBot (WithTop ℚ)) < (v : WithTop ℚ) ↔ u < v :=
  WithBot.coe_lt_coe.trans WithTop.coe_lt_coe

theorem orderKey_eq_val (top : x ≠ .inf false) (bot : x ≠ .inf true) (number : x.isNaN = false) :
    orderKey x = (x.val : WithTop ℚ) := by
  cases x with
  | zero | fin => rfl
  | inf s => cases s <;> contradiction
  | nan => contradiction

theorem orderKey_eq_top_iff : orderKey x = ⊤ ↔ x = .inf false := by
  cases x with
  | inf s => cases s <;> simp [orderKey]
  | zero | fin => exact iff_of_false (number_lt_top _).ne nofun
  | nan => exact iff_of_false bot_ne_top nofun

theorem orderKey_eq_bot_iff (number : x.isNaN = false) : orderKey x = ⊥ ↔ x = .inf true := by
  cases x with
  | inf s => cases s <;> simp [orderKey]
  | zero | fin => exact iff_of_false WithBot.coe_ne_bot nofun
  | nan => contradiction

theorem gt_finite (hx : x.isNaN = false ∧ x.isInf = false) (hy : y.isNaN = false ∧ y.isInf = false) :
    x.gt y = decide (y.val < x.val) := by
  cases x with
  | inf | nan => simp [Value.isNaN, Value.isInf] at hx
  | zero | fin =>
    cases y with
    | inf | nan => simp [Value.isNaN, Value.isInf] at hy
    | zero | fin => rfl

/-- Without a NaN, ISGT is the strict order of the keys (R228). -/
theorem gt_iff_orderKey (hx : x.isNaN = false) (hy : y.isNaN = false) : x.gt y = true ↔ orderKey y < orderKey x := by
  cases x with
  | nan => contradiction
  | inf s =>
    cases y with
    | nan => contradiction
    | inf t => cases s <;> cases t <;> simp [Value.gt, orderKey]
    | zero | fin =>
      cases s with
      | false => exact iff_of_true rfl (number_lt_top _)
      | true => exact iff_of_false Bool.false_ne_true not_lt_bot
  | zero | fin =>
    cases y with
    | nan => contradiction
    | inf t =>
      cases t with
      | false => exact iff_of_false Bool.false_ne_true (number_lt_top _).not_gt
      | true => exact iff_of_true rfl (WithBot.bot_lt_coe _)
    | zero | fin =>
      rw [gt_finite ⟨rfl, rfl⟩ ⟨rfl, rfl⟩, decide_eq_true_iff]
      exact number_lt_number.symm

theorem gt_of_isNaN (h : x.isNaN = true ∨ y.isNaN = true) : x.gt y = false := by
  cases x with
  | nan => rfl
  | zero | inf | fin =>
    cases y with
    | nan => rfl
    | zero | inf | fin => simp [Value.isNaN] at h

theorem orderKey_lt_of_gt (h : x.gt y = true) : orderKey y < orderKey x := by
  have numbers : ¬(x.isNaN = true ∨ y.isNaN = true) := fun nan => by simp [gt_of_isNaN nan] at h
  obtain ⟨hx, hy⟩ : x.isNaN = false ∧ y.isNaN = false := by simpa using numbers
  exact (gt_iff_orderKey hx hy).1 h

/-- What is not above in the order of the keys is not greater, a NaN included. -/
theorem gt_eq_false (h : orderKey x ≤ orderKey y) : x.gt y = false :=
  Bool.eq_false_of_not_eq_true fun greater => (orderKey_lt_of_gt greater).not_ge h

theorem gt_self (x : Value) : x.gt x = false := gt_eq_false le_rfl

theorem orderKey_of_isZero (h : x.isZero = true) : orderKey x = ((0 : ℚ) : WithTop ℚ) := by
  cases x with
  | zero => rfl
  | fin | inf | nan => contradiction

theorem gt_of_isZero (hx : x.isZero = true) (hy : y.isZero = true) : x.gt y = false :=
  gt_eq_false (by rw [orderKey_of_isZero hx, orderKey_of_isZero hy])

theorem gt_asymm (h : x.gt y = true) : y.gt x = false := gt_eq_false (orderKey_lt_of_gt h).le

/-- Responses tell the Boolean that they carry (R78). -/
theorem answered_bool_injective {g h : Bool}
    (same : (.next (s.deliver (respondBool g)) : Result) = .next (s.deliver (respondBool h))) : g = h := by
  have outbox := congrArg State.outbox (Host.Outcome.next.inj same)
  have response : respondBool g = respondBool h := by simpa using outbox
  have word := congrArg Response.m response
  revert word
  cases g <;> cases h <;> decide

end Order

/-- Settles O50: each row of the table is a fact about the keys. -/
theorem isGreaterFollowsTheTable : Obligations.IsGreaterFollowsTheTable := by
  intro s ta tb a b p q x y hx hy
  refine ⟨x.gt y, exec_isgt_reads hx hy, ?_⟩
  by_cases nan : x.isNaN = true ∨ y.isNaN = true
  · exact firstMatch_of_holds nan (gt_of_isNaN nan)
  refine firstMatch_of_fails nan ?_
  obtain ⟨numberX, numberY⟩ : x.isNaN = false ∧ y.isNaN = false := by simpa using nan
  rw [← Bool.not_eq_true, gt_iff_orderKey numberX numberY]
  by_cases topX : x = .inf false
  · refine firstMatch_of_holds topX ?_
    rw [orderKey_eq_top_iff.2 topX, lt_top_iff_ne_top, Ne, orderKey_eq_top_iff]
  refine firstMatch_of_fails topX ?_
  by_cases botX : x = .inf true
  · refine firstMatch_of_holds botX ?_
    rw [(orderKey_eq_bot_iff numberX).2 botX]
    exact not_lt_bot
  refine firstMatch_of_fails botX ?_
  by_cases topY : y = .inf false
  · refine firstMatch_of_holds topY ?_
    rw [orderKey_eq_top_iff.2 topY]
    exact not_top_lt
  refine firstMatch_of_fails topY ?_
  by_cases botY : y = .inf true
  · refine firstMatch_of_holds botY ?_
    rwa [(orderKey_eq_bot_iff numberY).2 botY, bot_lt_iff_ne_bot, Ne, orderKey_eq_bot_iff numberX]
  refine firstMatch_of_fails botY (firstMatch_of_holds trivial ?_)
  rw [orderKey_eq_val topX botX numberX, orderKey_eq_val topY botY numberY, number_lt_number]

/-- Settles O51: ISGT answers by the values alone, and their order is strict. -/
theorem isGreaterConsequences : Obligations.IsGreaterConsequences := by
  intro s ta tb tc a b c p q r x y hx hy hz
  simp only [exec_isgt_reads hx hy, exec_isgt_reads hz hy, exec_isgt_reads hx hz, exec_isgt_reads hy hx, gt_self]
  refine ⟨trivial, trivial, ?_, fun greater => ?_⟩
  · rintro (nan | ⟨zeroX, zeroY⟩)
    · simp only [gt_of_isNaN (.inr nan), gt_of_isNaN (.inl nan), and_self]
    · simp only [gt_of_isZero zeroX zeroY, gt_of_isZero zeroY zeroX, and_self]
  · rw [gt_asymm (answered_bool_injective greater)]

end Sys2Proof.Machine

/-! The casts family. A wider format holds every number of a narrower one, and rounding leaves such numbers alone, so the
casts that lose nothing are undone by the cast back. -/

namespace Sys2Proof.Machine

/-! ### Between precisions (R238, R239) -/

section FloatToFloat
variable {s : State} {ta tc : TypeCode} {a : Pair} {p q : Precision} {nan x : Value} {u : ℚ}

/-- The answer of CVTFF on an operand that can be read. -/
theorem exec_cvtff_reads (hx : Reads ta a p x) (hq : Precision.ofCode? tc = some q) :
    exec (.cvtff ta tc a) s = .next (s.deliver (respondFloat q (convert p q (qNaN .cvtff q [datum p a]) x))) :=
  execCvtff_answer (reads_iff.1 hx).1 hq (reads_iff.1 hx).2

/-- The table of CVTFF from `p` to `q` (R238). -/
def ConvertRule (p q : Precision) (x v : Value) : Prop :=
  FirstMatch [
    (p = q, v = x),
    (x.isNaN, QuietNaN q v),
    (x.isZero ∨ x.isInf, v = x),
    (True, v = roundTo q x.val false)]

theorem convertRule_convert (quiet : QuietNaN q nan) (p : Precision) (x : Value) :
    ConvertRule p q x (convert p q nan x) := by
  rw [convert.eq_def]
  split_ifs with same
  · exact firstMatch_of_holds same rfl
  refine firstMatch_of_fails same ?_
  cases x with
  | nan => exact firstMatch_of_holds rfl quiet
  | zero => exact firstMatch_of_fails Bool.false_ne_true (firstMatch_of_holds (.inl rfl) rfl)
  | inf => exact firstMatch_of_fails Bool.false_ne_true (firstMatch_of_holds (.inr rfl) rfl)
  | fin =>
    exact firstMatch_of_fails Bool.false_ne_true (firstMatch_of_fails (by simp [Value.isZero, Value.isInf])
      (firstMatch_of_holds trivial rfl))

/-- A wider format has as many digits at least, a range as large, and a least quantum that is finer by at least the
number of its fraction bits (R90). -/
theorem wider_format (wider : p.ordinal ≤ q.ordinal) (other : p ≠ q) :
    p.prec ≤ q.prec ∧ p.emax ≤ q.emax ∧ q.emin - (q.prec - 1) + q.fracBits ≤ p.emin - (p.prec - 1) := by
  cases p <;> cases q <;> revert wider other <;> decide

/-- A number of a narrower format, its significand shifted up until it is full, is on a quantum of the wider one
(R239). -/
theorem representable_of_wider (wider : p.ordinal ≤ q.ordinal) (h : Representable p u) : Representable q u := by
  rcases eq_or_ne p q with rfl | other
  · exact h
  obtain ⟨digits, range, finer⟩ := wider_format wider other
  have bound := abs_lt_of_representable h
  obtain ⟨n, r, magnitude, pos, upper, least, -⟩ := abs_of_representable h
  have upper : n ≤ 2 ^ (q.fracBits + 1) := upper.le.trans (q.prec_eq ▸ Nat.pow_le_pow_right two_pos digits)
  obtain ⟨k, short, full, shifted⟩ := exists_shift pos.ne' upper
  have value : ((n * 2 ^ k : ℕ) : ℚ) * 2 ^ (r - k) = |u| := by
    rw [magnitude, Nat.cast_mul, Nat.cast_pow, Nat.cast_two, mul_assoc, two_pow_mul_zpow (add_sub_cancel _ _)]
  have finite : ((n * 2 ^ k : ℕ) : ℚ) * 2 ^ (r - k) < 2 ^ (q.emax + 1) := by
    rw [value]
    exact bound.trans_le (zpow_le_zpow_right₀ one_le_two (by omega))
  obtain ⟨f, row, -⟩ := exists_codes_of_multiple (decide (u < 0)) (by positivity) (q.prec_eq ▸ shifted)
    (by omega : q.emin - (q.prec - 1) ≤ r - k) (.inr full) finite
  have signed : (if decide (u < 0) then -1 else 1) * |u| = u := by
    rcases lt_or_ge u 0 with negative | nonneg
    · simp [negative, abs_of_neg]
    · simp [not_lt.2 nonneg, abs_of_nonneg nonneg]
  rw [mul_assoc, value, signed] at row
  exact row.encodable

theorem encodable_of_wider (wider : p.ordinal ≤ q.ordinal) (number : x.isNaN = false) (h : x.Encodable p) :
    x.Encodable q := by
  cases x with
  | nan => contradiction
  | zero | inf => trivial
  | fin => exact representable_of_wider wider h

/-- CVTFF does not change a value that the destination holds. -/
theorem convert_of_encodable (encodable : x.Encodable q) (number : x.isNaN = false) : convert p q nan x = x := by
  rw [convert.eq_def]
  split_ifs
  · rfl
  cases x with
  | nan => contradiction
  | zero | inf => rfl
  | fin => exact roundTo_of_representable false encodable

end FloatToFloat

/-- Settles O52: the answer follows the table, and the NaN that the request returns is quiet. -/
theorem floatToFloatConverts : Obligations.FloatToFloatConverts := fun _ _ _ _ p _ x hx hq =>
  ⟨_, exec_cvtff_reads hx (ofCode?_of_toNat hq), convertRule_convert (qNaN_quiet ..) p x⟩

/-- Settles O53: both formats hold the value, so neither of the two casts changes it. -/
theorem wideningThenNarrowingIsTheIdentity : Obligations.WideningThenNarrowingIsTheIdentity := by
  intro s ta tc a p q x hx hq wider number
  obtain ⟨code, decoded⟩ := reads_iff.1 hx
  have narrow : x.Encodable p := (codes_of_decodeValue decoded).encodable
  have wide : x.Encodable q := encodable_of_wider wider number narrow
  have widened : Reads tc (encodeValue q x) q x := ⟨hq, decodeValue_encodeValue wide⟩
  have there := exec_cvtff_reads (s := s) hx (ofCode?_of_toNat hq)
  have back := exec_cvtff_reads (s := s) widened code
  rw [convert_of_encodable wide number] at there
  rw [convert_of_encodable narrow number, respondFloat_of_reads hx] at back
  exact ⟨respondFloat q x, there, widened, back⟩

/-! ### From integers (R243 to R245) -/

/-- The integer operand is the one integer of the width that is congruent to the word (R243). -/
theorem signedPart_eq_iff {w : Width} {n : Word} {i : ℤ} :
    signedPart w n = i ↔
      -2 ^ (w.bits - 1) ≤ i ∧ i < 2 ^ (w.bits - 1) ∧ (i - n.toNat) % 2 ^ w.bits = 0 := by
  rw [signedPart, BitVec.toInt_setWidth, Int.bmod_def]
  cases w <;> norm_num [Width.bits] <;> omega

theorem signedPart_spec (w : Width) (n : Word) :
    -2 ^ (w.bits - 1) ≤ signedPart w n ∧ signedPart w n < 2 ^ (w.bits - 1) ∧
      (signedPart w n - n.toNat) % 2 ^ w.bits = 0 :=
  signedPart_eq_iff.1 rfl

/-- The answer of CVTIF. -/
theorem exec_cvtif_eq {s : State} {ta tc : TypeCode} {n : Word} {w : Width} {p : Precision} (hw : ta.toNat = w.bits)
    (hp : tc.toNat = p.ordinal) :
    exec (.cvtif ta tc n) s = .next (s.deliver (respondFloat p (roundTo p (signedPart w n) false))) := by
  rw [← Exact.ofInt_eq]
  exact execCvtif_answer (widthOfCode?_of_toNat hw) (ofCode?_of_toNat hp)

/-- The integers of every width lie below the threshold of overflow of every precision. -/
theorem lt_threshold_of_width (p : Precision) {w : Width} {i : ℤ} (lower : -2 ^ (w.bits - 1) ≤ i)
    (upper : i < 2 ^ (w.bits - 1)) : |(i : ℚ)| < (2 - 2 ^ (-(p.prec : ℤ))) * 2 ^ p.emax := by
  have widest : (2 : ℤ) ^ (w.bits - 1) ≤ 2 ^ 63 := pow_le_pow_right₀ one_le_two (by cases w <;> decide)
  have magnitude : |(i : ℚ)| ≤ 2 ^ (63 : ℤ) := by
    exact_mod_cast abs_le.2 ⟨(neg_le_neg widest).trans lower, upper.le.trans widest⟩
  have range : (63 : ℤ) < p.emax := by cases p <;> decide
  have fraction : (2 : ℚ) ^ (-(p.prec : ℤ)) ≤ 1 := zpow_le_one_of_nonpos₀ one_le_two (by omega)
  calc |(i : ℚ)| ≤ 2 ^ (63 : ℤ) := magnitude
    _ < 2 ^ p.emax := zpow_lt_zpow_right₀ one_lt_two range
    _ ≤ (2 - 2 ^ (-(p.prec : ℤ))) * 2 ^ p.emax := le_mul_of_one_le_left (by positivity) (by linarith)

/-- An integer of some width, being at least 1 in magnitude and below the threshold, rounds to a number. -/
theorem roundTo_intCast_finite (p : Precision) {w : Width} {i : ℤ} (nonzero : i ≠ 0) (lower : -2 ^ (w.bits - 1) ≤ i)
    (upper : i < 2 ^ (w.bits - 1)) : ∃ x, roundTo p i false = .fin x := by
  have beyond : BeyondOne (roundTo p i false) := beyondOne_roundTo false (by exact_mod_cast Int.one_le_abs nonzero)
  obtain ⟨result, -⟩ | ⟨result, -⟩ :=
    roundTo_of_lt_threshold false (Int.cast_ne_zero.2 nonzero) (lt_threshold_of_width p lower upper)
  · exact ⟨_, result⟩
  · rw [result] at beyond
    contradiction

/-- Settles O54: the integer is the one of the width, and it is rounded once; an exact one is its own rounding. -/
theorem integerToFloatConverts : Obligations.IntegerToFloatConverts := by
  intro s ta tc n w p hw hp
  obtain ⟨lower, upper, congruent⟩ := signedPart_spec w n
  refine ⟨signedPart w n, _, lower, upper, congruent, exec_cvtif_eq hw hp, fun zero => ?_, fun _ => rfl,
    fun nonzero lossless => ?_, fun nonzero => roundTo_intCast_finite p nonzero lower upper⟩
  · rw [zero, Int.cast_zero, roundTo_zero]
  · exact roundTo_of_representable false (lossless.elim (representable_intCast nonzero) id)

/-! ### To integers (R248, R249) -/

section FloatToInt
variable {s : State} {ta tc : TypeCode} {a : Pair} {p : Precision} {w : Width} {x : Value} {u : ℚ}

/-- The answer of CVTFI on an operand that can be read. -/
theorem exec_cvtfi_reads (hx : Reads ta a p x) (hw : tc.toNat = w.bits) :
    exec (.cvtfi ta tc a) s = .next (s.deliver ⟨.ok, .int, tc, BitVec.ofInt 64 (floatToInt p w a x), 0⟩) := by
  have code := widthOfCode?_of_toNat hw
  refine (execCvtfi_answer (reads_iff.1 hx).1 code (reads_iff.1 hx).2).trans ?_
  rw [Width.ofCode?_eq_some.1 code]
  rfl

theorem towardZero_eq (u : ℚ) : towardZero u = if u < 0 then ⌈u⌉ else ⌊u⌋ := by
  rw [← truncate_eq_towardZero, Exact.truncate_eq]

/-- Truncation takes the numbers above `m - 1`, and no others, to `m` or above, when `m` is not positive. -/
theorem le_towardZero_iff {m : ℤ} (nonpos : m ≤ 0) : m ≤ towardZero u ↔ (m - 1 : ℚ) < u := by
  have nonpos' : (m : ℚ) ≤ 0 := by exact_mod_cast nonpos
  rw [towardZero_eq]
  split_ifs with negative
  · exact Int.le_ceil_iff
  · exact iff_of_true (nonpos.trans (Int.floor_nonneg.2 (not_lt.1 negative))) (by linarith)

/-- Truncation takes the numbers below `m`, and no others, below `m`, when `m` is positive. -/
theorem towardZero_lt_iff {m : ℤ} (pos : 0 < m) : towardZero u < m ↔ u < m := by
  have pos' : (0 : ℚ) < m := by exact_mod_cast pos
  rw [towardZero_eq]
  split_ifs with negative
  · exact iff_of_true ((Int.ceil_le.2 (by simpa using negative.le)).trans_lt pos) (negative.trans pos')
  · exact Int.floor_lt

/-- The truncation is an integer of the width. -/
def Fits (w : Width) (u : ℚ) : Prop := -2 ^ (w.bits - 1) ≤ towardZero u ∧ towardZero u ≤ 2 ^ (w.bits - 1) - 1

/-- The numbers whose truncation fits are those of the open interval of R249. -/
theorem fits_iff : Fits w u ↔ -2 ^ (w.bits - 1) - 1 < u ∧ u < 2 ^ (w.bits - 1) := by
  have least : -2 ^ (w.bits - 1) ≤ towardZero u ↔ _ := le_towardZero_iff (by simp)
  have greatest : towardZero u < 2 ^ (w.bits - 1) ↔ _ := towardZero_lt_iff (by positivity)
  rw [Fits, Int.le_sub_one_iff, least, greatest]
  push_cast
  rfl

theorem towardZero_intCast (i : ℤ) : towardZero i = i := IntegerFunction.intCast (.inr (.inl rfl)) i

theorem fits_intCast {i : ℤ} (lower : -2 ^ (w.bits - 1) ≤ i) (upper : i < 2 ^ (w.bits - 1)) : Fits w i := by
  rw [Fits, towardZero_intCast]
  exact ⟨lower, Int.le_sub_one_of_lt upper⟩

theorem fits_zero (w : Width) : Fits w 0 := by
  exact_mod_cast fits_intCast (w := w) (i := 0) (by simp) (by positivity)

/-- Of a finite operand whose truncation fits, the integer is the truncation (R248). -/
theorem floatToInt_of_fits (p : Precision) (a : Pair) (number : x.isNaN = false) (finite : x.isInf = false)
    (fits : Fits w x.val) : floatToInt p w a x = towardZero x.val := by
  cases x with
  | nan | inf => contradiction
  | zero => exact (towardZero_intCast 0).symm
  | fin u =>
    rw [floatToInt, truncate_eq_towardZero]
    exact if_pos fits

/-- Of every other operand it is the open one (R250). -/
theorem floatToInt_of_not_fits (p : Precision) (a : Pair) (out : x.isNaN = true ∨ x.isInf = true ∨ ¬Fits w x.val) :
    floatToInt p w a x = outOfRange p w a := by
  cases x with
  | nan | inf => rfl
  | zero => simp [Value.isNaN, Value.isInf, Value.val, fits_zero] at out
  | fin u =>
    have misfit : ¬Fits w u := (out.resolve_left nofun).resolve_left nofun
    rw [floatToInt, truncate_eq_towardZero]
    exact if_neg misfit

/-! ### Values that hold an integer (R201, R252) -/

/-- The value is the integer `i`, as a zero or a number of the precision `p`. -/
def HoldsInteger (p : Precision) (v : Value) (i : ℤ) : Prop :=
  v.Encodable p ∧ v.isNaN = false ∧ v.isInf = false ∧ v.val = i

theorem holdsInteger_zero (p : Precision) (s : Bool) : HoldsInteger p (.zero s) 0 :=
  ⟨trivial, rfl, rfl, Int.cast_zero.symm⟩

theorem holdsInteger_fin {i : ℤ} (h : Representable p i) : HoldsInteger p (.fin i) i := ⟨h, rfl, rfl, rfl⟩

/-- CVTFI of an integer of the width that the operand holds is that integer (R252). -/
theorem exec_cvtfi_of_holdsInteger {v : Value} {i : ℤ} (h : HoldsInteger p v i) (lower : -2 ^ (w.bits - 1) ≤ i)
    (upper : i < 2 ^ (w.bits - 1)) (hp : ta.toNat = p.ordinal) (hw : tc.toNat = w.bits) :
    exec (.cvtfi ta tc (encodeValue p v)) s = .next (s.deliver ⟨.ok, .int, tc, BitVec.ofInt 64 i, 0⟩) := by
  obtain ⟨encodable, number, finite, val⟩ := h
  have reads : Reads ta (encodeValue p v) p v := ⟨hp, decodeValue_encodeValue encodable⟩
  have fits : Fits w v.val := val ▸ fits_intCast lower upper
  rw [exec_cvtfi_reads reads hw, floatToInt_of_fits p _ number finite fits, val, towardZero_intCast]

/-- TRUNC of a finite operand holds the truncated integer (R204). -/
theorem holdsInteger_trunc {nan : Value} (encodable : x.Encodable p) (number : x.isNaN = false)
    (finite : x.isInf = false) : HoldsInteger p (integral Exact.truncate p nan x) (towardZero x.val) := by
  rw [truncate_eq_towardZero]
  cases x with
  | nan | inf => contradiction
  | zero t => exact (towardZero_intCast 0).symm ▸ holdsInteger_zero p t
  | fin u =>
    rw [integral, Exact.ofInt_eq]
    change HoldsInteger p _ (towardZero u)
    split_ifs with zero
    · exact zero.symm ▸ holdsInteger_zero p _
    · obtain ⟨-, -, representable⟩ := integralValuesAreRepresentable.1 p u _ encodable (.inr (.inl rfl))
      exact holdsInteger_fin (representable zero)

/-- CVTIF of an integer that is exact at the precision holds it (R245). -/
theorem holdsInteger_roundTo {i : ℤ} (lossless : i = 0 ∨ Representable p i) : HoldsInteger p (roundTo p i false) i := by
  rcases lossless with rfl | representable
  · rw [Int.cast_zero, roundTo_zero]
    exact holdsInteger_zero p false
  · rw [roundTo_of_representable false representable]
    exact holdsInteger_fin representable

end FloatToInt

/-- Settles O55: the truncation fits, so CVTFI answers with it; TRUNC gives a value that holds the same integer. -/
theorem floatToIntegerTruncates : Obligations.FloatToIntegerTruncates := by
  intro s ta tc a p w x hx hw number finite above below
  have fits : Fits w x.val := fits_iff.2 ⟨above, below⟩
  have answered := exec_cvtfi_reads (s := s) hx hw
  rw [floatToInt_of_fits p a number finite fits] at answered
  obtain ⟨lower, upper⟩ := fits
  refine ⟨lower, upper, answered, _, unaryFloat_reads .trunc (integral Exact.truncate) hx, ?_⟩
  have encodable : x.Encodable p := (codes_of_decodeValue hx.2).encodable
  rw [answered]
  exact exec_cvtfi_of_holdsInteger (holdsInteger_trunc encodable number finite) lower (Int.le_sub_one_iff.1 upper)
    hx.1 hw

/-- Settles O56: the function is the open parameter, of which the low bits of the width are taken. -/
theorem outOfRangeIntegersAreOpen : Obligations.OutOfRangeIntegersAreOpen := by
  intro ta tc p w hp hw
  refine ⟨outOfRange p w, fun b => ?_, fun s a x hx out => ?_⟩
  · obtain ⟨lower, upper, -⟩ := signedPart_spec w (Config.ftoiOor p w (canonPair p b))
    exact ⟨lower, Int.le_sub_one_of_lt upper⟩
  · rw [← not_lt, ← not_lt, ← not_and_or, ← fits_iff] at out
    rw [exec_cvtfi_reads hx hw, floatToInt_of_not_fits p a out, usedOnly_eq (ofCode?_of_toNat hp), outOfRange_canonPair]

/-- Settles O57: the integer is the one that CVTIF reads, and the result of CVTIF holds it. -/
theorem integersComeBack : Obligations.IntegersComeBack := by
  intro s ta tc n w p i hw hp lower upper congruent lossless
  obtain rfl : signedPart w n = i := signedPart_eq_iff.2 ⟨lower, upper, congruent⟩
  exact ⟨_, exec_cvtif_eq hw hp, exec_cvtfi_of_holdsInteger (holdsInteger_roundTo lossless) lower upper hp hw⟩

end Sys2Proof.Machine

/-! The exceptions family: which packets have a malformed command word, and what each of the checks of a request is
answered with. A packet meets the checks in the order of R272, and so does the request it decodes to. -/

namespace Sys2Proof.Machine

/-- Settles O4: nothing is fetched, and the step is idle. -/
theorem stepIdlesWithoutAWholePacket : Obligations.StepIdlesWithoutAWholePacket := by
  intro s incomplete
  rw [step, nextRequest_eq_none.2 incomplete]

/-! ### The command word (R62 steps 1 to 3, R269) -/

/-- The codes that the operation map lists are those of the operations (R60). -/
theorem mem_operationCodes {c : BitVec 8} : c ∈ operationCodes ↔ ∃ o : Op, o.code = c := by
  have listed : operationCodes = Op.all.map Op.code := rfl
  have all (o : Op) : o ∈ Op.all := by cases o <;> decide
  simp [listed, all]

/-- Of the operations those of format V have the codes that may stand beside a count (R60, R61). -/
theorem variadic_iff_code {o : Op} : o.format = .v ↔ o.code = 0x15#8 ∨ o.code = 0x16#8 := by
  cases o <;> decide

/-- A command word is not malformed when `rsv` is zero, `opc` names an operation, and `cnt` is zero unless that takes
elements. -/
theorem commandIllegal_eq_false {w : Word} :
    commandIllegal w = false ↔
      cmdRsv w = 0#16 ∧ ∃ o : Op, o.code = cmdOpc w ∧ (o.format = .v ∨ cmdCnt w = 0#16) := by
  have fields : commandIllegal w = false ↔ cmdRsv w = 0#16 ∧ cmdOpc w ∈ operationCodes ∧
      (cmdCnt w = 0#16 ∨ cmdOpc w = 0x15#8 ∨ cmdOpc w = 0x16#8) := by
    simp [commandIllegal, cmdRsv, cmdOpc, cmdCnt, and_assoc]
    tauto
  rw [fields, mem_operationCodes]
  constructor
  · rintro ⟨reserved, ⟨o, code⟩, count⟩
    refine ⟨reserved, o, code, ?_⟩
    rwa [variadic_iff_code, code, or_comm]
  · rintro ⟨reserved, o, code, count⟩
    refine ⟨reserved, ⟨o, code⟩, ?_⟩
    rwa [variadic_iff_code, code, or_comm] at count

/-- A packet has its eight base words, and as many element words as its count field says (R55). -/
theorem exists_words_of_isPacket {w : Word} {rest : List Word} (h : IsPacket (w :: rest)) :
    ∃ (a b c : Pair) (n : Word) (tail : List Word),
      rest = a.m :: a.es :: b.m :: b.es :: c.m :: c.es :: n :: tail ∧ tail.length = 3 * (cmdCnt w).toNat := by
  obtain ⟨w', rest', same, length⟩ := h
  obtain ⟨rfl, rfl⟩ := List.cons.inj same
  replace length : rest.length = 3 * (cmdCnt w).toNat + 7 := by
    rw [List.length_cons] at length
    unfold cmdCnt
    omega
  match rest, length with
  | am :: aes :: bm :: bes :: cm :: ces :: n :: tail, length =>
    exact ⟨⟨am, aes⟩, ⟨bm, bes⟩, ⟨cm, ces⟩, n, tail, rfl, Nat.add_right_cancel (m := 7) length⟩

/-- The packets that decode to a request are those whose command word is not malformed (R62 steps 1 to 3). -/
theorem decode_ok_iff {w : Word} {rest : List Word} (h : IsPacket (w :: rest)) :
    (∃ i, decode (w :: rest) = .ok i) ↔ commandIllegal w = false := by
  rw [commandIllegal_eq_false]
  constructor
  · rintro ⟨i, decoded⟩
    obtain ⟨o, w', _, _, _, _, _, same, -, reserved, code, count, -⟩ := request_of_decode_ok decoded
    obtain ⟨rfl, -⟩ := List.cons.inj same
    exact ⟨reserved, o, code, count⟩
  · rintro ⟨reserved, o, code, count⟩
    obtain ⟨a, b, c, n, tail, rfl, length⟩ := exists_words_of_isPacket h
    have legal : ¬(o.format ≠ .v ∧ cmdCnt w ≠ 0#16) := by tauto
    refine ⟨o.request w a b c n (elements tail), ?_⟩
    simp [decode, length, reserved, Op.ofCode?_eq_some.2 code, legal]

/-- Settles O15: the decoder rejects the packets with a malformed command word, and a step executes what the others
decode to. -/
theorem malformedCommandsAreIllegal : Obligations.MalformedCommandsAreIllegal := by
  intro s w rest packet
  have stepped := step_packet packet (State.withPacket_inbox s (w :: rest))
  cases decoded : decode (w :: rest) with
  | ok i =>
    have legal : commandIllegal w = false := (decode_ok_iff packet).1 ⟨i, decoded⟩
    rw [decoded] at stepped
    exact ⟨by simp [legal], fun _ => ⟨i, rfl, stepped⟩⟩
  | error r =>
    have illegal : commandIllegal w ≠ false := fun legal => by
      obtain ⟨i, accepted⟩ := (decode_ok_iff packet).2 legal
      cases decoded.symm.trans accepted
    rw [decoded] at stepped
    exact ⟨fun _ => stepped, fun legal => absurd legal illegal⟩

/-! ### The checks of a request (R62 steps 4 to 7) -/

/-- Everything a request can be answered with: the error of the first check that it fails, in the order of R62; the
refusal of a non-canonical operand; or an answer with OK. -/
theorem exec_cases (i : Instr) (s : State) :
    (i.typesLegal = false ∧ exec i s = raise .unsupportedType s) ∨
      i.typesLegal = true ∧
        ((i.negativeExponent = true ∧ exec i s = raise .domain s) ∨
          i.negativeExponent = false ∧
            ((i.readsNonCanonical = true ∧ exec i s = .refused .extNonCanonical) ∨
              i.readsNonCanonical = false ∧ ∃ r : Response, r.status = .ok ∧ exec i s = .next (s.deliver r))) := by
  cases types : i.typesLegal with
  | false => exact .inl ⟨rfl, exec_of_illegal s types⟩
  | true =>
    refine .inr ⟨rfl, ?_⟩
    cases exponent : i.negativeExponent with
    | true => exact .inl ⟨rfl, exec_of_negativeExponent s types exponent⟩
    | false =>
      refine .inr ⟨rfl, ?_⟩
      cases operands : i.readsNonCanonical with
      | true => exact .inl ⟨rfl, exec_of_readsNonCanonical s types exponent operands⟩
      | false =>
        obtain ⟨r, answered, ok, -⟩ := executingRequestsComplete i s (executes_iff.2 ⟨types, exponent, operands⟩)
        exact .inr ⟨rfl, r, ok, answered⟩

/-- Settles O16: the command word decides whether the packet decodes to a request, and the rows after the first are the
cases of that request. -/
theorem checksComeInOrder : Obligations.ChecksComeInOrder := by
  intro s w rest packet
  obtain ⟨rejected, executed⟩ := malformedCommandsAreIllegal s w rest packet
  by_cases malformed : commandIllegal w = true
  · exact firstMatch_of_holds malformed (rejected malformed)
  obtain ⟨i, decoded, stepped⟩ := executed (Bool.eq_false_iff.2 malformed)
  have fails {check : Instr → Bool} {b : Bool} (passed : check i = !b) :
      ¬∃ j, decode (w :: rest) = .ok j ∧ check j = b := by
    rintro ⟨j, same, failed⟩
    cases decoded.symm.trans same
    simp [passed] at failed
  rw [stepped]
  refine firstMatch_of_fails malformed ?_
  obtain ⟨types, unsupported⟩ | ⟨types, request⟩ := exec_cases i s
  · exact firstMatch_of_holds ⟨i, decoded, types⟩ unsupported
  refine firstMatch_of_fails (fails types) ?_
  obtain ⟨exponent, domain⟩ | ⟨exponent, request⟩ := request
  · exact firstMatch_of_holds ⟨i, decoded, exponent⟩ domain
  refine firstMatch_of_fails (fails exponent) ?_
  obtain ⟨operands, refused⟩ | ⟨operands, answered⟩ := request
  · exact firstMatch_of_holds ⟨i, decoded, operands⟩ refused
  · exact firstMatch_of_fails (fails operands) (firstMatch_of_holds trivial answered)

/-! ### The causes of the errors (R267, R268) -/

/-- Answers in one state tell their responses. -/
theorem answer_injective {s : State} {r r' : Response}
    (same : (.next (s.deliver r) : Result) = .next (s.deliver r')) : r = r' := by
  have outbox := congrArg State.outbox (Host.Outcome.next.inj same)
  simpa using outbox

/-- The status of an error response says which of the two checks the request fails. -/
theorem exec_eq_raise_iff (i : Instr) (s : State) {e : Status} (error : e ≠ .ok) :
    exec i s = raise e s ↔
      e = .unsupportedType ∧ i.typesLegal = false ∨
        e = .domain ∧ i.typesLegal = true ∧ i.negativeExponent = true := by
  have raise_iff {e' : Status} : raise e' s = raise e s ↔ e = e' :=
    ⟨fun same => (congrArg Response.status (answer_injective same)).symm, fun same => by rw [same]⟩
  obtain ⟨types, unsupported⟩ | ⟨types, ⟨exponent, domain⟩ | ⟨exponent, ⟨-, refused⟩ | ⟨-, r, ok, answered⟩⟩⟩ :=
    exec_cases i s
  · simp [unsupported, raise_iff, types]
  · simp [domain, raise_iff, types, exponent]
  · simp [refused, raise, types, exponent]
  · have other : exec i s ≠ raise e s := fun same => by
      obtain rfl := answer_injective (answered.symm.trans same)
      exact error ok
    simp [other, types, exponent]

/-- Settles O17: of the answers only that of the first check has this status. -/
theorem unsupportedTypeExactly : Obligations.UnsupportedTypeExactly := fun i s =>
  (exec_eq_raise_iff i s (by decide)).trans (by simp)

/-- Only POWI has an exponent (R174); its type code is legal when it is an ordinal (R57). -/
theorem legal_negativeExponent_iff {i : Instr} :
    i.typesLegal = true ∧ i.negativeExponent = true ↔ ∃ ta a n, i = .powi ta a n ∧ ta.toNat ≤ 2 ∧ n.toInt < 0 := by
  constructor
  · rintro ⟨types, exponent⟩
    cases i with
    | powi ta a n => exact ⟨ta, a, n, rfl, of_decide_eq_true types, toInt_neg_iff.2 exponent⟩
    | add | sub | mul | div | add3 | addmany | mulmany | pow | log | exp | sqrt | round | trunc | ceil | floor | abs
    | copysign | iszero | isone | isnan | isinf | isneg | isgt | cvtff | cvtif | cvtfi => cases exponent
  · rintro ⟨ta, a, n, rfl, types, exponent⟩
    exact ⟨decide_eq_true types, toInt_neg_iff.1 exponent⟩

/-- Settles O18: of the answers only that of the second check has this status, and only POWI fails that check. -/
theorem domainExactly : Obligations.DomainExactly := fun i s =>
  (exec_eq_raise_iff i s (by decide)).trans (by simpa using legal_negativeExponent_iff)

end Sys2Proof.Machine

/-! The reset family: the reset signal leaves an empty request channel, on which FPALU is idle and the next request issued
stands at the head. -/

namespace Sys2Proof.Machine

/-! ### An empty request channel (R283, R284) -/

section EmptyChannel
variable {s : State} (empty : s.inbox = [])
include empty

/-- No packet is empty, so none stands at the head of the channel. -/
theorem step_of_inbox_nil : step s = .next s := by
  apply stepIdlesWithoutAWholePacket
  rintro ws rest head ⟨w, tail, rfl, -⟩
  simp [empty] at head

theorem step_hostIssue_encode {i : Instr} (h : i.wf = true) : step (s.hostIssue (encode i)) = exec i s := by
  have head : (s.hostIssue (encode i)).inbox = encode i ++ [] := by simp [empty]
  have consumed : { s.hostIssue (encode i) with inbox := [] } = s := by rw [← empty]; rfl
  rw [step_packet (isPacket_encode h) head, decode_encode h, consumed]

end EmptyChannel

/-! ### The reset signal (R291) -/

/-- Settles O9: the signal empties the request channel and does nothing else. -/
theorem resetSignalDiscardsRequests : Obligations.ResetSignalDiscardsRequests := fun _ =>
  ⟨rfl, rfl, step_of_inbox_nil rfl, fun _ => step_hostIssue_encode rfl⟩

end Sys2Proof.Machine
